-- ==== Sys2Proof/Word.lean ====
section
/-!
DEFINITION. The data the block moves: bytes (R12), pixels and their two formats (R33, R79).
Registers that the spec computes on as unbounded integers (R10, R16) are Nat or Int, not words.
-/
namespace Sys2Proof

/-- A byte: 8 bits, an unsigned integer 0 to 255 (R12), bits numbered 7 down to 0 (R13). -/
abbrev Byte := BitVec 8

/-- The pixel format codes of `FMT` (R79): 0 = grayscale, 1 = RGB triplet. One bit, no illegal value. -/
inductive Fmt where
  | gray
  | rgb
  deriving DecidableEq, Repr

/-- The code of a format (R79). -/
def Fmt.code : Fmt → BitVec 1
  | .gray => 0#1
  | .rgb => 1#1

/-- One pixel of `IMG` (R33): one channel or three channels R, G, B, each `CHW` = 8 bits unsigned
(the stated default of R10, log 4). That each pixel keeps the format it was written in, beside `FMT`, is the
model's choice (log 25). -/
inductive Pixel where
  | gray (g : Byte)
  | rgb (r g b : Byte)
  deriving DecidableEq, Repr

/-- The format a pixel is stored in. -/
def Pixel.fmt : Pixel → Fmt
  | .gray _ => .gray
  | .rgb _ _ _ => .rgb

/-- A pixel of the image buffer at a column and a row. -/
abbrev PixelCell := (Nat × Nat) × Pixel

end Sys2Proof
end

