-- ==== Sys2Proof/Config.lean ====
section
/-!
DEFINITION. What an implementation fixes: the constants of R8 and R10, the open parameters
`CAP_IN`, `CAP_OUT`, `LW`, `CW` as a record that State carries (R10: "The model takes each as an
argument"; log 3), and the one free value of the model (log 13).
-/
namespace Sys2Proof.Config

/-- `LIT_MAX` (R8): greatest number of literal bytes one `LIT` tag carries. -/
def litMax : Nat := 128

/-- `REP_MAX` (R8): greatest number of bytes one `REP` tag produces. -/
def repMax : Nat := 129

/-- `RUN_EXTRA_MAX` (R10, D5): greatest `RC` one emitted `REP` tag carries. -/
def runExtraMax : Nat := 128

/-- `LUM_T` (R8): a grey value is black when it is at most this. -/
def lumT : Nat := 230

/-- The threshold on the sum of three channels: the exact mean at most 230 (R134, D6; log 16). -/
def lumSumT : Nat := 690

/-- `MODE_RAW` (R8, R78). -/
def modeRaw : Byte := 0x00#8

/-- `MODE_RLE` (R8, R78). -/
def modeRle : Byte := 0x02#8

/-- The open parameters of R10. `CHW` is not among them: its stated default 8 is the width of `Byte`. -/
structure Params where
  /-- `CAP_IN`: greatest `INLEN` the block accepts. -/
  capIn : Nat
  /-- `CAP_OUT`: greatest `OUTLEN` the block can hold. -/
  capOut : Nat
  /-- `LW`: width of `IP`, `INLEN`, `OUTLEN` (and `FINFO`, R171). -/
  lw : Nat
  /-- `CW`: width of `X`, `W`, `H`, `SC` (unsigned) and `YOFF` (signed). -/
  cw : Nat
  deriving DecidableEq, Repr

/-- `LW` is "at least enough bits for `CAP_IN` and `CAP_OUT`" (R10), and `FINFO` holds a `MARG` (R171). -/
def Params.wf (p : Params) : Bool :=
  decide (p.capIn < 2 ^ p.lw) && decide (p.capOut < 2 ^ p.lw) && decide (8 ≤ p.lw)

/-- DESIGN CHOICE (log 3), unsafe for a claim that rests on it: the parameters of the reset state.
`capOut` is the bound of R86 (c) for `capIn`. Statements hold for every `Params`. -/
def defaultParams : Params := { capIn := 65535, capOut := 4226943, lw := 32, cw := 32 }

/-- FREE VALUE (log 13), safe. The bit `RASTERIZE` makes from a pixel that is stored in the other format
than `FMT` says: the spec gives every combination of operands a result (R138) and does not state this
one. It may depend on the whole image, the format asked for and the position. -/
opaque crossFormatBit : List PixelCell → Fmt → Nat → Nat → Bool

end Sys2Proof.Config
end

