-- ==== Sys2Proof/Syntax.lean ====
section
/-!
DEFINITION. The instructions: one constructor per row of the opcode table. `lit` and `rep` are the units
of a compressed row (R70 to R72), the other six the operations that `start(op)` names (R77).
-/
namespace Sys2Proof

/-- An instruction. A unit's payload bytes are operands in `IN` behind the tag and are read by the
unit's meaning, as R112 and R113 write it; an operation's operands are registers and buffers (R77). -/
inductive Instr where
  /-- `LIT` (R71, R112): the count field `N`, one less than the number of literal bytes. -/
  | lit (n : Nat)
  /-- `REP` (R72, R113): `M`, the tag being the signed byte `−M`; the unit yields `M + 1` copies. -/
  | rep (m : Nat)
  /-- `COMPRESS`, code 0x1 (R90, R98). -/
  | compress
  /-- `DECOMPRESS`, code 0x2 (R110, R116). -/
  | decompress
  /-- `RASTERIZE`, code 0x3 (R130, R137). -/
  | rasterize
  /-- `SETMODE`, code 0x4 (R150). -/
  | setmode
  /-- `ROWENC`, code 0x5 (R153). -/
  | rowenc
  /-- `ROWDEC`, code 0x6 (R154). -/
  | rowdec
  deriving DecidableEq, Repr

end Sys2Proof
end

