-- ==== Sys2Proof/WellFormed.lean ====
section
/-!
DEFINITION. Which instructions and which units of a compressed row the spec's formats admit (R71, R72),
and when a sequence of units is canonical (R83).
-/
namespace Sys2Proof

/-- The ranges of the tag's fields: `N` is 0 to 127 (R71), `M` is 1 to 128 (R72). -/
def Instr.wf : Instr → Bool
  | .lit n => decide (n ≤ 127)
  | .rep m => decide (1 ≤ m) && decide (m ≤ 128)
  | .compress => true
  | .decompress => true
  | .rasterize => true
  | .setmode => true
  | .rowenc => true
  | .rowdec => true

/-- A whole unit with its payload, in the written syntax of R81: `LIT d0 ... dN`, `REP k, b`. -/
inductive RowUnit where
  | lit (ds : List Byte)
  | rep (k : Nat) (b : Byte)
  deriving DecidableEq, Repr

/-- A literal unit carries 1 to 128 bytes (R71), a repeat unit stands for 2 to 129 (R72). -/
def RowUnit.wf : RowUnit → Bool
  | .lit ds => decide (1 ≤ ds.length) && decide (ds.length ≤ Config.litMax)
  | .rep k _ => decide (2 ≤ k) && decide (k ≤ Config.repMax)

/-- The bytes of the row a unit stands for (R71, R72). -/
def RowUnit.yield : RowUnit → List Byte
  | .lit ds => ds
  | .rep k b => List.replicate k b

/-- The row a sequence of units stands for: the yields end to end (R70, R118). -/
def expand (us : List RowUnit) : List Byte := us.flatMap RowUnit.yield

/-- No two equal neighbours (R83 (b)). -/
def distinctNeighbours : List Byte → Bool
  | [] => true
  | [_] => true
  | a :: b :: rest => a != b && distinctNeighbours (b :: rest)

/-- What R83 says of a unit inside itself: a literal unit never contains two equal neighbouring bytes. -/
def RowUnit.canonical : RowUnit → Bool
  | .lit ds => distinctNeighbours ds
  | .rep _ _ => true

/-- What R83 says of two units that follow each other: a repeat unit is cut off inside its stretch of equal
bytes only at 129 (a); a literal unit's last byte differs from the byte that follows it (b); a literal
unit that is not full is never followed directly by another literal unit (c). -/
def RowUnit.canonicalBefore : RowUnit → RowUnit → Bool
  | .rep k b, v => v.yield.head? != some b || k == Config.repMax
  | .lit ds, .lit es => ds.length == Config.litMax && ds.getLast? != es.head?
  | .lit ds, .rep _ c => ds.getLast? != some c

/-- A canonical sequence of units (R83): every unit well-formed (d), and (a), (b), (c) unit by unit. -/
def canonical : List RowUnit → Bool
  | [] => true
  | [u] => u.wf && u.canonical
  | u :: v :: rest => u.wf && u.canonical && u.canonicalBefore v && canonical (v :: rest)

end Sys2Proof
end

