-- ==== Sys2Proof/Decode.lean ====
section
/-!
DEFINITION. The decoder of both layers of encoded words (30_encoding.md): tags of units (R71 to R75) and
operation codes (R77, R80), total on any bytes and rejecting by name; after it the encoder, written from
the same tables; then whole units and rows (R70, R76, R81), and the opcode table's numbering.
-/
namespace Sys2Proof

/-! ### The signed byte (R14) -/

/-- `s8(v)` (R14): `v` when bit 7 is 0, `v − 256` when it is 1. -/
def s8 (v : Byte) : Int := if v.getLsbD 7 then (v.toNat : Int) - 256 else (v.toNat : Int)

/-- `u8(n)` (R14) for −128 ≤ n ≤ 127: `n` when n ≥ 0 and `256 + n` when n < 0. -/
def u8 (n : Int) : Byte := BitVec.ofInt 8 (if 0 ≤ n then n else 256 + n)

/-! ### The decoder -/

/-- The two layers of encoded words (30_encoding.md, opening). -/
inductive Layer where
  /-- A unit of a compressed row: its first byte is the tag. -/
  | unit
  /-- An operation code, the argument of `start(op)`: 4 bits, held in the low half of one byte. -/
  | operation
  deriving DecidableEq, Repr

/-- Why a word is no instruction. -/
inductive DecodeError where
  /-- There is no byte to decode. -/
  | noBytes
  /-- The code is 0x0 or 0x7 to 0xF (R80). -/
  | reservedCode (c : BitVec 4)
  /-- The byte holds more than the 4 bits of a code (R77). -/
  | codeTooWide
  deriving DecidableEq, Repr

/-- The unit a tag selects (R71, R72, R75): all 256 tags are legal. -/
def decodeTag (t : Byte) : Instr :=
  if t.getLsbD 7 then .rep (256 - t.toNat) else .lit t.toNat

/-- The operation a code selects (R77); the reserved codes are rejected (R80). -/
def decodeOp (c : BitVec 4) : Except DecodeError Instr :=
  match c.toNat with
  | 1 => .ok .compress
  | 2 => .ok .decompress
  | 3 => .ok .rasterize
  | 4 => .ok .setmode
  | 5 => .ok .rowenc
  | 6 => .ok .rowdec
  | _ => .error (.reservedCode c)

/-- The decoder, total on any bytes. -/
def decode : Layer → List Byte → Except DecodeError Instr
  | _, [] => .error .noBytes
  | .unit, t :: _ => .ok (decodeTag t)
  | .operation, b :: _ => if b.toNat < 16 then decodeOp (b.setWidth 4) else .error .codeTooWide

/-! ### The encoder -/

/-- The layer an instruction belongs to. -/
def layerOf : Instr → Layer
  | .lit _ => .unit
  | .rep _ => .unit
  | .compress => .operation
  | .decompress => .operation
  | .rasterize => .operation
  | .setmode => .operation
  | .rowenc => .operation
  | .rowdec => .operation

/-- The encoded word: the tag `N` (R71), the tag `u8(−M)` (R72), the operation codes (R77). -/
def encodeWord : Instr → Byte
  | .lit n => u8 n
  | .rep m => u8 (-(m : Int))
  | .compress => 0x1#8
  | .decompress => 0x2#8
  | .rasterize => 0x3#8
  | .setmode => 0x4#8
  | .rowenc => 0x5#8
  | .rowdec => 0x6#8

/-- The words of a well-formed instruction. -/
def encode (i : Instr) : List Byte := [encodeWord i]

/-! ### Whole units and rows -/

/-- The bytes of a unit: the tag, then its payload (R71, R72, R81). -/
def RowUnit.bytes : RowUnit → List Byte
  | .lit ds => u8 ((ds.length : Int) - 1) :: ds
  | .rep k b => [u8 (-((k : Int) - 1)), b]

/-- A compressed row: units laid end to end with nothing between them (R70). -/
def encodeRow (us : List RowUnit) : List Byte := us.flatMap RowUnit.bytes

/-- The bytes hold a tag whose payload runs past their end (R76). -/
def truncatedUnit : List Byte → Bool
  | [] => false
  | t :: rest => if t.getLsbD 7 then rest.isEmpty else decide (rest.length < t.toNat + 1)

/-- The first unit of the bytes and what follows it (R74); none when there is none or it is truncated (R76). -/
def decodeUnit : List Byte → Option (RowUnit × List Byte)
  | [] => none
  | t :: rest =>
    if t.getLsbD 7 then
      match rest with
      | [] => none
      | b :: more => some (.rep (257 - t.toNat) b, more)
    else if rest.length < t.toNat + 1 then none
    else some (.lit (rest.take (t.toNat + 1)), rest.drop (t.toNat + 1))

/-- The units of the bytes, at most `fuel` of them; none when the row is ill-formed (R76). -/
def decodeUnits : Nat → List Byte → Option (List RowUnit)
  | 0, bs => if bs.isEmpty then some [] else none
  | fuel + 1, bs =>
    if bs.isEmpty then some []
    else
      match decodeUnit bs with
      | none => none
      | some (u, rest) =>
        match decodeUnits fuel rest with
        | none => none
        | some us => some (u :: us)

/-- The units of a compressed row (R70). Each unit has at least two bytes, so its length is fuel enough. -/
def decodeRow (bs : List Byte) : Option (List RowUnit) := decodeUnits bs.length bs

/-! ### The opcode table's numbering -/

/-- The longest instruction: a `LIT` tag and 128 payload bytes (R71). -/
def longestUnit : Nat := 129

/-- DESIGN CHOICE (log 14). The table numbers both layers from bit 0 of a first byte, so a byte 0x01 to 0x06
alone may be a code or a tag: it is read as the code; every other byte is read as a tag, and fewer
than 8 bits as a code. -/
def tableLayer (nbits w : Nat) : Layer :=
  if nbits < 8 then .operation
  else if nbits = 8 ∧ 1 ≤ w % 256 ∧ w % 256 ≤ 6 then .operation
  else .unit

/-- The bytes of a word of `nbits` bits, first byte lowest, every bit above zero, as many as the longest
instruction has. -/
def tableBytes (nbits w : Nat) : List Byte :=
  (List.range longestUnit).map fun k => BitVec.ofNat 8 ((w % 2 ^ nbits) >>> (8 * k))

/-- The instruction the decoder reads from a word numbered as the opcode table numbers it. -/
def decodeTableWord (nbits w : Nat) : Option Instr :=
  match decode (tableLayer nbits w) (tableBytes nbits w) with
  | .ok i => some i
  | .error _ => none

end Sys2Proof
end

