-- ==== Sys2Proof/Machine/State.lean ====
section
/-!
DEFINITION. The state of one block instance (R20, "and nothing else") as plain data, the host's next moves
and the implementation's parameters beside it, the reasons a step can stop, and the state after reset (R39).
-/
namespace Sys2Proof.Machine

/-- A byte-addressed buffer (R50): index and byte, indices strictly rising. An index that is not listed
holds no value (log 7): nothing has written it (R39, U6). -/
abbrev Memory := List Host.Cell

/-- The image buffer (R50): position (column, row) and pixel, positions strictly rising in the order of
`PixelCell` keys. A position that is not listed holds no value (log 7). -/
abbrev Image := List PixelCell

/-- `CMODE` (R29) as the three-valued type the rule allows: unset is `V` = 0, the others are `V` = 1 with
`VAL` 0x00 and 0x02 (log 8). -/
inductive CMode where
  | unset
  | raw
  | runLength
  deriving DecidableEq, Repr

/-- The `FAULT` register (R32, R171). -/
inductive FaultCode where
  | none
  | malformedInput
  | modeUnset
  | modeInvalid
  deriving DecidableEq, Repr

/-- What the host may write while the block is idle (R34): a cell of its buffers or an operand register. -/
inductive HostWrite where
  | inByte (i : Nat) (b : Byte)
  | inlen (n : Nat)
  | pixel (x y : Nat) (p : Pixel)
  | w (n : Nat)
  | h (n : Nat)
  | fmt (f : Fmt)
  | x (n : Nat)
  | sc (n : Nat)
  | yoff (z : Int)
  | marg (b : Byte)
  deriving DecidableEq, Repr

/-- One move of the host (R212). -/
inductive HostMove where
  /-- Write a buffer cell or an operand register (R34). -/
  | write (hw : HostWrite)
  /-- Copy `OUT[0..OUTLEN−1]` to `IN` and set `INLEN <- OUTLEN` (R65). -/
  | copyResult
  /-- `start(op)`, the operation named by its 4-bit code (R35, R77). -/
  | start (code : BitVec 4)
  /-- Reset (R200). -/
  | reset
  deriving DecidableEq, Repr

/-- The state. Registers that the spec computes on as unbounded integers (R10, R16) are Nat or Int; their
widths bound what a start accepts (log 5). -/
structure State where
  /-- `IN`, the input buffer. -/
  inBuf : Memory
  /-- `INLEN`. -/
  inlen : Nat
  /-- `IMG`, the image buffer. -/
  img : Image
  /-- `W`, image width. -/
  w : Nat
  /-- `H`, image height. -/
  h : Nat
  /-- `FMT`, pixel format. -/
  fmt : Fmt
  /-- `X`, image column. -/
  x : Nat
  /-- `SC`, stripe byte count. -/
  sc : Nat
  /-- `YOFF`, vertical offset, signed. -/
  yoff : Int
  /-- `MARG`, the value `SETMODE` writes. -/
  marg : Byte
  /-- `OUT`, the output buffer. -/
  outBuf : Memory
  /-- `OUTLEN`. -/
  outlen : Nat
  /-- `IP`, the cursor (R24). -/
  ip : Nat
  /-- `RC`, the run counter (R26). -/
  rc : Nat
  /-- `LB`, the literal buffer, oldest byte first (R27). -/
  lb : List Byte
  /-- `CMODE` (R29). -/
  cmode : CMode
  /-- `STATUS.BUSY` (R31). -/
  busy : Bool
  /-- `STATUS.DONE` (R31). -/
  done : Bool
  /-- `FAULT` (R32). -/
  fault : FaultCode
  /-- `FINFO` (R32). -/
  finfo : Nat
  /-- The model's own: the implementation's parameters (R10, log 3); no step changes them. -/
  par : Config.Params
  /-- The model's own: the host's next moves, the next one first (log 2). -/
  host : List HostMove
  deriving DecidableEq, Repr

/-- Why the model stops where nothing has written what is read (U6, log 7). All safe: the spec gives such a
read no value and treats it as a fault of the model. -/
inductive Fault where
  /-- Raised by `COMPRESS`, `DECOMPRESS`, `ROWENC`, `ROWDEC`, `LIT`, `REP`: `IN[i]` has never been written. Safe. -/
  | unwrittenIn (i : Nat)
  /-- Raised by `RASTERIZE`: the pixel at (x, y) has never been written. Safe. -/
  | unwrittenPixel (x y : Nat)
  /-- Raised by the host's copy of the result: `OUT[i]` has never been written. Safe. -/
  | unwrittenOut (i : Nat)
  deriving DecidableEq, Repr

/-- Why something has no meaning in the model. -/
inductive Refusal where
  /-- Raised by `exec` for an instruction without a meaning yet; no arm does. Safe. -/
  | notModelled (mnemonic : String)
  /-- Raised by every operation: a start while `STATUS.BUSY` = 1 is outside the spec (R35, R207, U3).
  The host is assumed not to make it (log 12): unsafe for a host that does. -/
  | startWhileBusy
  /-- Raised by a host move while `STATUS.BUSY` = 1 (R206, U3): the host has no such move (log 12): unsafe
  for a host that makes it. -/
  | hostMoveWhileBusy
  /-- Raised by the host's copy of `OUT` when `STATUS.DONE` = 0: there is no result (R209, log 17). Safe. -/
  | noResult
  /-- Raised by every operation but `SETMODE`: `INLEN` > `CAP_IN`, an operand of `RASTERIZE` that does not fit
  `CW` bits, or a result longer than `CAP_OUT` (R61, U1; log 10); by `LIT` and `REP` stepped inside an
  interpretation: the unit would make the result longer than `CAP_OUT` (log 11). Safe. -/
  | overCapacity
  deriving DecidableEq, Repr

/-- The state after a first reset (R39, R200). Host-owned registers, which the spec leaves unspecified,
hold zero (DESIGN CHOICE, log 6); the buffers list nothing (log 7); the parameters are log 3's. -/
def State.reset : State where
  inBuf := []
  inlen := 0
  img := []
  w := 0
  h := 0
  fmt := .gray
  x := 0
  sc := 0
  yoff := 0
  marg := 0x00#8
  outBuf := []
  outlen := 0
  ip := 0
  rc := 0
  lb := []
  cmode := .unset
  busy := false
  done := false
  fault := .none
  finfo := 0
  par := Config.defaultParams
  host := []

end Sys2Proof.Machine
end

