-- ==== Sys2Proof/Machine/Flags.lean ====
section
/-!
DEFINITION. The status and fault registers (R31, R32): every write of `STATUS`, `FAULT` and `FINFO` the spec
gives, and the numeric codes software reads. There are no arithmetic condition codes (R31).
-/
namespace Sys2Proof.Machine

/-- The code the host reads in `FAULT` (R171). -/
def FaultCode.code : FaultCode → BitVec 2
  | .none => 0#2
  | .malformedInput => 1#2
  | .modeUnset => 2#2
  | .modeInvalid => 3#2

/-- `CMODE.V` (R29). -/
def CMode.v : CMode → Bool
  | .unset => false
  | .raw => true
  | .runLength => true

/-- `CMODE.VAL` (R29); unspecified while `V` = 0 (log 8). -/
def CMode.val : CMode → Option Byte
  | .unset => .none
  | .raw => some Config.modeRaw
  | .runLength => some Config.modeRle

/-- `STATUS` at the start of an operation (R37). -/
def statusStart (s : State) : State := { s with busy := true, done := false }

/-- `STATUS` at the end of an operation without a fault (R38). -/
def statusEnd (s : State) : State := { s with busy := false, done := true }

/-- `raise F(info)` (R176): the one way a fault is taken. These four writes and nothing else; there is no
handler, no vector, no saved program counter. -/
def raise (f : FaultCode) (info : Nat) (s : State) : State :=
  { s with fault := f, finfo := info, busy := false, done := false }

end Sys2Proof.Machine
end

