-- ==== Sys2Proof/Machine/Operands.lean ====
section
/-!
DEFINITION. Every operand form the spec gives: bytes of `IN` (R16, `MemRead`), pixels of `IMG` (`PixRead`), the
counts a tag assembles (R73), the mode byte (R78), the widths of the operand registers (R23), and the
bit order of a packed row (R53, R136).
-/
namespace Sys2Proof.Machine

/-! ### Byte buffers -/

/-- The byte at an index; none where nothing has written. -/
def Memory.read : Memory → Nat → Option Byte
  | [], _ => none
  | (a, b) :: m, i => if a = i then some b else Memory.read m i

/-- The `n` bytes from index `a` on; none where one of them has not been written. -/
def Memory.readN (m : Memory) (a : Nat) : Nat → Option (List Byte)
  | 0 => some []
  | n + 1 =>
    match Memory.read m a, Memory.readN m (a + 1) n with
    | some b, some bs => some (b :: bs)
    | _, _ => none

/-- `IN[i]` (R16). -/
def readIn (s : State) (i : Nat) : Except Fault Byte :=
  match Memory.read s.inBuf i with
  | some b => .ok b
  | none => .error (.unwrittenIn i)

/-- `MemRead(a, n)` (R16): the bytes in index order; the first one nothing has written stops the model. -/
def memRead (s : State) (a : Nat) : Nat → Except Fault (List Byte)
  | 0 => .ok []
  | n + 1 =>
    match readIn s a with
    | .error f => .error f
    | .ok b =>
      match memRead s (a + 1) n with
      | .error f => .error f
      | .ok bs => .ok (b :: bs)

/-- The row in `IN[0..INLEN−1]`; none where a byte of it has not been written. -/
def inRow (s : State) : Option (List Byte) := Memory.readN s.inBuf 0 s.inlen

/-- The bytes of `OUT[0..OUTLEN−1]`; none where one has not been written. -/
def outRow (s : State) : Option (List Byte) := Memory.readN s.outBuf 0 s.outlen

/-! ### The image -/

/-- The pixel at a position; none where nothing has written. -/
def Image.read : Image → Nat × Nat → Option Pixel
  | [], _ => none
  | (k, p) :: m, i => if k = i then some p else Image.read m i

/-- `PixRead(x, y)` (R16). -/
def pixRead (s : State) (x y : Nat) : Except Fault Pixel :=
  match Image.read s.img (x, y) with
  | some p => .ok p
  | none => .error (.unwrittenPixel x y)

/-- The bit of a sampled pixel (R134): grey value at most 230, or sum of the channels at most 690 (the exact
mean, D6); a pixel stored in the other format than `FMT` gives a free bit (log 13). -/
def blackBit (s : State) (x y : Nat) (p : Pixel) : Bool :=
  match s.fmt, p with
  | .gray, .gray g => decide (g.toNat ≤ Config.lumT)
  | .rgb, .rgb r g b => decide (r.toNat + g.toNat + b.toNat ≤ Config.lumSumT)
  | f, _ => Config.crossFormatBit s.img f x y

/-! ### Counts of a tag (R73) -/

/-- How many literal bytes follow a literal tag `N`. -/
def litCount (n : Nat) : Nat := n + 1

/-- How many copies a repeat tag `−M` yields. -/
def repCount (m : Nat) : Nat := m + 1

/-- The tag `u8(−RC)` that `COMPRESS` emits (R92). -/
def repeatTag (rc : Nat) : Byte := BitVec.ofNat 8 (256 - rc)

/-- The tag of a flushed buffer of `len` bytes (R94). -/
def literalTag (len : Nat) : Byte := BitVec.ofNat 8 (len - 1)

/-! ### Widths of operand registers (R23, D8; log 5) -/

/-- An unsigned operand fits `CW` bits. -/
def fitsUnsigned (s : State) (n : Nat) : Bool := decide (n < 2 ^ s.par.cw)

/-- A signed operand fits `CW` bits in two's complement. -/
def fitsSigned (s : State) (z : Int) : Bool :=
  decide (-(2 ^ s.par.cw : Int) ≤ 2 * z) && decide (2 * z < (2 ^ s.par.cw : Int))

/-- What a start of an operation that reads `INLEN` asks of it (R23, R185). -/
def rowFits (s : State) : Bool := decide (s.inlen ≤ s.par.capIn)

/-- What a start of `RASTERIZE` asks of its operands (R23, U1), its result being `SC` bytes long (R130, R212). -/
def rasterFits (s : State) : Bool :=
  fitsUnsigned s s.w && fitsUnsigned s s.h && fitsUnsigned s s.x && fitsUnsigned s s.sc &&
    fitsSigned s s.yoff && decide (s.sc ≤ s.par.capOut)

/-! ### Bit order (R13, R53, R136) -/

/-- `v[i] <- bit`. -/
def setBit (v : Byte) (i : Nat) (bit : Bool) : Byte :=
  if bit then v ||| BitVec.twoPow 8 i else v &&& ~~~ (BitVec.twoPow 8 i)

/-- `v[7 − k] <- bit` for the bits from `k` on (R137). -/
def packFrom (k : Nat) (v : Byte) : List Bool → Byte
  | [] => v
  | b :: bs => packFrom (k + 1) (setBit v (7 - k) b) bs

/-- The bit at position `p` of a packed row (R53): bit `7 − (p mod 8)` of byte `p div 8`; none past the end. -/
def rowBit (row : List Byte) (p : Nat) : Option Bool :=
  match row[p / 8]? with
  | some v => some (v.getLsbD (7 - p % 8))
  | none => none

end Sys2Proof.Machine
end

