-- ==== Sys2Proof/Machine/Ops.lean ====
section
/-!
DEFINITION. The operations every meaning shares: writes of the buffers in canonical form, `emit` (R16), how a
body ends, `raise` as a body's end (R176), prologue and epilogue (R37, R38), the tests of `start` (R35,
R185), and reset (R200, R202).
-/
namespace Sys2Proof.Machine

/-! ### Writes of the buffers -/

/-- Write one byte; the indices stay strictly rising. -/
def Memory.write : Memory → Nat → Byte → Memory
  | [], i, b => [(i, b)]
  | (a, c) :: m, i, b =>
    if i < a then (i, b) :: (a, c) :: m
    else if i = a then (i, b) :: m
    else (a, c) :: Memory.write m i b

/-- Write bytes from index `i` on (R16, `MemWrite`). -/
def Memory.writeAll : Memory → Nat → List Byte → Memory
  | m, _, [] => m
  | m, i, b :: bs => Memory.writeAll (Memory.write m i b) (i + 1) bs

/-- The canonical form: every index is above the ones before it. No listed entry equals what an unlisted
index reads as, since an unlisted index reads as no value. -/
def Memory.wf : Memory → Bool
  | [] => true
  | [_] => true
  | (a, _) :: (c, d) :: m => decide (a < c) && Memory.wf ((c, d) :: m)

/-- The order of positions: by column, then by row. -/
def posLt (p q : Nat × Nat) : Bool := decide (p.1 < q.1) || (decide (p.1 = q.1) && decide (p.2 < q.2))

/-- Write one pixel; the positions stay strictly rising. -/
def Image.write : Image → Nat × Nat → Pixel → Image
  | [], i, p => [(i, p)]
  | (k, q) :: m, i, p =>
    if posLt i k then (i, p) :: (k, q) :: m
    else if i = k then (i, p) :: m
    else (k, q) :: Image.write m i p

/-- The canonical form of the image. -/
def Image.wf : Image → Bool
  | [] => true
  | [_] => true
  | (k, _) :: (l, q) :: m => posLt k l && Image.wf ((l, q) :: m)

/-! ### Bodies of operations -/

/-- How a piece of an operation's body ends: it goes on, it has executed `raise` (R176: "the operation's body
stops there"), or the model stops. -/
inductive Flow where
  | go (s : State)
  | raised (s : State)
  | stop (f : Fault)
  deriving DecidableEq, Repr

/-- Go on with the next piece of the body, unless it has ended. -/
def Flow.andThen (r : Flow) (k : State → Flow) : Flow :=
  match r with
  | .go s => k s
  | .raised s => .raised s
  | .stop f => .stop f

/-- `raise F(info)` as the end of a body (R176). -/
def raiseFlow (f : FaultCode) (info : Nat) (s : State) : Flow := .raised (raise f info s)

/-- `emit(v)` (R16). -/
def emit (v : List Byte) (s : State) : State :=
  { s with outBuf := Memory.writeAll s.outBuf s.outlen v, outlen := s.outlen + v.length }

/-- `IP <- t` (R16). -/
def setIp (t : Nat) (s : State) : State := { s with ip := t }

/-- `RC <- r`. -/
def setRc (r : Nat) (s : State) : State := { s with rc := r }

/-- `LB <- LB ++ [b]`. -/
def pushLb (b : Byte) (s : State) : State := { s with lb := s.lb ++ [b] }

/-- `LB <- []`. -/
def clearLb (s : State) : State := { s with lb := [] }

/-- The part of the prologue every operation has (R37). -/
def prologueMode (s : State) : State := clearLb (setRc 0 (setIp 0 (statusStart s)))

/-- The prologue of every operation but `SETMODE` (R37). -/
def prologue (s : State) : State := { prologueMode s with outlen := 0 }

/-- The epilogue (R38). -/
def epilogue (s : State) : State := statusEnd s

/-! ### Start and end of an operation -/

/-- The tests of `start(op)` (R35, R185) before an operation runs. A busy block is outside the spec (R207); with a
fault recorded the start changes no state at all (R180, log 9); a start whose operands do not fit has no
meaning (R61, U1). -/
def startChecked (fits : State → Bool) (run : State → Host.Outcome State Fault Refusal) (s : State) :
    Host.Outcome State Fault Refusal :=
  if s.busy then .refused .startWhileBusy
  else if s.fault ≠ .none then .next s
  else if fits s then run s
  else .refused .overCapacity

/-- The state an operation leaves, unless its result would be longer than `CAP_OUT`: then it has no meaning (R61, U1;
log 10, log 11). -/
def heldOrRefused (s t : State) : Host.Outcome State Fault Refusal :=
  if t.outlen ≤ s.par.capOut then .next t else .refused .overCapacity

/-- The end of an operation that writes `OUT`, started in `s`: the epilogue when the body ends without raise
(R38), the state of the `raise` otherwise (R176). -/
def finish (s : State) (r : Flow) : Host.Outcome State Fault Refusal :=
  match r with
  | .go t => heldOrRefused s (epilogue t)
  | .raised t => heldOrRefused s t
  | .stop f => .fault f

/-- The end of an operation that has no result in `OUT` (`SETMODE`, R150). -/
def finishMode (r : Flow) : Host.Outcome State Fault Refusal :=
  match r with
  | .go t => .next (epilogue t)
  | .raised t => .next t
  | .stop f => .fault f

/-- An operation that writes `OUT`: the tests, the prologue, the body, the end (R35). -/
def operation (fits : State → Bool) (body : State → Flow) (s : State) :
    Host.Outcome State Fault Refusal :=
  startChecked fits (fun u => finish u (body (prologue u))) s

/-- One unit run as a step of its own inside an interpretation: a result longer than `CAP_OUT` has no meaning
(R61, log 11). -/
def unitStep (body : State → Flow) (s : State) : Host.Outcome State Fault Refusal :=
  match body s with
  | .go t => heldOrRefused s t
  | .raised t => .next t
  | .stop f => .fault f

/-! ### Reset -/

/-- Reset (R200): the values of R39; the host-owned buffers and operand registers keep their content, and `OUT`
its bytes (R202). -/
def resetBlock (s : State) : State :=
  { s with
    cmode := .unset, fault := .none, finfo := 0, busy := false, done := false,
    ip := 0, rc := 0, lb := [], outlen := 0 }

end Sys2Proof.Machine
end

