-- ==== Sys2Proof/Machine/Units.lean ====
section
/-!
DEFINITION. The units of a compressed row: `LIT` (R112, R114) and `REP` (R113, R115).
-/
namespace Sys2Proof.Machine

/-- `LIT` at `IP` (R112): the payload would run past `INLEN` (R114), or `N + 1` bytes are copied in order. -/
def litBody (n : Nat) (s : State) : Flow :=
  if s.ip + n + 2 > s.inlen then raiseFlow .malformedInput s.ip s
  else
    match memRead s (s.ip + 1) (litCount n) with
    | .error f => .stop f
    | .ok ds => .go (setIp (s.ip + n + 2) (emit ds s))

/-- `REP` at `IP` (R113): the value byte is missing (R115), or `M + 1` copies of it are written. -/
def repBody (m : Nat) (s : State) : Flow :=
  if s.ip + 2 > s.inlen then raiseFlow .malformedInput s.ip s
  else
    match readIn s (s.ip + 1) with
    | .error f => .stop f
    | .ok b => .go (setIp (s.ip + 2) (emit (List.replicate (repCount m) b) s))

/-- The meaning of `LIT`. -/
def execLit (n : Nat) (s : State) : Host.Outcome State Fault Refusal := unitStep (litBody n) s

/-- The meaning of `REP`. -/
def execRep (m : Nat) (s : State) : Host.Outcome State Fault Refusal := unitStep (repBody m) s

end Sys2Proof.Machine
end

