-- ==== Sys2Proof/Machine/Codec.lean ====
section
/-!
DEFINITION. `COMPRESS` (R98) and `DECOMPRESS` (R116).
-/
namespace Sys2Proof.Machine

/-! ### COMPRESS -/

/-- `flush()` (R94, R98): nothing for an empty buffer. -/
def flush (s : State) : State :=
  if 1 ≤ s.lb.length then clearLb (emit s.lb (emit [literalTag s.lb.length] s)) else s

/-- The inner loop of R98: how many further bytes equal to `b` follow, from `rc` counted so far on, `fuel` at
most; started with `RUN_EXTRA_MAX` it stops at `RC` = 128 (R96). -/
def countRun (s : State) (b : Byte) : Nat → Nat → Except Fault Nat
  | 0, rc => .ok rc
  | fuel + 1, rc =>
    if s.ip + rc + 1 < s.inlen then
      match readIn s (s.ip + rc + 1) with
      | .error f => .error f
      | .ok c => if c = b then countRun s b fuel (rc + 1) else .ok rc
    else .ok rc

/-- The repeat branch (R92), `RC` counted. -/
def repeatBranch (b : Byte) (s : State) : State :=
  setIp (s.ip + s.rc + 1) (emit [b] (emit [repeatTag s.rc] (flush s)))

/-- The split (R95): a buffer that holds `LIT_MAX` bytes is flushed at once. -/
def splitLiteral (s : State) : State := if s.lb.length = Config.litMax then flush s else s

/-- The literal branch (R93) with the split (R95). -/
def literalBranch (b : Byte) (s : State) : State := splitLiteral (setIp (s.ip + 1) (pushLb b s))

/-- One pass of the outer loop of R98. -/
def compressPass (s : State) : Flow :=
  match readIn s s.ip with
  | .error f => .stop f
  | .ok b =>
    match countRun s b Config.runExtraMax 0 with
    | .error f => .stop f
    | .ok rc =>
      if 1 ≤ rc then .go (repeatBranch b (setRc rc s)) else .go (literalBranch b (setRc rc s))

/-- The outer loop of R98; `INLEN` passes are enough (R102). -/
def compressLoop : Nat → State → Flow
  | 0, s => .go s
  | fuel + 1, s =>
    if s.ip < s.inlen then (compressPass s).andThen (compressLoop fuel) else .go s

/-- The body of `COMPRESS` (R98): the scan, then the last flush (R97). -/
def compressBody (s : State) : Flow := (compressLoop s.inlen s).andThen fun t => .go (flush t)

/-- The meaning of `COMPRESS`. -/
def execCompress (s : State) : Host.Outcome State Fault Refusal := operation rowFits compressBody s

/-! ### DECOMPRESS -/

/-- One pass of the loop of R116: the tag's bit 7 selects the unit. -/
def decompressPass (s : State) : Flow :=
  match readIn s s.ip with
  | .error f => .stop f
  | .ok t => if t.getLsbD 7 then repBody (256 - t.toNat) s else litBody t.toNat s

/-- The loop of R116; `INLEN` passes are enough (R122). -/
def decompressLoop : Nat → State → Flow
  | 0, s => .go s
  | fuel + 1, s =>
    if s.ip < s.inlen then (decompressPass s).andThen (decompressLoop fuel) else .go s

/-- The body of `DECOMPRESS` (R116). -/
def decompressBody (s : State) : Flow := decompressLoop s.inlen s

/-- The meaning of `DECOMPRESS`. -/
def execDecompress (s : State) : Host.Outcome State Fault Refusal := operation rowFits decompressBody s

end Sys2Proof.Machine
end

