-- ==== Sys2Proof/Machine/Mode.lean ====
section
/-!
DEFINITION. `SETMODE` (R150, R151) and the mode-dependent row operations `ROWENC` (R153) and `ROWDEC` (R154).
-/
namespace Sys2Proof.Machine

/-- The body of `SETMODE` (R150): a legal value selects the mode, any other raises ModeInvalid and leaves
`CMODE` as it was (R151). -/
def setmodeBody (s : State) : Flow :=
  if s.marg = Config.modeRaw then .go { s with cmode := .raw }
  else if s.marg = Config.modeRle then .go { s with cmode := .runLength }
  else raiseFlow .modeInvalid s.marg.toNat s

/-- The meaning of `SETMODE`. -/
def execSetmode (s : State) : Host.Outcome State Fault Refusal :=
  startChecked (fun _ => true) (fun u => finishMode (setmodeBody (prologueMode u))) s

/-- Raw mode: the row is carried unchanged (R155). -/
def rawBody (s : State) : Flow :=
  match memRead s 0 s.inlen with
  | .error f => .stop f
  | .ok row => .go (setIp s.inlen (emit row s))

/-- A mode-dependent row operation (R153, R154): ModeUnset before any byte is read (R156), the identity in Raw
mode, the codec's body in RunLength mode. -/
def rowBody (codec : State → Flow) (s : State) : Flow :=
  match s.cmode with
  | .unset => raiseFlow .modeUnset 0 s
  | .raw => rawBody s
  | .runLength => codec s

/-- The meaning of `ROWENC`. -/
def execRowenc (s : State) : Host.Outcome State Fault Refusal := operation rowFits (rowBody compressBody) s

/-- The meaning of `ROWDEC`. -/
def execRowdec (s : State) : Host.Outcome State Fault Refusal := operation rowFits (rowBody decompressBody) s

end Sys2Proof.Machine
end

