-- ==== Sys2Proof/Machine/Raster.lean ====
section
/-!
DEFINITION. `RASTERIZE` (R137).
-/
namespace Sys2Proof.Machine

/-- The bit of position `p` (R131 to R134): the pixel is sampled only inside the image, and is 0 outside. -/
def rasterBit (s : State) (p : Nat) : Except Fault Bool :=
  let y : Int := (p : Int) - s.yoff
  if s.x < s.w ∧ 0 ≤ y ∧ y < (s.h : Int) then
    match pixRead s s.x y.toNat with
    | .error f => .error f
    | .ok px => .ok (blackBit s s.x y.toNat px)
  else .ok false

/-- The bits of `n` positions from `p` on. -/
def rasterBits (s : State) (p : Nat) : Nat → Except Fault (List Bool)
  | 0 => .ok []
  | n + 1 =>
    match rasterBit s p with
    | .error f => .error f
    | .ok b =>
      match rasterBits s (p + 1) n with
      | .error f => .error f
      | .ok bs => .ok (b :: bs)

/-- Output byte `i` (R136): eight positions, most significant bit first. -/
def rasterByte (s : State) (i : Nat) : Except Fault Byte :=
  match rasterBits s (i * 8) 8 with
  | .error f => .error f
  | .ok bs => .ok (packFrom 0 0x00#8 bs)

/-- The outer loop of R137 from stripe index `i` on, `n` bytes left. -/
def rasterLoop : Nat → Nat → State → Flow
  | 0, _, s => .go s
  | n + 1, i, s =>
    match rasterByte s i with
    | .error f => .stop f
    | .ok v => rasterLoop n (i + 1) (emit [v] s)

/-- The body of `RASTERIZE` (R137). -/
def rasterizeBody (s : State) : Flow := rasterLoop s.sc 0 s

/-- The meaning of `RASTERIZE`. -/
def execRasterize (s : State) : Host.Outcome State Fault Refusal := operation rasterFits rasterizeBody s

end Sys2Proof.Machine
end

