-- ==== Sys2Proof/Machine/Dispatch.lean ====
section
/-!
DEFINITION. One arm per constructor of Instr, each one direct call of its meaning.
-/
namespace Sys2Proof.Machine

def exec (i : Instr) (s : State) : Host.Outcome State Fault Refusal :=
  match i with
  | .lit n => Sys2Proof.Machine.execLit n s
  | .rep m => Sys2Proof.Machine.execRep m s
  | .compress => Sys2Proof.Machine.execCompress s
  | .decompress => Sys2Proof.Machine.execDecompress s
  | .rasterize => Sys2Proof.Machine.execRasterize s
  | .setmode => Sys2Proof.Machine.execSetmode s
  | .rowenc => Sys2Proof.Machine.execRowenc s
  | .rowdec => Sys2Proof.Machine.execRowdec s

end Sys2Proof.Machine
end

