-- ==== Sys2Proof/Machine/HostSide.lean ====
section
/-!
DEFINITION. Both ways a step comes to an instruction: inside an interpretation the tag is fetched from `IN[IP]`
(R24, R111); an idle block waits for the host's next move (R36), which may be a `start(op)` (R35), a write
(R34), a copy of the result (R65) or a reset (R200). Then what the host may read (R34).
-/
namespace Sys2Proof.Machine

/-! ### Inside an interpretation of a compressed row -/

/-- The next step of a busy block (log 1): the unit at `IP`, or the end of the operation when `IP = INLEN`
(R111, R38). -/
def interpretNext (s : State) : Host.Outcome State Fault Refusal :=
  if s.ip < s.inlen then
    match readIn s s.ip with
    | .error f => .fault f
    | .ok t => exec (decodeTag t) s
  else .next (epilogue s)

/-! ### The host's moves -/

/-- The effect of a write of the host (R34). DESIGN CHOICE, the spec saying none of the four: a value wider than the
register is held as written (log 5); a byte of `IN` at an index at or above `INLEN` or `CAP_IN` is stored (log 23); so
is a pixel of `IMG` at a position outside `W` and `H` or beyond what `CW` bits can index (log 24); and a pixel is
stored in the format it is written in, whatever `FMT` says, and a write of `FMT` leaves every pixel as it is
(log 25). -/
def hostWrite : HostWrite → State → State
  | .inByte i b, s => { s with inBuf := Memory.write s.inBuf i b }
  | .inlen n, s => { s with inlen := n }
  | .pixel x y p, s => { s with img := Image.write s.img (x, y) p }
  | .w n, s => { s with w := n }
  | .h n, s => { s with h := n }
  | .fmt f, s => { s with fmt := f }
  | .x n, s => { s with x := n }
  | .sc n, s => { s with sc := n }
  | .yoff z, s => { s with yoff := z }
  | .marg b, s => { s with marg := b }

/-- The bytes of `OUT` from index `i` on, as the host reads them. -/
def readOut (s : State) (i : Nat) : Nat → Except Fault (List Byte)
  | 0 => .ok []
  | n + 1 =>
    match Memory.read s.outBuf i with
    | none => .error (.unwrittenOut i)
    | some b =>
      match readOut s (i + 1) n with
      | .error f => .error f
      | .ok bs => .ok (b :: bs)

/-- The host copies `OUT[0..OUTLEN−1]` to `IN` and sets `INLEN <- OUTLEN` (R65); there is a result only when
`STATUS.DONE` = 1 (R209, log 17). DESIGN CHOICE: a result longer than `CAP_IN` is copied whole, and
`INLEN` then exceeds `CAP_IN` (log 23); the spec says nothing of it. -/
def copyResult (s : State) : Host.Outcome State Fault Refusal :=
  if s.done then
    match readOut s 0 s.outlen with
    | .error f => .fault f
    | .ok row => .next { s with inBuf := Memory.writeAll s.inBuf 0 row, inlen := s.outlen }
  else .refused .noResult

/-- `start(op)` (R35) for the code the host gives: a reserved code is refused and no state changes (R80, log 9). -/
def startOp (code : BitVec 4) (s : State) : Host.Outcome State Fault Refusal :=
  if s.busy then .refused .startWhileBusy
  else
    match decodeOp code with
    | .error _ => .next s
    | .ok i => exec i s

/-- One move of the host. While the block is busy it has none (R206, R207, U3). -/
def hostMove (m : HostMove) (s : State) : Host.Outcome State Fault Refusal :=
  match m with
  | .start code => startOp code s
  | .write hw => if s.busy then .refused .hostMoveWhileBusy else .next (hostWrite hw s)
  | .copyResult => if s.busy then .refused .hostMoveWhileBusy else copyResult s
  | .reset => if s.busy then .refused .hostMoveWhileBusy else .next (resetBlock s)

/-- The next step of an idle block: the host's next move; with none left it waits, and no state changes
(R36, R183). -/
def hostNext (s : State) : Host.Outcome State Fault Refusal :=
  match s.host with
  | [] => .next s
  | m :: ms => hostMove m { s with host := ms }

/-! ### Where a word is fetched from -/

/-- The operation as the host's next move, the block idle. -/
def placeStart (bytes : List Byte) (s : State) : State :=
  match bytes with
  | [] => s
  | b :: _ => { s with busy := false, host := .start (b.setWidth 4) :: s.host }

/-- The unit's bytes at `IN[IP..]`, inside the row, the block busy with its interpretation. -/
def placeUnit (bytes : List Byte) (s : State) : State :=
  { s with
    busy := true, inBuf := Memory.writeAll s.inBuf s.ip bytes, inlen := s.ip + bytes.length }

/-- The word of the opcode table's numbering where the next step fetches its instruction. -/
def placeWord (nbits w : Nat) (s : State) : State :=
  match tableLayer nbits w with
  | .operation => placeStart (tableBytes nbits w) s
  | .unit => placeUnit (tableBytes nbits w) s

/-! ### What the host may read (R34) -/

/-- Everything the host can ever read; `LB` and `RC` are not among it (R26, R27). -/
inductive HostReadable where
  | inByte (i : Nat)
  | inlen
  | pixel (x y : Nat)
  | w
  | h
  | fmt
  | x
  | sc
  | yoff
  | marg
  | outByte (i : Nat)
  | outlen
  | ip
  | cmodeV
  | cmodeVal
  | busy
  | done
  | fault
  | finfo
  deriving DecidableEq, Repr

/-- What a read gives. -/
inductive HostValue where
  | number (n : Nat)
  | signed (z : Int)
  | byte (b : Byte)
  | pixel (p : Pixel)
  | flag (b : Bool)
  | format (f : BitVec 1)
  | code (c : BitVec 2)
  /-- The host has no such read while the block is busy (R34, R206). -/
  | notWhileBusy
  /-- The spec leaves the content unspecified (R37, R39, U5, U6): any value (log 18). -/
  | unspecified
  deriving DecidableEq, Repr

/-- Which of them the host may read only while the block is idle (R34). -/
def HostReadable.onlyIdle : HostReadable → Bool
  | .outByte _ => true
  | .outlen => true
  | .ip => true
  | .cmodeV => true
  | .cmodeVal => true
  | .inByte _ => false
  | .inlen => false
  | .pixel _ _ => false
  | .w => false
  | .h => false
  | .fmt => false
  | .x => false
  | .sc => false
  | .yoff => false
  | .marg => false
  | .busy => false
  | .done => false
  | .fault => false
  | .finfo => false

/-- A byte where there is one, unspecified otherwise. -/
def byteOrUnspecified : Option Byte → HostValue
  | some b => .byte b
  | none => .unspecified

/-- The value of what is read. That a cell of `IN` at or above `INLEN`, or of `IMG` outside `W` and `H`, reads as what
the host last wrote there, and a pixel in the format it was written in, whatever `FMT` says at the write or at the
read, is the model's choice (log 23, log 24, log 25). -/
def hostValue (r : HostReadable) (s : State) : HostValue :=
  match r with
  | .inByte i => byteOrUnspecified (Memory.read s.inBuf i)
  | .inlen => .number s.inlen
  | .pixel x y =>
    match Image.read s.img (x, y) with
    | some p => .pixel p
    | none => .unspecified
  | .w => .number s.w
  | .h => .number s.h
  | .fmt => .format s.fmt.code
  | .x => .number s.x
  | .sc => .number s.sc
  | .yoff => .signed s.yoff
  | .marg => .byte s.marg
  | .outByte i =>
    if i < s.outlen then byteOrUnspecified (Memory.read s.outBuf i) else .unspecified
  | .outlen => .number s.outlen
  | .ip => .number s.ip
  | .cmodeV => .flag s.cmode.v
  | .cmodeVal => byteOrUnspecified s.cmode.val
  | .busy => .flag s.busy
  | .done => .flag s.done
  | .fault => .code s.fault.code
  | .finfo => .number s.finfo

/-- A read of the host: reads change nothing (R57). -/
def hostRead (r : HostReadable) (s : State) : HostValue :=
  if s.busy && r.onlyIdle then .notWhileBusy else hostValue r s

end Sys2Proof.Machine
end

