-- ==== Sys2Proof/Machine/Step.lean ====
section
/-!
DEFINITION. The step: a busy block interprets the next unit of its compressed row, an idle one takes the
host's next move (log 1, log 2).
-/
namespace Sys2Proof.Machine

/-- One step: a next state, a fault or a refusal. -/
def step (s : State) : Host.Outcome State Fault Refusal :=
  if s.busy then interpretNext s else hostNext s

/-- The state whose very next step fetches and runs the word of the opcode table's numbering. -/
def State.withFetchWord (s : State) (nbits w : Nat) : State := placeWord nbits w s

end Sys2Proof.Machine
end

