-- ==== Sys2Proof/Safety.lean ====
section
/-!
DEFINITION. The terms claims use: when a start is accepted, how an operation ends well, what belongs to the
host, and the invariant every step keeps.
-/
namespace Sys2Proof.Machine

/-- A start is neither outside the spec nor refused for a recorded fault (R35). -/
structure Ready (s : State) : Prop where
  idle : s.busy = false
  noFault : s.fault = .none

/-- An operation has ended without a fault (R38, R213): the one case in which `OUT` is a result (R209). -/
structure EndedWell (t : State) : Prop where
  idle : t.busy = false
  done : t.done = true
  noFault : t.fault = .none
  lbEmpty : t.lb = []

/-- An operation has ended with the fault `f` and its detail (R176). -/
structure EndedWithFault (f : FaultCode) (info : Nat) (t : State) : Prop where
  idle : t.busy = false
  notDone : t.done = false
  fault : t.fault = f
  finfo : t.finfo = info

/-- The operand registers and the buffers `IN` and `IMG`, which no operation of the block writes (R22, R33, R34),
with the model's own fields `par` and `host`. -/
structure SameHostSide (s t : State) : Prop where
  inBuf : t.inBuf = s.inBuf
  inlen : t.inlen = s.inlen
  img : t.img = s.img
  w : t.w = s.w
  h : t.h = s.h
  fmt : t.fmt = s.fmt
  x : t.x = s.x
  sc : t.sc = s.sc
  yoff : t.yoff = s.yoff
  marg : t.marg = s.marg
  par : t.par = s.par
  host : t.host = s.host

/-- The registers only the block writes (R22, R34), all but `OUT`. -/
structure SameBlockSide (s t : State) : Prop where
  outlen : t.outlen = s.outlen
  ip : t.ip = s.ip
  rc : t.rc = s.rc
  lb : t.lb = s.lb
  cmode : t.cmode = s.cmode
  busy : t.busy = s.busy
  done : t.done = s.done
  fault : t.fault = s.fault
  finfo : t.finfo = s.finfo

/-- The operands of `RASTERIZE` fit `CW` bits (R23) and its result fits `CAP_OUT` (R61). -/
structure RasterOperandsFit (s : State) : Prop where
  w : s.w < 2 ^ s.par.cw
  h : s.h < 2 ^ s.par.cw
  x : s.x < 2 ^ s.par.cw
  sc : s.sc < 2 ^ s.par.cw
  yoffLow : -(2 ^ s.par.cw : Int) ≤ 2 * s.yoff
  yoffHigh : 2 * s.yoff < (2 ^ s.par.cw : Int)
  held : s.sc ≤ s.par.capOut

/-- Position `p` of the stripe falls on an image row (R132, R133). -/
def Sampled (s : State) (p : Nat) : Prop :=
  s.x < s.w ∧ 0 ≤ (p : Int) - s.yoff ∧ (p : Int) - s.yoff < (s.h : Int)

/-- The pixel position `p` samples (R132). -/
def pixelAt (s : State) (p : Nat) : Option Pixel := Image.read s.img (s.x, ((p : Int) - s.yoff).toNat)

/-- The detail that goes with a recorded fault (R171); the tag's index stays in `IP` (R25, R119). -/
def FaultCode.detailFits (f : FaultCode) (finfo ip : Nat) : Prop :=
  match f with
  | .none => finfo = 0
  | .malformedInput => finfo = ip
  | .modeUnset => finfo = 0
  | .modeInvalid => finfo < 256 ∧ finfo ≠ 0 ∧ finfo ≠ 2

/-- The invariant of the machine between steps. -/
structure Inv (s : State) : Prop where
  /-- Equal contents are equal data: the three buffers keep their canonical form. -/
  inWf : Memory.wf s.inBuf = true
  outWf : Memory.wf s.outBuf = true
  imgWf : Image.wf s.img = true
  /-- R26. -/
  rcBound : s.rc ≤ Config.runExtraMax
  /-- R27: empty at the start and at the end of every operation. -/
  lbEmpty : s.lb = []
  /-- R61. -/
  outHeld : s.outlen ≤ s.par.capOut
  /-- R37: every byte below `OUTLEN` has been written. -/
  outWritten : (outRow s).isSome = true
  /-- R31, R24: while an operation runs. -/
  running : s.busy = true → s.done = false ∧ s.fault = .none ∧ s.ip ≤ s.inlen
  /-- R31, R213: `DONE` never stands beside a recorded fault. -/
  doneNoFault : s.done = true → s.fault = .none
  /-- R171. -/
  detail : s.fault.detailFits s.finfo s.ip

end Sys2Proof.Machine
end

