-- ==== Sys2Proof/Certificates/Slice0/Obligations.lean ====
section
/-!
DEFINITION. The statements for the provers. Each docstring names the rules of the spec it formalises, or the
log entry (notes/assumptions/) of a choice that is the model's own.
-/
open Sys2Proof Sys2Proof.Machine

/-! ### Encodings -/

/-- Every well-formed instruction is what its encoded word decodes to, whatever bytes follow (R71, R72, R77). -/
def Obligations.EncodedInstructionDecodesBack : Prop :=
  ∀ (i : Instr) (rest : List Byte), i.wf = true → decode (layerOf i) (encode i ++ rest) = .ok i

/-- R75: every one of the 256 tags is legal; with `s8` ≥ 0 it is `LIT` of `s8`, with `s8` < 0 it is `REP` of
`−s8` (R71, R72), and no bit of it is dropped. -/
def Obligations.EveryTagIsAUnit : Prop :=
  ∀ t : Byte, (decodeTag t).wf = true ∧ encode (decodeTag t) = [t] ∧
    (0 ≤ s8 t → decodeTag t = .lit (s8 t).toNat) ∧ (s8 t < 0 → decodeTag t = .rep (-(s8 t)).toNat)

/-- R77 and R80: the six operation codes, and the reserved ones rejected by name. -/
def Obligations.OperationCodesDecode : Prop :=
  decodeOp 0x1#4 = .ok .compress ∧ decodeOp 0x2#4 = .ok .decompress ∧
    decodeOp 0x3#4 = .ok .rasterize ∧ decodeOp 0x4#4 = .ok .setmode ∧
    decodeOp 0x5#4 = .ok .rowenc ∧ decodeOp 0x6#4 = .ok .rowdec ∧
    ∀ c : BitVec 4, c.toNat = 0 ∨ 7 ≤ c.toNat → decodeOp c = .error (.reservedCode c)

/-- Words written out from the encodings of R71, R72, R73, R77 and the units of program P1. -/
def Obligations.SampleWordsDecode : Prop :=
  decode .unit [0x00#8] = .ok (.lit 0) ∧ decode .unit [0x05#8] = .ok (.lit 5) ∧
    decode .unit [0x7F#8] = .ok (.lit 127) ∧ decode .unit [0xFF#8] = .ok (.rep 1) ∧
    decode .unit [0xED#8] = .ok (.rep 19) ∧ decode .unit [0x80#8] = .ok (.rep 128) ∧
    decode .operation [0x02#8] = .ok .decompress ∧
    decodeUnit [0x02#8, 0xA1#8, 0xA2#8, 0xA3#8] = some (.lit [0xA1#8, 0xA2#8, 0xA3#8], []) ∧
    decodeUnit [0xFE#8, 0xA1#8] = some (.rep 3 0xA1#8, [])

/-- Rows of well-formed units and their bytes determine each other (R70 to R74). -/
def Obligations.RowsDecodeAndEncodeAgree : Prop :=
  (∀ us : List RowUnit, (∀ u ∈ us, u.wf = true) → decodeRow (encodeRow us) = some us) ∧
    ∀ (bs : List Byte) (us : List RowUnit), decodeRow bs = some us →
      encodeRow us = bs ∧ ∀ u ∈ us, u.wf = true

/-- R76: the only ill-formed row is one whose last unit is cut short; every byte string is one or the other. -/
def Obligations.OnlyTruncatedRowsAreIllFormed : Prop :=
  ∀ bs : List Byte,
    ((∃ us : List RowUnit, (∀ u ∈ us, u.wf = true) ∧ bs = encodeRow us) ∨
      ∃ (us : List RowUnit) (tail : List Byte),
        (∀ u ∈ us, u.wf = true) ∧ truncatedUnit tail = true ∧ bs = encodeRow us ++ tail) ∧
    ¬ ((∃ us : List RowUnit, (∀ u ∈ us, u.wf = true) ∧ bs = encodeRow us) ∧
      ∃ (us : List RowUnit) (tail : List Byte),
        (∀ u ∈ us, u.wf = true) ∧ truncatedUnit tail = true ∧ bs = encodeRow us ++ tail)

/-- R83: of the many rows that expand to a given row, exactly one is canonical: there is one, and no other. -/
def Obligations.CanonicalUnitsAreUnique : Prop :=
  ∀ row : List Byte, ∃! us : List RowUnit, canonical us = true ∧ expand us = row

/-! ### The step -/

/-- Inside an interpretation the step runs the unit whose tag lies at `IP` (R24, R111). -/
def Obligations.StepRunsTheUnitAtTheCursor : Prop :=
  ∀ (s : State) (t : Byte) (i : Instr), s.busy = true → s.ip < s.inlen →
    Memory.read s.inBuf s.ip = some t → decode .unit [t] = .ok i → step s = exec i s

/-- R35: a start runs the operation its code names, with the host's move taken. -/
def Obligations.StepRunsTheStartedOperation : Prop :=
  ∀ (s : State) (c : BitVec 4) (ms : List HostMove) (i : Instr), s.busy = false →
    s.host = .start c :: ms → decode .operation [c.setWidth 8] = .ok i →
    step s = exec i { s with host := ms }

/-- When `IP` has reached `INLEN` the interpretation ends with the epilogue (R111, R38). -/
def Obligations.InterpretationEndsAtRowEnd : Prop :=
  ∀ s : State, s.busy = true → s.inlen ≤ s.ip →
    step s = .next { s with busy := false, done := true }

/-- An idle block with nothing to do waits and no state changes (R36). That the host's moves stand in a list is
the model's choice (log 2). -/
def Obligations.IdleBlockWaits : Prop :=
  ∀ s : State, s.busy = false → s.host = [] → step s = .next s

/-- R80: a start with a reserved code changes nothing. That such a start is a next state, in which the host's move
has been taken, is the model's choice (log 9, log 2). -/
def Obligations.ReservedCodeChangesNothing : Prop :=
  ∀ (s : State) (c : BitVec 4) (ms : List HostMove), s.busy = false → s.host = .start c :: ms →
    c.toNat = 0 ∨ 7 ≤ c.toNat → step s = .next { s with host := ms }

/-- A word of the opcode table's numbering, placed where the step fetches, is what the step runs; which layer a
byte belongs to (log 14), and that a start is placed in front of the list of moves (log 2), are the model's
choices. -/
def Obligations.PlacedWordIsTheOneThatRuns : Prop :=
  ∀ (s : State) (w : Nat), w < 256 → ∃ i : Instr, decodeTableWord 8 w = some i ∧
    (layerOf i = .unit → step (s.withFetchWord 8 w) = exec i (s.withFetchWord 8 w)) ∧
    (layerOf i = .operation → step (s.withFetchWord 8 w) = exec i { s with busy := false })

/-- A write of the host changes the one thing it names and nothing else (R34). That the moves stand in a list (log 2),
that a value wider than a register is held as written (log 5), that a byte of `IN` at or above `INLEN` or `CAP_IN` is
stored (log 23), that a pixel outside `W` and `H`, or beyond what `CW` bits can index, is stored (log 24), and that a
pixel is stored in the format it is written in, and kept when `FMT` is written (log 25), are the model's choices. -/
def Obligations.HostWriteChangesOneThing : Prop :=
  ∀ (s : State) (hw : HostWrite) (ms : List HostMove), s.busy = false → s.host = .write hw :: ms →
    ∃ t : State, step s = .next t ∧
      match hw with
      | .inByte i b => t = { s with host := ms, inBuf := t.inBuf } ∧
          ∀ j, Memory.read t.inBuf j = if j = i then some b else Memory.read s.inBuf j
      | .pixel x y p => t = { s with host := ms, img := t.img } ∧
          ∀ q, Image.read t.img q = if q = (x, y) then some p else Image.read s.img q
      | .inlen n => t = { s with host := ms, inlen := n }
      | .w n => t = { s with host := ms, w := n }
      | .h n => t = { s with host := ms, h := n }
      | .fmt f => t = { s with host := ms, fmt := f }
      | .x n => t = { s with host := ms, x := n }
      | .sc n => t = { s with host := ms, sc := n }
      | .yoff z => t = { s with host := ms, yoff := z }
      | .marg b => t = { s with host := ms, marg := b }

/-- The host copies a result to `IN` (R65). That a result longer than `CAP_IN` is copied whole, and that the
bytes of `IN` above the new `INLEN` are as before, is the model's choice (log 23), as is the list of moves (log 2). -/
def Obligations.CopiedResultIsTheNextRow : Prop :=
  ∀ (s : State) (row : List Byte) (ms : List HostMove), s.busy = false → s.host = .copyResult :: ms →
    s.done = true → outRow s = some row →
    ∃ t : State, step s = .next t ∧ inRow t = some row ∧ t.inlen = s.outlen ∧
      (∀ a, row.length ≤ a → Memory.read t.inBuf a = Memory.read s.inBuf a) ∧
      t = { s with host := ms, inBuf := t.inBuf, inlen := t.inlen }

/-! ### Starts that are refused, and the end of an operation -/

/-- R180: a recorded fault is sticky: every start is refused with no change of state, no move of the host but
reset changes `FAULT` or `FINFO`, and reset clears it. That the refused start is a next state is the model's
choice between the readings of R180 and R185 (log 9), and the list of moves is the model's too (log 2). -/
def Obligations.FaultIsSticky : Prop :=
  (∀ (i : Instr) (s : State), layerOf i = .operation → s.busy = false → s.fault ≠ .none →
    exec i s = .next s) ∧
  (∀ s t : State, s.busy = false → s.fault ≠ .none → s.host.head? ≠ some .reset →
    step s = .next t → t.fault = s.fault ∧ t.finfo = s.finfo) ∧
  ∀ (s : State) (ms : List HostMove), s.busy = false → s.host = .reset :: ms →
    ∃ t : State, step s = .next t ∧ t.fault = .none

/-- R61, U1: a start whose `INLEN` exceeds `CAP_IN`, or of `RASTERIZE` with an operand that does not fit `CW` bits or
with `SC` above `CAP_OUT`, has no meaning: the model refuses it. -/
def Obligations.UnfitStartIsRefused : Prop :=
  ∀ s : State, Ready s →
    (s.par.capIn < s.inlen →
      ∀ i ∈ [Instr.compress, Instr.decompress, Instr.rowenc, Instr.rowdec],
        exec i s = .refused .overCapacity) ∧
    (2 ^ s.par.cw ≤ s.w ∨ 2 ^ s.par.cw ≤ s.h ∨ 2 ^ s.par.cw ≤ s.x ∨ 2 ^ s.par.cw ≤ s.sc ∨
      2 * s.yoff < -(2 ^ s.par.cw : Int) ∨ (2 ^ s.par.cw : Int) ≤ 2 * s.yoff ∨
      s.par.capOut < s.sc → exec .rasterize s = .refused .overCapacity)

/-- R61, U1: an operation whose result would be longer than `CAP_OUT` has no meaning: the model refuses it. So a row
too long in Raw mode, a row whose yields are too long whether or not a truncated unit follows them (for the
truncated one log 10 is the model's choice), and a row whose canonical units are too long. -/
def Obligations.ResultBeyondCapacityIsRefused : Prop :=
  (∀ (i : Instr) (s : State) (row : List Byte), i = .rowenc ∨ i = .rowdec → Ready s →
    s.inlen ≤ s.par.capIn → s.cmode = .raw → inRow s = some row → s.par.capOut < row.length →
    exec i s = .refused .overCapacity) ∧
  (∀ (i : Instr) (s : State) (us : List RowUnit) (tail : List Byte),
    i = .decompress ∨ (i = .rowdec ∧ s.cmode = .runLength) → Ready s → s.inlen ≤ s.par.capIn →
    (∀ u ∈ us, u.wf = true) → tail = [] ∨ truncatedUnit tail = true →
    inRow s = some (encodeRow us ++ tail) → s.par.capOut < (expand us).length →
    exec i s = .refused .overCapacity) ∧
  ∀ (i : Instr) (s : State) (us : List RowUnit),
    i = .compress ∨ (i = .rowenc ∧ s.cmode = .runLength) → Ready s → s.inlen ≤ s.par.capIn →
    canonical us = true → inRow s = some (expand us) → s.par.capOut < (encodeRow us).length →
    exec i s = .refused .overCapacity

/-- A start, or any other move of the host, while an operation runs is no move of the model (R206, R207, U3;
log 12). -/
def Obligations.NoOperationStartsWhileBusy : Prop :=
  ∀ (i : Instr) (s : State), layerOf i = .operation → s.busy = true →
    exec i s = .refused .startWhileBusy ∧
      ∀ m : HostMove, ∃ r : Refusal, hostMove m s = .refused r

/-- R213: an operation that has a meaning ends in one of two ways, done or with a fault recorded. The model stops
instead for two reasons only: the start or its result exceeds a capacity (R61, U1; a result is too long when a
block with another `CAP_OUT` ends with it), or a cell that nothing has written is read (U6, log 7). -/
def Obligations.OperationEndsDoneOrFaulted : Prop :=
  ∀ (i : Instr) (s : State), layerOf i = .operation → Ready s →
    (∃ t : State, exec i s = .next t ∧
      (EndedWell t ∨ ∃ (f : FaultCode) (info : Nat), f ≠ .none ∧ EndedWithFault f info t)) ∨
    (exec i s = .refused .overCapacity ∧
      ((i ≠ .setmode ∧ i ≠ .rasterize ∧ s.par.capIn < s.inlen) ∨
        (i = .rasterize ∧ ¬ RasterOperandsFit s) ∨
        ∃ (c : Nat) (t : State), exec i { s with par := { s.par with capOut := c } } = .next t ∧
          s.par.capOut < t.outlen)) ∨
    (∃ j, j < s.inlen ∧ Memory.read s.inBuf j = none ∧ exec i s = .fault (.unwrittenIn j)) ∨
    ∃ x y, x < s.w ∧ y < s.h ∧ Image.read s.img (x, y) = none ∧ exec i s = .fault (.unwrittenPixel x y)

/-! ### LIT and REP -/

/-- R112: `LIT` copies its `N + 1` payload bytes to `OUT` in order and moves `IP` past the unit; nothing else
changes. That the bytes of `OUT` at or above the new `OUTLEN` are as before is the model's own (log 22: R37
leaves them unspecified). -/
def Obligations.LitCopiesItsPayload : Prop :=
  ∀ (n : Nat) (s : State) (ds : List Byte), s.ip + n + 2 ≤ s.inlen →
    Memory.readN s.inBuf (s.ip + 1) (n + 1) = some ds → s.outlen + (n + 1) ≤ s.par.capOut →
    ∃ t : State, exec (.lit n) s = .next t ∧ t.outlen = s.outlen + (n + 1) ∧ t.ip = s.ip + n + 2 ∧
      Memory.readN t.outBuf s.outlen (n + 1) = some ds ∧
      (∀ a, a < s.outlen ∨ s.outlen + (n + 1) ≤ a → Memory.read t.outBuf a = Memory.read s.outBuf a) ∧
      SameHostSide s t ∧ SameBlockSide { s with outlen := t.outlen, ip := t.ip } t

/-- R114: a literal tag whose payload would run past `INLEN` raises MalformedInput(`IP`), and nothing of the unit
is written (R176 says all that `raise` changes); no other literal unit raises. -/
def Obligations.TruncatedLitRaises : Prop :=
  (∀ (n : Nat) (s : State), s.inlen < s.ip + n + 2 →
    exec (.lit n) s =
      .next { s with fault := .malformedInput, finfo := s.ip, busy := false, done := false }) ∧
  ∀ (n : Nat) (s t : State), s.ip + n + 2 ≤ s.inlen → exec (.lit n) s = .next t → t.fault = s.fault

/-- R113: `REP` writes `M + 1` copies of its value byte and moves `IP` past the unit; nothing else changes. That the
bytes of `OUT` at or above the new `OUTLEN` are as before is the model's own (log 22: R37 leaves them
unspecified). -/
def Obligations.RepCopiesItsByte : Prop :=
  ∀ (m : Nat) (s : State) (b : Byte), s.ip + 2 ≤ s.inlen → Memory.read s.inBuf (s.ip + 1) = some b →
    s.outlen + (m + 1) ≤ s.par.capOut →
    ∃ t : State, exec (.rep m) s = .next t ∧ t.outlen = s.outlen + (m + 1) ∧ t.ip = s.ip + 2 ∧
      Memory.readN t.outBuf s.outlen (m + 1) = some (List.replicate (m + 1) b) ∧
      (∀ a, a < s.outlen ∨ s.outlen + (m + 1) ≤ a → Memory.read t.outBuf a = Memory.read s.outBuf a) ∧
      SameHostSide s t ∧ SameBlockSide { s with outlen := t.outlen, ip := t.ip } t

/-- R115: a repeat tag whose value byte is missing raises MalformedInput(`IP`) (R176 says all that changes); no
other repeat unit raises. -/
def Obligations.TruncatedRepRaises : Prop :=
  (∀ (m : Nat) (s : State), s.inlen < s.ip + 2 →
    exec (.rep m) s =
      .next { s with fault := .malformedInput, finfo := s.ip, busy := false, done := false }) ∧
  ∀ (m : Nat) (s t : State), s.ip + 2 ≤ s.inlen → exec (.rep m) s = .next t → t.fault = s.fault

/-- Where a unit stops the model: a payload byte nothing has written (U6, log 7), or a result longer than
`CAP_OUT` (R61, log 11). Both are the model's own stops. -/
def Obligations.WhereUnitsStop : Prop :=
  (∀ (m : Nat) (s : State), s.ip + 2 ≤ s.inlen → Memory.read s.inBuf (s.ip + 1) = none →
    exec (.rep m) s = .fault (.unwrittenIn (s.ip + 1))) ∧
  (∀ (n : Nat) (s : State), s.ip + n + 2 ≤ s.inlen →
    Memory.readN s.inBuf (s.ip + 1) (n + 1) = none →
    ∃ j, s.ip < j ∧ j ≤ s.ip + n + 1 ∧ Memory.read s.inBuf j = none ∧
      exec (.lit n) s = .fault (.unwrittenIn j)) ∧
  (∀ (m : Nat) (s : State) (b : Byte), s.ip + 2 ≤ s.inlen →
    Memory.read s.inBuf (s.ip + 1) = some b → s.par.capOut < s.outlen + (m + 1) →
    exec (.rep m) s = .refused .overCapacity) ∧
  ∀ (n : Nat) (s : State) (ds : List Byte), s.ip + n + 2 ≤ s.inlen →
    Memory.readN s.inBuf (s.ip + 1) (n + 1) = some ds → s.par.capOut < s.outlen + (n + 1) →
    exec (.lit n) s = .refused .overCapacity

/-! ### COMPRESS -/

/-- `COMPRESS` of a row completes and leaves in `OUT` the canonical units of that row, `IP` at `INLEN` (R83, R97,
R98, R99); where they are longer than `CAP_OUT` the start has no meaning and is refused (R61, U1). -/
def Obligations.CompressEmitsTheCanonicalUnits : Prop :=
  ∀ (s : State) (row : List Byte), Ready s → s.inlen ≤ s.par.capIn → inRow s = some row →
    ∃ us : List RowUnit, canonical us = true ∧ expand us = row ∧
      if (encodeRow us).length ≤ s.par.capOut then
        ∃ t : State, exec .compress s = .next t ∧ EndedWell t ∧ outRow t = some (encodeRow us) ∧
          t.ip = s.inlen ∧ t.finfo = s.finfo
      else exec .compress s = .refused .overCapacity

/-- R86 (a): `COMPRESS` of `n` bytes completes with at most `2·n` bytes. -/
def Obligations.CompressAtMostDoubles : Prop :=
  ∀ (s : State) (row : List Byte), Ready s → s.inlen ≤ s.par.capIn → inRow s = some row →
    2 * s.inlen ≤ s.par.capOut →
    ∃ t : State, exec .compress s = .next t ∧ EndedWell t ∧ t.ip = s.inlen ∧ t.outlen ≤ 2 * s.inlen

/-- R96: a stretch of `k ≥ 2` equal bytes is written as `k div 129` units `80 b` and then the remainder. -/
def Obligations.CompressCutsRunsAt129 : Prop :=
  ∀ (s : State) (k : Nat) (b : Byte), Ready s → s.inlen ≤ s.par.capIn → 2 ≤ k →
    inRow s = some (List.replicate k b) → 2 * k ≤ s.par.capOut →
    ∃ t : State, exec .compress s = .next t ∧ EndedWell t ∧
      outRow t = some ((List.replicate (k / 129) [0x80#8, b]).flatten ++
        if k % 129 = 0 then []
        else if k % 129 = 1 then [0x00#8, b]
        else [u8 (-((k % 129 : Nat) - 1 : Int)), b])

/-- R95: a row of `k` bytes with no two equal neighbours is written as literal units, all of 128 bytes but the
last. -/
def Obligations.CompressSplitsLiteralsAt128 : Prop :=
  ∀ (s : State) (row : List Byte), Ready s → s.inlen ≤ s.par.capIn → inRow s = some row →
    distinctNeighbours row = true → 2 * row.length ≤ s.par.capOut →
    ∃ (t : State) (chunks : List (List Byte)), exec .compress s = .next t ∧ EndedWell t ∧
      chunks.flatten = row ∧ chunks.length = (row.length + 127) / 128 ∧
      (∀ c ∈ chunks.dropLast, c.length = 128) ∧ (∀ c ∈ chunks, 1 ≤ c.length ∧ c.length ≤ 128) ∧
      outRow t = some (encodeRow (chunks.map RowUnit.lit))

/-- R100: `decompress(compress(B)) == B` for every row `B`; and a well-formed row that expands to `B` is what
`COMPRESS` gives back exactly when it is canonical (R83). The length bound is R86's; a start whose result is longer
than `CAP_OUT` is refused (R61, U1). -/
def Obligations.DecompressUndoesCompress : Prop :=
  ∀ (s : State) (row : List Byte), Ready s → s.inlen ≤ s.par.capIn → inRow s = some row →
    ∃ packed : List Byte, packed.length ≤ 2 * row.length ∧
      (if packed.length ≤ s.par.capOut then
        ∃ t : State, exec .compress s = .next t ∧ EndedWell t ∧ outRow t = some packed
      else exec .compress s = .refused .overCapacity) ∧
      (∀ u : State, Ready u → u.inlen ≤ u.par.capIn → inRow u = some packed →
        row.length ≤ u.par.capOut →
        ∃ v : State, exec .decompress u = .next v ∧ EndedWell v ∧ outRow v = some row) ∧
      ∀ us : List RowUnit, (∀ u ∈ us, u.wf = true) → expand us = row →
        (encodeRow us = packed ↔ canonical us = true)

/-! ### DECOMPRESS -/

/-- `DECOMPRESS` of a well-formed row completes and leaves the units' yields end to end in `OUT`, `IP` at `INLEN`
(R116, R117, R118); where they are longer than `CAP_OUT` the start has no meaning and is refused (R61, U1). -/
def Obligations.DecompressYieldsTheUnits : Prop :=
  ∀ (s : State) (us : List RowUnit), Ready s → s.inlen ≤ s.par.capIn → (∀ u ∈ us, u.wf = true) →
    inRow s = some (encodeRow us) →
    if (expand us).length ≤ s.par.capOut then
      ∃ t : State, exec .decompress s = .next t ∧ EndedWell t ∧ outRow t = some (expand us) ∧
        t.ip = s.inlen ∧ t.finfo = s.finfo
    else exec .decompress s = .refused .overCapacity

/-- R119: at a truncated unit MalformedInput is raised with the tag's index; `OUT` holds the yields of the units
before it and nothing of the unit itself. These values are no result (R177). That the bytes of `OUT` at or above
`OUTLEN` are as before is the model's own (log 22: R37 leaves them unspecified). -/
def Obligations.DecompressStopsAtTheTruncatedUnit : Prop :=
  ∀ (s : State) (us : List RowUnit) (tail : List Byte), Ready s → s.inlen ≤ s.par.capIn →
    (∀ u ∈ us, u.wf = true) → truncatedUnit tail = true → inRow s = some (encodeRow us ++ tail) →
    (expand us).length ≤ s.par.capOut →
    ∃ t : State, exec .decompress s = .next t ∧
      EndedWithFault .malformedInput (encodeRow us).length t ∧ outRow t = some (expand us) ∧
      t.ip = (encodeRow us).length ∧
      ∀ a, t.outlen ≤ a → Memory.read t.outBuf a = Memory.read s.outBuf a

/-- R86 (c): `DECOMPRESS` of `n` bytes gives at most `129 · (n div 2)` bytes, and always ends. -/
def Obligations.DecompressSizeBound : Prop :=
  ∀ (s : State) (row : List Byte), Ready s → s.inlen ≤ s.par.capIn → inRow s = some row →
    129 * (s.inlen / 2) ≤ s.par.capOut →
    ∃ t : State, exec .decompress s = .next t ∧ t.outlen ≤ 129 * (s.inlen / 2) ∧
      (EndedWell t ∨ ∃ j, EndedWithFault .malformedInput j t)

/-- R121: rows that differ expand to the same row, `DECOMPRESS` accepts them all, and `COMPRESS` of their
expansion is only one of them. -/
def Obligations.DecompressIsNotInjective : Prop :=
  (∀ (s : State) (row : List Byte), Ready s → s.inlen ≤ s.par.capIn → 2 ≤ s.par.capOut →
    row ∈ [[0x00#8, 0x41#8, 0x00#8, 0x41#8], [0x01#8, 0x41#8, 0x41#8], [0xFF#8, 0x41#8]] →
    inRow s = some row →
    ∃ t : State, exec .decompress s = .next t ∧ EndedWell t ∧ outRow t = some [0x41#8, 0x41#8]) ∧
  ∀ s : State, Ready s → s.inlen ≤ s.par.capIn → 2 ≤ s.par.capOut →
    inRow s = some [0x41#8, 0x41#8] →
    ∃ t : State, exec .compress s = .next t ∧ EndedWell t ∧ outRow t = some [0xFF#8, 0x41#8]

/-- The atomic `DECOMPRESS` is the run of its units one by one, from the prologue to the end of the operation, and
that run ends within `INLEN div 2 + 1` steps (R111, R116, R122). That an operation is one step of the
model and its inside is stepped unit by unit is log 1. -/
def Obligations.DecompressIsTheRunOfItsUnits : Prop :=
  (∀ (s t : State) (k : Nat), Ready s → s.host = [] → s.inlen ≤ s.par.capIn →
    Host.Core.run Sys2Proof.core k (prologue s) = .next t → t.busy = false →
    exec .decompress s = .next t) ∧
  ∀ s : State, Ready s → s.host = [] → (inRow s).isSome = true →
    129 * (s.inlen / 2) ≤ s.par.capOut →
    ∃ (k : Nat) (t : State), k ≤ s.inlen / 2 + 1 ∧
      Host.Core.run Sys2Proof.core k (prologue s) = .next t ∧ t.busy = false

/-! ### RASTERIZE -/

/-- `RASTERIZE` completes with exactly `SC` bytes; bit position `p` is 0 outside the image, and inside it 1
exactly when the grey value is at most 230 or the channel sum at most 690, most significant bit first
(R130 to R137). Of a pixel stored in the other format nothing is said (free value, log 13). -/
def Obligations.RasterizeSamplesEveryPosition : Prop :=
  ∀ s : State, Ready s → RasterOperandsFit s →
    (∀ p, p < 8 * s.sc → Sampled s p → (pixelAt s p).isSome = true) →
    ∃ (t : State) (row : List Byte), exec .rasterize s = .next t ∧ EndedWell t ∧
      t.outlen = s.sc ∧ t.ip = 0 ∧ outRow t = some row ∧
      ∀ p, p < 8 * s.sc →
        (¬ Sampled s p → rowBit row p = some false) ∧
        (∀ g : Byte, Sampled s p → s.fmt = .gray → pixelAt s p = some (.gray g) →
          rowBit row p = some (decide (g.toNat ≤ 230))) ∧
        (∀ r g b : Byte, Sampled s p → s.fmt = .rgb → pixelAt s p = some (.rgb r g b) →
          rowBit row p = some (decide (r.toNat + g.toNat + b.toNat ≤ 690)))

/-- Corner cases of R139: a column right of the image, an empty image, an offset that pushes it out of the
stripe, give `SC` white bytes, whatever `IMG` holds. -/
def Obligations.RasterizeOutsideTheImageIsWhite : Prop :=
  ∀ s : State, Ready s → RasterOperandsFit s →
    s.w ≤ s.x ∨ s.h = 0 ∨ (8 * s.sc : Int) ≤ s.yoff ∨ s.yoff ≤ -(s.h : Int) →
    ∃ t : State, exec .rasterize s = .next t ∧ EndedWell t ∧
      outRow t = some (List.replicate s.sc 0x00#8)

/-- Where `RASTERIZE` stops the model: a pixel it samples that nothing has written (U6; the model's own stop,
log 7). -/
def Obligations.RasterizeStopsAtUnwrittenPixel : Prop :=
  ∀ (s : State) (p : Nat), Ready s → RasterOperandsFit s → p < 8 * s.sc → Sampled s p →
    pixelAt s p = none →
    ∃ q, q ≤ p ∧ Sampled s q ∧ pixelAt s q = none ∧
      exec .rasterize s = .fault (.unwrittenPixel s.x ((q : Int) - s.yoff).toNat)

/-! ### SETMODE, ROWENC, ROWDEC -/

/-- R150: `SETMODE` with 0x00 selects Raw and with 0x02 RunLength; `OUT` and `OUTLEN` stay (R37). -/
def Obligations.SetmodeSelectsTheMode : Prop :=
  ∀ s : State, Ready s →
    (s.marg = 0x00#8 → exec .setmode s =
      .next { s with cmode := .raw, ip := 0, rc := 0, lb := [], busy := false, done := true }) ∧
    (s.marg = 0x02#8 → exec .setmode s =
      .next { s with cmode := .runLength, ip := 0, rc := 0, lb := [], busy := false, done := true }) ∧
    CMode.raw.v = true ∧ CMode.raw.val = some 0x00#8 ∧
    CMode.runLength.v = true ∧ CMode.runLength.val = some 0x02#8

/-- R151: any other `MARG` raises ModeInvalid with `FINFO = MARG` and leaves `CMODE` as it was. -/
def Obligations.SetmodeRejectsOtherValues : Prop :=
  ∀ s : State, Ready s → s.marg ≠ 0x00#8 → s.marg ≠ 0x02#8 →
    exec .setmode s =
      .next { s with
        fault := .modeInvalid, finfo := s.marg.toNat, ip := 0, rc := 0, lb := [], busy := false,
        done := false }

/-- R156: with no mode selected `ROWENC` and `ROWDEC` raise ModeUnset before any byte of `IN` is read. -/
def Obligations.RowOperationsNeedAMode : Prop :=
  ∀ (i : Instr) (s : State), i = .rowenc ∨ i = .rowdec → Ready s → s.inlen ≤ s.par.capIn →
    s.cmode = .unset →
    exec i s =
      .next { s with
        fault := .modeUnset, finfo := 0, outlen := 0, ip := 0, rc := 0, lb := [], busy := false,
        done := false }

/-- R155: in Raw mode `ROWENC` and `ROWDEC` are the identity on rows. -/
def Obligations.RawModeIsTheIdentity : Prop :=
  ∀ (i : Instr) (s : State) (row : List Byte), i = .rowenc ∨ i = .rowdec → Ready s →
    s.inlen ≤ s.par.capIn → s.inlen ≤ s.par.capOut → s.cmode = .raw → inRow s = some row →
    ∃ t : State, exec i s = .next t ∧ EndedWell t ∧ outRow t = some row ∧ t.outlen = s.inlen ∧
      t.ip = s.inlen ∧ t.finfo = s.finfo

/-- In RunLength mode `ROWENC` is `COMPRESS` and `ROWDEC` is `DECOMPRESS`, faults included (R153, R154). -/
def Obligations.RunLengthModeIsTheCodec : Prop :=
  ∀ s : State, s.cmode = .runLength →
    exec .rowenc s = exec .compress s ∧ exec .rowdec s = exec .decompress s

/-- R157: under one mode `ROWDEC` of the result of `ROWENC` gives the row back. The length bound is R86's; a start whose
result is longer than `CAP_OUT` is refused (R61, U1). -/
def Obligations.RowdecUndoesRowenc : Prop :=
  ∀ (s : State) (row : List Byte), Ready s → s.inlen ≤ s.par.capIn → inRow s = some row →
    s.cmode ≠ .unset →
    ∃ packed : List Byte, packed.length ≤ 2 * row.length ∧
      (if packed.length ≤ s.par.capOut then
        ∃ t : State, exec .rowenc s = .next t ∧ EndedWell t ∧ t.cmode = s.cmode ∧ outRow t = some packed
      else exec .rowenc s = .refused .overCapacity) ∧
      ∀ u : State, Ready u → u.cmode = s.cmode → u.inlen ≤ u.par.capIn → inRow u = some packed →
        row.length ≤ u.par.capOut →
        ∃ v : State, exec .rowdec u = .next v ∧ EndedWell v ∧ outRow v = some row

/-! ### What an operation leaves unchanged -/

/-- The frame of the four row operations: the host's side, `CMODE`, every byte of `OUT` outside the result (their
content is unspecified by R37; the model keeps it, log 22), and the fault registers unless a fault is
raised. They write `OUT`, `OUTLEN`, `IP`, `RC`, `LB`, `STATUS` (R37, R38). -/
def Obligations.RowOperationsFrame : Prop :=
  ∀ (i : Instr) (s t : State), i = .compress ∨ i = .decompress ∨ i = .rowenc ∨ i = .rowdec →
    exec i s = .next t →
    SameHostSide s t ∧ t.cmode = s.cmode ∧
    (∀ a, t.outlen ≤ a → Memory.read t.outBuf a = Memory.read s.outBuf a) ∧
    (i = .compress → t.fault = s.fault) ∧ (t.fault = s.fault → t.finfo = s.finfo)

/-- The frame of `RASTERIZE`: as for the row operations, and no fault register changes (R138). -/
def Obligations.RasterizeFrame : Prop :=
  ∀ s t : State, exec .rasterize s = .next t →
    SameHostSide s t ∧ t.cmode = s.cmode ∧ t.fault = s.fault ∧ t.finfo = s.finfo ∧
    ∀ a, t.outlen ≤ a → Memory.read t.outBuf a = Memory.read s.outBuf a

/-- The frame of `SETMODE`: the host's side, `OUT` and `OUTLEN` stay as they were (R37, R150), and `CMODE` too
unless the mode byte is legal (R151). -/
def Obligations.SetmodeFrame : Prop :=
  ∀ s t : State, exec .setmode s = .next t →
    SameHostSide s t ∧ t.outBuf = s.outBuf ∧ t.outlen = s.outlen ∧
    (s.marg ≠ 0x00#8 → s.marg ≠ 0x02#8 → t.cmode = s.cmode) ∧
    (t.fault = s.fault → t.finfo = s.finfo)

/-- Where a row operation stops the model: a byte of the row it reads that nothing has written (U6; the model's own
stop, log 7). Behind whole units the interpretation of a compressed row stops at a missing tag, and at the first
missing payload byte of a unit that lies inside `INLEN`. -/
def Obligations.UnwrittenRowStopsTheModel : Prop :=
  (∀ (i : Instr) (s : State), Ready s → s.inlen ≤ s.par.capIn → inRow s = none →
    i = .compress ∨ (i = .rowenc ∧ s.cmode ≠ .unset) ∨ (i = .rowdec ∧ s.cmode = .raw) →
    ∃ j, j < s.inlen ∧ Memory.read s.inBuf j = none ∧ exec i s = .fault (.unwrittenIn j)) ∧
  ∀ (i : Instr) (s : State) (us : List RowUnit), i = .decompress ∨ (i = .rowdec ∧ s.cmode = .runLength) →
    Ready s → s.inlen ≤ s.par.capIn → (∀ u ∈ us, u.wf = true) →
    Memory.readN s.inBuf 0 (encodeRow us).length = some (encodeRow us) →
    ((encodeRow us).length < s.inlen → Memory.read s.inBuf (encodeRow us).length = none →
      exec i s = .fault (.unwrittenIn (encodeRow us).length)) ∧
    ∀ (t : Byte) (j : Nat), Memory.read s.inBuf (encodeRow us).length = some t →
      (encodeRow us).length + 1 + (if 0 ≤ s8 t then t.toNat + 1 else 1) ≤ s.inlen →
      (encodeRow us).length < j → j < (encodeRow us).length + 1 + (if 0 ≤ s8 t then t.toNat + 1 else 1) →
      Memory.read s.inBuf j = none →
      (∀ k, (encodeRow us).length < k → k < j → (Memory.read s.inBuf k).isSome = true) →
      exec i s = .fault (.unwrittenIn j)

/-! ### Rules of the whole machine -/

/-- No operation and no unit of the block writes an operand register, `IN` or `IMG` (R22, R33, R57). The list the
start is taken off (log 2) and the parameters in the state (log 3) are the model's choices. -/
def Obligations.BlockNeverWritesTheHostSide : Prop :=
  ∀ s t : State, step s = .next t →
    (s.busy = true → SameHostSide s t) ∧
    ∀ (c : BitVec 4) (ms : List HostMove), s.busy = false → s.host = .start c :: ms →
      SameHostSide { s with host := ms } t

/-- `CMODE` is written only by `SETMODE` and by reset (R29, R30). The list of moves is the model's choice (log 2). -/
def Obligations.OnlySetmodeAndResetChangeTheMode : Prop :=
  ∀ s t : State, step s = .next t → t.cmode ≠ s.cmode →
    s.busy = false ∧
      ((∃ ms : List HostMove, s.host = .start 0x4#4 :: ms) ∨ ∃ ms : List HostMove, s.host = .reset :: ms)

/-- The result of `COMPRESS` and `DECOMPRESS` is a function of the row, its length and the capacities, and that of
`RASTERIZE` of the image and its operands, and of nothing else: not of `CMODE`, not of what ran before
(R23, R30, R62). -/
def Obligations.ResultDependsOnlyOnOperandsRead : Prop :=
  ∀ (i : Instr) (s s' : State), Ready s → Ready s' → s'.par = s.par →
    ((i = .compress ∨ i = .decompress) ∧ s'.inBuf = s.inBuf ∧ s'.inlen = s.inlen) ∨
      (i = .rasterize ∧ s'.img = s.img ∧ s'.w = s.w ∧ s'.h = s.h ∧ s'.fmt = s.fmt ∧ s'.x = s.x ∧
        s'.sc = s.sc ∧ s'.yoff = s.yoff) →
    (∃ r : Refusal, exec i s = .refused r ∧ exec i s' = .refused r) ∨
    (∃ f : Machine.Fault, exec i s = .fault f ∧ exec i s' = .fault f) ∨
    ∃ t t' : State, exec i s = .next t ∧ exec i s' = .next t' ∧ t'.outlen = t.outlen ∧
      outRow t' = outRow t ∧ t'.ip = t.ip ∧ t'.done = t.done ∧ t'.fault = t.fault ∧
      (t.fault ≠ .none → t'.finfo = t.finfo)

/-! ### Reset and the invariant -/

/-- The values R39 gives the state after reset. The values of host-owned registers are the model's (log 6) and
are not stated. -/
def Obligations.ResetValues : Prop :=
  State.reset.cmode = .unset ∧ CMode.unset.v = false ∧ State.reset.fault = .none ∧
    State.reset.finfo = 0 ∧ State.reset.busy = false ∧ State.reset.done = false ∧
    State.reset.ip = 0 ∧ State.reset.rc = 0 ∧ State.reset.lb = [] ∧ State.reset.outlen = 0

/-- R200, R202: a later reset puts the block's registers to the values of R39 and leaves the host-owned buffers
and operand registers, and the bytes of `OUT`, as they were. That the reset is taken off the list of moves, the moves
behind it staying (log 2), and that the parameters are a field of the state that reset keeps (log 3), are the
model's choices. -/
def Obligations.ResetKeepsTheHostSide : Prop :=
  ∀ (s : State) (ms : List HostMove), s.busy = false → s.host = .reset :: ms →
    step s = .next { s with
      host := ms, cmode := .unset, fault := .none, finfo := 0, busy := false, done := false,
      ip := 0, rc := 0, lb := [], outlen := 0 }

/-- The invariant holds after reset. -/
def Obligations.InvariantHoldsAtReset : Prop := Inv State.reset

/-- Every step keeps the invariant: the buffers stay canonical, `OUTLEN` within `CAP_OUT` with every byte below it
written, `RC` at most 128, `LB` empty between steps, `DONE` never beside a fault, `FINFO` the detail of
`FAULT`, `IP` inside the row while busy (R24, R26, R27, R31, R61, R171). -/
def Obligations.EveryStepKeepsTheInvariant : Prop :=
  ∀ s t : State, Inv s → step s = .next t → Inv t

/-- R34: what the host may read. While the block is busy `OUT`, `OUTLEN`, `IP` and `CMODE` have no read; while it
is idle a byte of the result, `OUTLEN`, `IP` and the mode (R29) are read as they stand; `STATUS`, `FAULT` by the
codes of R171, `FINFO`, the operand registers (R79) and the written cells of `IN` and `IMG` at any time. `OUT` at or
above `OUTLEN` (R37), `CMODE.VAL` while unset (R29, log 8) and a cell nothing has written are unspecified (log 18).
That a cell of `IN` at or above `INLEN` (log 23), or of `IMG` outside `W` and `H` (log 24), reads as written, a pixel
in the format it was written in whatever `FMT` says (log 25), and a register as written whatever its width (log 5),
are the model's choices. -/
def Obligations.HostReadsFollowTheAccessRights : Prop :=
  ∀ s : State,
    (s.busy = true → ∀ i, hostRead (.outByte i) s = .notWhileBusy ∧
      hostRead .outlen s = .notWhileBusy ∧ hostRead .ip s = .notWhileBusy ∧
      hostRead .cmodeV s = .notWhileBusy ∧ hostRead .cmodeVal s = .notWhileBusy) ∧
    (s.busy = false → ∀ (row : List Byte), outRow s = some row →
      (∀ (i : Nat) (b : Byte), row[i]? = some b → hostRead (.outByte i) s = .byte b) ∧
      (∀ i, s.outlen ≤ i → hostRead (.outByte i) s = .unspecified) ∧
      hostRead .outlen s = .number s.outlen ∧ hostRead .ip s = .number s.ip) ∧
    (s.busy = false →
      (s.cmode = .unset → hostRead .cmodeV s = .flag false ∧ hostRead .cmodeVal s = .unspecified) ∧
      (s.cmode = .raw → hostRead .cmodeV s = .flag true ∧ hostRead .cmodeVal s = .byte 0x00#8) ∧
      (s.cmode = .runLength → hostRead .cmodeV s = .flag true ∧ hostRead .cmodeVal s = .byte 0x02#8)) ∧
    (hostRead .busy s = .flag s.busy ∧ hostRead .done s = .flag s.done ∧
      hostRead .finfo s = .number s.finfo) ∧
    ((s.fault = .none → hostRead .fault s = .code 0#2) ∧
      (s.fault = .malformedInput → hostRead .fault s = .code 1#2) ∧
      (s.fault = .modeUnset → hostRead .fault s = .code 2#2) ∧
      (s.fault = .modeInvalid → hostRead .fault s = .code 3#2)) ∧
    (hostRead .inlen s = .number s.inlen ∧ hostRead .w s = .number s.w ∧ hostRead .h s = .number s.h ∧
      hostRead .x s = .number s.x ∧ hostRead .sc s = .number s.sc ∧ hostRead .yoff s = .signed s.yoff ∧
      hostRead .marg s = .byte s.marg ∧ (s.fmt = .gray → hostRead .fmt s = .format 0#1) ∧
      (s.fmt = .rgb → hostRead .fmt s = .format 1#1)) ∧
    (∀ (i : Nat) (b : Byte), Memory.read s.inBuf i = some b → hostRead (.inByte i) s = .byte b) ∧
    (∀ i, Memory.read s.inBuf i = none → hostRead (.inByte i) s = .unspecified) ∧
    (∀ (x y : Nat) (p : Pixel), Image.read s.img (x, y) = some p → hostRead (.pixel x y) s = .pixel p) ∧
    ∀ x y : Nat, Image.read s.img (x, y) = none → hostRead (.pixel x y) s = .unspecified
end

