-- ==== Sys2Proof/Laws/Memory.lean ====
section
/-!
SUPPORT. The laws of the buffers: a read after a write, that writes keep the canonical form, and what a
stretch of reads or writes does.
-/
namespace Sys2Proof.Machine

/-! ### One byte -/

@[simp] theorem Memory.read_nil (i : Nat) : Memory.read [] i = none := rfl

@[simp] theorem Memory.read_write_same (m : Memory) (i : Nat) (b : Byte) :
    Memory.read (Memory.write m i b) i = some b := by
  induction m with
  | nil => simp [Memory.write, Memory.read]
  | cons c m ih =>
    obtain ⟨a, d⟩ := c
    unfold Memory.write
    split
    · simp [Memory.read]
    · split
      · simp [Memory.read]
      · have : a ≠ i := fun h => by simp_all
        simp [Memory.read, this, ih]

theorem Memory.read_write_ne (m : Memory) {i j : Nat} (b : Byte) (h : j ≠ i) :
    Memory.read (Memory.write m i b) j = Memory.read m j := by
  induction m with
  | nil => simp [Memory.write, Memory.read, Ne.symm h]
  | cons c m ih =>
    obtain ⟨a, d⟩ := c
    unfold Memory.write
    split
    · simp [Memory.read, Ne.symm h]
    · split
      · next he => subst he; simp [Memory.read, Ne.symm h]
      · simp [Memory.read, ih]

/-- A write, read at any index. -/
theorem Memory.read_write (m : Memory) (i j : Nat) (b : Byte) :
    Memory.read (Memory.write m i b) j = if j = i then some b else Memory.read m j := by
  split
  · next h => subst h; simp
  · next h => exact Memory.read_write_ne m b h

/-! ### The canonical form -/

/-- Every index of the list is above `a`. -/
theorem Memory.wf_cons (a : Nat) (b : Byte) (m : Memory) :
    Memory.wf ((a, b) :: m) = true ↔ (∀ c ∈ m.head?, a < c.1) ∧ Memory.wf m = true := by
  cases m with
  | nil => simp [Memory.wf]
  | cons c m => obtain ⟨d, e⟩ := c; simp [Memory.wf]

theorem Memory.head_write (m : Memory) (i : Nat) (b : Byte) :
    ∀ c ∈ (Memory.write m i b).head?, c.1 = i ∨ c ∈ m.head? := by
  cases m with
  | nil => simp [Memory.write]
  | cons c m =>
    obtain ⟨a, d⟩ := c
    unfold Memory.write
    split
    · simp
    · split <;> simp

/-- A write keeps the canonical form. -/
theorem Memory.wf_write (m : Memory) (i : Nat) (b : Byte) (h : Memory.wf m = true) :
    Memory.wf (Memory.write m i b) = true := by
  induction m with
  | nil => rfl
  | cons c m ih =>
    obtain ⟨a, d⟩ := c
    rw [Memory.wf_cons] at h
    unfold Memory.write
    split
    · next hi => simp [Memory.wf_cons, h, hi]; exact fun a b hm => h.1 _ hm
    · split
      · next he => subst he; rw [Memory.wf_cons]; exact h
      · rw [Memory.wf_cons]
        refine ⟨fun c hc => ?_, ih h.2⟩
        rcases Memory.head_write m i b c hc with hc | hc
        · omega
        · exact h.1 c hc

theorem Memory.wf_writeAll (m : Memory) (i : Nat) (bs : List Byte) (h : Memory.wf m = true) :
    Memory.wf (Memory.writeAll m i bs) = true := by
  induction bs generalizing m i with
  | nil => exact h
  | cons b bs ih => exact ih _ _ (Memory.wf_write m i b h)

/-! ### Stretches of bytes -/

@[simp] theorem Memory.writeAll_nil (m : Memory) (i : Nat) : Memory.writeAll m i [] = m := rfl

@[simp] theorem Memory.writeAll_cons (m : Memory) (i : Nat) (b : Byte) (bs : List Byte) :
    Memory.writeAll m i (b :: bs) = Memory.writeAll (Memory.write m i b) (i + 1) bs := rfl

/-- Writing bytes end to end is writing them at once. -/
theorem Memory.writeAll_append (m : Memory) (i : Nat) (bs cs : List Byte) :
    Memory.writeAll m i (bs ++ cs) = Memory.writeAll (Memory.writeAll m i bs) (i + bs.length) cs := by
  induction bs generalizing m i with
  | nil => rfl
  | cons b bs ih => simp [ih, Nat.add_assoc, Nat.add_comm 1]

/-- Everything `writeAll` does, read at any index. -/
theorem Memory.read_writeAll (m : Memory) (i j : Nat) (bs : List Byte) :
    Memory.read (Memory.writeAll m i bs) j =
      if i ≤ j ∧ j < i + bs.length then bs[j - i]? else Memory.read m j := by
  induction bs generalizing m i with
  | nil => simp
  | cons b bs ih =>
    rw [Memory.writeAll_cons, ih, Memory.read_write]
    by_cases h1 : i + 1 ≤ j ∧ j < i + 1 + bs.length
    · have h2 : i ≤ j ∧ j < i + (b :: bs).length := by simp; omega
      have h3 : j - i = (j - (i + 1)) + 1 := by omega
      rw [if_pos h1, if_pos h2, h3, List.getElem?_cons_succ]
    · rw [if_neg h1]
      by_cases h2 : j = i
      · subst h2; simp
      · have h3 : ¬ (i ≤ j ∧ j < i + (b :: bs).length) := by simp; omega
        rw [if_neg h2, if_neg h3]

theorem Memory.read_writeAll_outside (m : Memory) (i j : Nat) (bs : List Byte)
    (h : j < i ∨ i + bs.length ≤ j) : Memory.read (Memory.writeAll m i bs) j = Memory.read m j := by
  rw [Memory.read_writeAll, if_neg (by omega)]

@[simp] theorem Memory.readN_zero (m : Memory) (a : Nat) : Memory.readN m a 0 = some [] := rfl

/-- One byte more at the front. -/
theorem Memory.readN_succ (m : Memory) (a n : Nat) (bs : List Byte) :
    Memory.readN m a (n + 1) = some bs ↔
      ∃ b cs, bs = b :: cs ∧ Memory.read m a = some b ∧ Memory.readN m (a + 1) n = some cs := by
  simp only [Memory.readN]
  split
  · next b cs h1 h2 =>
    simp only [Option.some.injEq]
    constructor
    · rintro rfl; exact ⟨b, cs, rfl, h1, h2⟩
    · rintro ⟨b', cs', rfl, h3, h4⟩
      rw [h1] at h3; rw [h2] at h4; cases h3; cases h4; rfl
  · next h =>
    simp only [reduceCtorEq, false_iff]
    rintro ⟨b, cs, -, h3, h4⟩
    exact h b cs h3 h4

/-- What a stretch of reads gives: its length, and the byte at every index of it. -/
theorem Memory.readN_eq_some (m : Memory) (a n : Nat) (bs : List Byte) :
    Memory.readN m a n = some bs ↔
      bs.length = n ∧ ∀ k, k < n → Memory.read m (a + k) = bs[k]? := by
  induction n generalizing a bs with
  | zero =>
    simp only [Memory.readN_zero, Option.some.injEq, Nat.not_lt_zero, false_imp_iff, implies_true,
      and_true, List.length_eq_zero_iff]
    exact eq_comm
  | succ n ih =>
    rw [Memory.readN_succ]
    constructor
    · rintro ⟨b, cs, rfl, h1, h2⟩
      obtain ⟨h3, h4⟩ := (ih _ _).1 h2
      refine ⟨by simp [h3], fun k hk => ?_⟩
      cases k with
      | zero => simpa using h1
      | succ k => simpa [Nat.add_assoc, Nat.add_comm 1] using h4 k (by omega)
    · rintro ⟨h1, h2⟩
      cases bs with
      | nil => simp at h1
      | cons b cs =>
        refine ⟨b, cs, rfl, by simpa using h2 0 (by omega), (ih _ _).2 ⟨by simpa using h1, fun k hk => ?_⟩⟩
        simpa [Nat.add_assoc, Nat.add_comm 1] using h2 (k + 1) (by omega)

theorem Memory.readN_length {m : Memory} {a n : Nat} {bs : List Byte}
    (h : Memory.readN m a n = some bs) : bs.length = n := ((Memory.readN_eq_some m a n bs).1 h).1

/-- A stretch of a stretch. -/
theorem Memory.readN_sub {m : Memory} {a n : Nat} {bs : List Byte} (h : Memory.readN m a n = some bs)
    (i k : Nat) (hk : i + k ≤ n) : Memory.readN m (a + i) k = some ((bs.drop i).take k) := by
  obtain ⟨h1, h2⟩ := (Memory.readN_eq_some m a n bs).1 h
  refine (Memory.readN_eq_some _ _ _ _).2 ⟨by simp; omega, fun j hj => ?_⟩
  rw [Nat.add_assoc, h2 (i + j) (by omega), List.getElem?_take_of_lt hj, List.getElem?_drop]

/-- Bytes written are read back. -/
theorem Memory.readN_writeAll (m : Memory) (a : Nat) (bs : List Byte) :
    Memory.readN (Memory.writeAll m a bs) a bs.length = some bs := by
  refine (Memory.readN_eq_some _ _ _ _).2 ⟨rfl, fun k hk => ?_⟩
  rw [Memory.read_writeAll, if_pos ⟨by omega, by omega⟩]
  congr 1; omega

/-- A write outside a stretch leaves it. -/
theorem Memory.readN_writeAll_outside (m : Memory) (a n i : Nat) (bs : List Byte)
    (h : a + n ≤ i ∨ i + bs.length ≤ a) :
    Memory.readN (Memory.writeAll m i bs) a n = Memory.readN m a n := by
  induction n generalizing a with
  | zero => rfl
  | succ n ih =>
    simp only [Memory.readN]
    rw [Memory.read_writeAll_outside m i a bs (by omega), ih (a + 1) (by omega)]

/-- Two stretches end to end. -/
theorem Memory.readN_append {m : Memory} {a n k : Nat} {bs cs : List Byte}
    (h1 : Memory.readN m a n = some bs) (h2 : Memory.readN m (a + n) k = some cs) :
    Memory.readN m a (n + k) = some (bs ++ cs) := by
  obtain ⟨l1, g1⟩ := (Memory.readN_eq_some _ _ _ _).1 h1
  obtain ⟨l2, g2⟩ := (Memory.readN_eq_some _ _ _ _).1 h2
  refine (Memory.readN_eq_some _ _ _ _).2 ⟨by simp [l1, l2], fun j hj => ?_⟩
  by_cases h : j < n
  · rw [g1 j h, List.getElem?_append_left (by omega)]
  · rw [List.getElem?_append_right (by omega), l1, ← g2 (j - n) (by omega)]
    congr 1; omega

/-! ### The image -/

theorem posLt_irrefl (p : Nat × Nat) : posLt p p = false := by simp [posLt]

theorem posLt_of_not {p q : Nat × Nat} (h : posLt p q = false) (hne : p ≠ q) : posLt q p = true := by
  obtain ⟨a, b⟩ := p; obtain ⟨c, d⟩ := q
  simp only [posLt, Bool.or_eq_false_iff, decide_eq_false_iff_not, Bool.and_eq_false_iff, ne_eq,
    Prod.mk.injEq, Bool.or_eq_true, decide_eq_true_eq, Bool.and_eq_true] at *
  omega

theorem Image.read_write (m : Image) (i j : Nat × Nat) (p : Pixel) :
    Image.read (Image.write m i p) j = if j = i then some p else Image.read m j := by
  induction m with
  | nil =>
    simp only [Image.write, Image.read]
    by_cases h : j = i
    · subst h; simp
    · simp [h, Ne.symm h]
  | cons c m ih =>
    obtain ⟨k, q⟩ := c
    unfold Image.write
    split
    · simp only [Image.read]
      by_cases h : j = i
      · subst h; simp
      · simp [h, Ne.symm h]
    · split
      · next he =>
        subst he
        simp only [Image.read]
        by_cases h : j = i
        · subst h; simp
        · simp [h, Ne.symm h]
      · next hn =>
        simp only [Image.read, ih]
        by_cases h : j = i
        · subst h; simp [Ne.symm hn]
        · simp [h]

theorem Image.wf_cons (k : Nat × Nat) (p : Pixel) (m : Image) :
    Image.wf ((k, p) :: m) = true ↔ (∀ c ∈ m.head?, posLt k c.1 = true) ∧ Image.wf m = true := by
  cases m with
  | nil => simp [Image.wf]
  | cons c m => obtain ⟨d, e⟩ := c; simp [Image.wf]

theorem Image.head_write (m : Image) (i : Nat × Nat) (p : Pixel) :
    ∀ c ∈ (Image.write m i p).head?, c.1 = i ∨ c ∈ m.head? := by
  cases m with
  | nil => simp [Image.write]
  | cons c m =>
    obtain ⟨a, d⟩ := c
    unfold Image.write
    split
    · simp
    · split <;> simp

/-- A write of a pixel keeps the canonical form. -/
theorem Image.wf_write (m : Image) (i : Nat × Nat) (p : Pixel) (h : Image.wf m = true) :
    Image.wf (Image.write m i p) = true := by
  induction m with
  | nil => rfl
  | cons c m ih =>
    obtain ⟨a, d⟩ := c
    rw [Image.wf_cons] at h
    unfold Image.write
    split
    · next hi =>
      rw [Image.wf_cons, Image.wf_cons]
      exact ⟨fun c hc => by simp at hc; subst hc; exact hi, h⟩
    · next hn =>
      split
      · next he => subst he; rw [Image.wf_cons]; exact h
      · next hne =>
        rw [Image.wf_cons]
        refine ⟨fun c hc => ?_, ih h.2⟩
        rcases Image.head_write m i p c hc with hc | hc
        · rw [hc]; exact posLt_of_not (by simpa using hn) hne
        · exact h.1 c hc

/-- The buffers of the state after reset are in their canonical form. -/
theorem reset_buffers_wf :
    Memory.wf State.reset.inBuf = true ∧ Memory.wf State.reset.outBuf = true ∧
      Image.wf State.reset.img = true := ⟨rfl, rfl, rfl⟩

end Sys2Proof.Machine
end

