-- ==== Sys2Proof/Laws/State.lean ====
section
/-!
SUPPORT. One lemma per field of State for each named update of it: what the update makes the field. True by
rfl, simp lemmas, so that no later proof unfolds a record update.
-/
namespace Sys2Proof.Machine

/-! ### The start of an operation (R37) -/

@[simp] theorem statusStart_inBuf (s : State) : (statusStart s).inBuf = s.inBuf := rfl
@[simp] theorem statusStart_inlen (s : State) : (statusStart s).inlen = s.inlen := rfl
@[simp] theorem statusStart_img (s : State) : (statusStart s).img = s.img := rfl
@[simp] theorem statusStart_w (s : State) : (statusStart s).w = s.w := rfl
@[simp] theorem statusStart_h (s : State) : (statusStart s).h = s.h := rfl
@[simp] theorem statusStart_fmt (s : State) : (statusStart s).fmt = s.fmt := rfl
@[simp] theorem statusStart_x (s : State) : (statusStart s).x = s.x := rfl
@[simp] theorem statusStart_sc (s : State) : (statusStart s).sc = s.sc := rfl
@[simp] theorem statusStart_yoff (s : State) : (statusStart s).yoff = s.yoff := rfl
@[simp] theorem statusStart_marg (s : State) : (statusStart s).marg = s.marg := rfl
@[simp] theorem statusStart_outBuf (s : State) : (statusStart s).outBuf = s.outBuf := rfl
@[simp] theorem statusStart_outlen (s : State) : (statusStart s).outlen = s.outlen := rfl
@[simp] theorem statusStart_ip (s : State) : (statusStart s).ip = s.ip := rfl
@[simp] theorem statusStart_rc (s : State) : (statusStart s).rc = s.rc := rfl
@[simp] theorem statusStart_lb (s : State) : (statusStart s).lb = s.lb := rfl
@[simp] theorem statusStart_cmode (s : State) : (statusStart s).cmode = s.cmode := rfl
@[simp] theorem statusStart_busy (s : State) : (statusStart s).busy = true := rfl
@[simp] theorem statusStart_done (s : State) : (statusStart s).done = false := rfl
@[simp] theorem statusStart_fault (s : State) : (statusStart s).fault = s.fault := rfl
@[simp] theorem statusStart_finfo (s : State) : (statusStart s).finfo = s.finfo := rfl
@[simp] theorem statusStart_par (s : State) : (statusStart s).par = s.par := rfl
@[simp] theorem statusStart_host (s : State) : (statusStart s).host = s.host := rfl

/-! ### The end of an operation (R38) -/

@[simp] theorem statusEnd_inBuf (s : State) : (statusEnd s).inBuf = s.inBuf := rfl
@[simp] theorem statusEnd_inlen (s : State) : (statusEnd s).inlen = s.inlen := rfl
@[simp] theorem statusEnd_img (s : State) : (statusEnd s).img = s.img := rfl
@[simp] theorem statusEnd_w (s : State) : (statusEnd s).w = s.w := rfl
@[simp] theorem statusEnd_h (s : State) : (statusEnd s).h = s.h := rfl
@[simp] theorem statusEnd_fmt (s : State) : (statusEnd s).fmt = s.fmt := rfl
@[simp] theorem statusEnd_x (s : State) : (statusEnd s).x = s.x := rfl
@[simp] theorem statusEnd_sc (s : State) : (statusEnd s).sc = s.sc := rfl
@[simp] theorem statusEnd_yoff (s : State) : (statusEnd s).yoff = s.yoff := rfl
@[simp] theorem statusEnd_marg (s : State) : (statusEnd s).marg = s.marg := rfl
@[simp] theorem statusEnd_outBuf (s : State) : (statusEnd s).outBuf = s.outBuf := rfl
@[simp] theorem statusEnd_outlen (s : State) : (statusEnd s).outlen = s.outlen := rfl
@[simp] theorem statusEnd_ip (s : State) : (statusEnd s).ip = s.ip := rfl
@[simp] theorem statusEnd_rc (s : State) : (statusEnd s).rc = s.rc := rfl
@[simp] theorem statusEnd_lb (s : State) : (statusEnd s).lb = s.lb := rfl
@[simp] theorem statusEnd_cmode (s : State) : (statusEnd s).cmode = s.cmode := rfl
@[simp] theorem statusEnd_busy (s : State) : (statusEnd s).busy = false := rfl
@[simp] theorem statusEnd_done (s : State) : (statusEnd s).done = true := rfl
@[simp] theorem statusEnd_fault (s : State) : (statusEnd s).fault = s.fault := rfl
@[simp] theorem statusEnd_finfo (s : State) : (statusEnd s).finfo = s.finfo := rfl
@[simp] theorem statusEnd_par (s : State) : (statusEnd s).par = s.par := rfl
@[simp] theorem statusEnd_host (s : State) : (statusEnd s).host = s.host := rfl

/-! ### `raise` (R176): four fields change -/

@[simp] theorem raise_inBuf (f : FaultCode) (n : Nat) (s : State) : (raise f n s).inBuf = s.inBuf := rfl
@[simp] theorem raise_inlen (f : FaultCode) (n : Nat) (s : State) : (raise f n s).inlen = s.inlen := rfl
@[simp] theorem raise_img (f : FaultCode) (n : Nat) (s : State) : (raise f n s).img = s.img := rfl
@[simp] theorem raise_w (f : FaultCode) (n : Nat) (s : State) : (raise f n s).w = s.w := rfl
@[simp] theorem raise_h (f : FaultCode) (n : Nat) (s : State) : (raise f n s).h = s.h := rfl
@[simp] theorem raise_fmt (f : FaultCode) (n : Nat) (s : State) : (raise f n s).fmt = s.fmt := rfl
@[simp] theorem raise_x (f : FaultCode) (n : Nat) (s : State) : (raise f n s).x = s.x := rfl
@[simp] theorem raise_sc (f : FaultCode) (n : Nat) (s : State) : (raise f n s).sc = s.sc := rfl
@[simp] theorem raise_yoff (f : FaultCode) (n : Nat) (s : State) : (raise f n s).yoff = s.yoff := rfl
@[simp] theorem raise_marg (f : FaultCode) (n : Nat) (s : State) : (raise f n s).marg = s.marg := rfl
@[simp] theorem raise_outBuf (f : FaultCode) (n : Nat) (s : State) : (raise f n s).outBuf = s.outBuf := rfl
@[simp] theorem raise_outlen (f : FaultCode) (n : Nat) (s : State) : (raise f n s).outlen = s.outlen := rfl
@[simp] theorem raise_ip (f : FaultCode) (n : Nat) (s : State) : (raise f n s).ip = s.ip := rfl
@[simp] theorem raise_rc (f : FaultCode) (n : Nat) (s : State) : (raise f n s).rc = s.rc := rfl
@[simp] theorem raise_lb (f : FaultCode) (n : Nat) (s : State) : (raise f n s).lb = s.lb := rfl
@[simp] theorem raise_cmode (f : FaultCode) (n : Nat) (s : State) : (raise f n s).cmode = s.cmode := rfl
@[simp] theorem raise_busy (f : FaultCode) (n : Nat) (s : State) : (raise f n s).busy = false := rfl
@[simp] theorem raise_done (f : FaultCode) (n : Nat) (s : State) : (raise f n s).done = false := rfl
@[simp] theorem raise_fault (f : FaultCode) (n : Nat) (s : State) : (raise f n s).fault = f := rfl
@[simp] theorem raise_finfo (f : FaultCode) (n : Nat) (s : State) : (raise f n s).finfo = n := rfl
@[simp] theorem raise_par (f : FaultCode) (n : Nat) (s : State) : (raise f n s).par = s.par := rfl
@[simp] theorem raise_host (f : FaultCode) (n : Nat) (s : State) : (raise f n s).host = s.host := rfl

/-! ### `emit` (R16): two fields change -/

@[simp] theorem emit_inBuf (v : List Byte) (s : State) : (emit v s).inBuf = s.inBuf := rfl
@[simp] theorem emit_inlen (v : List Byte) (s : State) : (emit v s).inlen = s.inlen := rfl
@[simp] theorem emit_img (v : List Byte) (s : State) : (emit v s).img = s.img := rfl
@[simp] theorem emit_w (v : List Byte) (s : State) : (emit v s).w = s.w := rfl
@[simp] theorem emit_h (v : List Byte) (s : State) : (emit v s).h = s.h := rfl
@[simp] theorem emit_fmt (v : List Byte) (s : State) : (emit v s).fmt = s.fmt := rfl
@[simp] theorem emit_x (v : List Byte) (s : State) : (emit v s).x = s.x := rfl
@[simp] theorem emit_sc (v : List Byte) (s : State) : (emit v s).sc = s.sc := rfl
@[simp] theorem emit_yoff (v : List Byte) (s : State) : (emit v s).yoff = s.yoff := rfl
@[simp] theorem emit_marg (v : List Byte) (s : State) : (emit v s).marg = s.marg := rfl
@[simp] theorem emit_outBuf (v : List Byte) (s : State) : (emit v s).outBuf = Memory.writeAll s.outBuf s.outlen v := rfl
@[simp] theorem emit_outlen (v : List Byte) (s : State) : (emit v s).outlen = s.outlen + v.length := rfl
@[simp] theorem emit_ip (v : List Byte) (s : State) : (emit v s).ip = s.ip := rfl
@[simp] theorem emit_rc (v : List Byte) (s : State) : (emit v s).rc = s.rc := rfl
@[simp] theorem emit_lb (v : List Byte) (s : State) : (emit v s).lb = s.lb := rfl
@[simp] theorem emit_cmode (v : List Byte) (s : State) : (emit v s).cmode = s.cmode := rfl
@[simp] theorem emit_busy (v : List Byte) (s : State) : (emit v s).busy = s.busy := rfl
@[simp] theorem emit_done (v : List Byte) (s : State) : (emit v s).done = s.done := rfl
@[simp] theorem emit_fault (v : List Byte) (s : State) : (emit v s).fault = s.fault := rfl
@[simp] theorem emit_finfo (v : List Byte) (s : State) : (emit v s).finfo = s.finfo := rfl
@[simp] theorem emit_par (v : List Byte) (s : State) : (emit v s).par = s.par := rfl
@[simp] theorem emit_host (v : List Byte) (s : State) : (emit v s).host = s.host := rfl

/-! ### `IP <- t` (R16) -/

@[simp] theorem setIp_inBuf (n : Nat) (s : State) : (setIp n s).inBuf = s.inBuf := rfl
@[simp] theorem setIp_inlen (n : Nat) (s : State) : (setIp n s).inlen = s.inlen := rfl
@[simp] theorem setIp_img (n : Nat) (s : State) : (setIp n s).img = s.img := rfl
@[simp] theorem setIp_w (n : Nat) (s : State) : (setIp n s).w = s.w := rfl
@[simp] theorem setIp_h (n : Nat) (s : State) : (setIp n s).h = s.h := rfl
@[simp] theorem setIp_fmt (n : Nat) (s : State) : (setIp n s).fmt = s.fmt := rfl
@[simp] theorem setIp_x (n : Nat) (s : State) : (setIp n s).x = s.x := rfl
@[simp] theorem setIp_sc (n : Nat) (s : State) : (setIp n s).sc = s.sc := rfl
@[simp] theorem setIp_yoff (n : Nat) (s : State) : (setIp n s).yoff = s.yoff := rfl
@[simp] theorem setIp_marg (n : Nat) (s : State) : (setIp n s).marg = s.marg := rfl
@[simp] theorem setIp_outBuf (n : Nat) (s : State) : (setIp n s).outBuf = s.outBuf := rfl
@[simp] theorem setIp_outlen (n : Nat) (s : State) : (setIp n s).outlen = s.outlen := rfl
@[simp] theorem setIp_ip (n : Nat) (s : State) : (setIp n s).ip = n := rfl
@[simp] theorem setIp_rc (n : Nat) (s : State) : (setIp n s).rc = s.rc := rfl
@[simp] theorem setIp_lb (n : Nat) (s : State) : (setIp n s).lb = s.lb := rfl
@[simp] theorem setIp_cmode (n : Nat) (s : State) : (setIp n s).cmode = s.cmode := rfl
@[simp] theorem setIp_busy (n : Nat) (s : State) : (setIp n s).busy = s.busy := rfl
@[simp] theorem setIp_done (n : Nat) (s : State) : (setIp n s).done = s.done := rfl
@[simp] theorem setIp_fault (n : Nat) (s : State) : (setIp n s).fault = s.fault := rfl
@[simp] theorem setIp_finfo (n : Nat) (s : State) : (setIp n s).finfo = s.finfo := rfl
@[simp] theorem setIp_par (n : Nat) (s : State) : (setIp n s).par = s.par := rfl
@[simp] theorem setIp_host (n : Nat) (s : State) : (setIp n s).host = s.host := rfl

/-! ### `RC <- r` -/

@[simp] theorem setRc_inBuf (n : Nat) (s : State) : (setRc n s).inBuf = s.inBuf := rfl
@[simp] theorem setRc_inlen (n : Nat) (s : State) : (setRc n s).inlen = s.inlen := rfl
@[simp] theorem setRc_img (n : Nat) (s : State) : (setRc n s).img = s.img := rfl
@[simp] theorem setRc_w (n : Nat) (s : State) : (setRc n s).w = s.w := rfl
@[simp] theorem setRc_h (n : Nat) (s : State) : (setRc n s).h = s.h := rfl
@[simp] theorem setRc_fmt (n : Nat) (s : State) : (setRc n s).fmt = s.fmt := rfl
@[simp] theorem setRc_x (n : Nat) (s : State) : (setRc n s).x = s.x := rfl
@[simp] theorem setRc_sc (n : Nat) (s : State) : (setRc n s).sc = s.sc := rfl
@[simp] theorem setRc_yoff (n : Nat) (s : State) : (setRc n s).yoff = s.yoff := rfl
@[simp] theorem setRc_marg (n : Nat) (s : State) : (setRc n s).marg = s.marg := rfl
@[simp] theorem setRc_outBuf (n : Nat) (s : State) : (setRc n s).outBuf = s.outBuf := rfl
@[simp] theorem setRc_outlen (n : Nat) (s : State) : (setRc n s).outlen = s.outlen := rfl
@[simp] theorem setRc_ip (n : Nat) (s : State) : (setRc n s).ip = s.ip := rfl
@[simp] theorem setRc_rc (n : Nat) (s : State) : (setRc n s).rc = n := rfl
@[simp] theorem setRc_lb (n : Nat) (s : State) : (setRc n s).lb = s.lb := rfl
@[simp] theorem setRc_cmode (n : Nat) (s : State) : (setRc n s).cmode = s.cmode := rfl
@[simp] theorem setRc_busy (n : Nat) (s : State) : (setRc n s).busy = s.busy := rfl
@[simp] theorem setRc_done (n : Nat) (s : State) : (setRc n s).done = s.done := rfl
@[simp] theorem setRc_fault (n : Nat) (s : State) : (setRc n s).fault = s.fault := rfl
@[simp] theorem setRc_finfo (n : Nat) (s : State) : (setRc n s).finfo = s.finfo := rfl
@[simp] theorem setRc_par (n : Nat) (s : State) : (setRc n s).par = s.par := rfl
@[simp] theorem setRc_host (n : Nat) (s : State) : (setRc n s).host = s.host := rfl

/-! ### `LB <- LB ++ [b]` -/

@[simp] theorem pushLb_inBuf (b : Byte) (s : State) : (pushLb b s).inBuf = s.inBuf := rfl
@[simp] theorem pushLb_inlen (b : Byte) (s : State) : (pushLb b s).inlen = s.inlen := rfl
@[simp] theorem pushLb_img (b : Byte) (s : State) : (pushLb b s).img = s.img := rfl
@[simp] theorem pushLb_w (b : Byte) (s : State) : (pushLb b s).w = s.w := rfl
@[simp] theorem pushLb_h (b : Byte) (s : State) : (pushLb b s).h = s.h := rfl
@[simp] theorem pushLb_fmt (b : Byte) (s : State) : (pushLb b s).fmt = s.fmt := rfl
@[simp] theorem pushLb_x (b : Byte) (s : State) : (pushLb b s).x = s.x := rfl
@[simp] theorem pushLb_sc (b : Byte) (s : State) : (pushLb b s).sc = s.sc := rfl
@[simp] theorem pushLb_yoff (b : Byte) (s : State) : (pushLb b s).yoff = s.yoff := rfl
@[simp] theorem pushLb_marg (b : Byte) (s : State) : (pushLb b s).marg = s.marg := rfl
@[simp] theorem pushLb_outBuf (b : Byte) (s : State) : (pushLb b s).outBuf = s.outBuf := rfl
@[simp] theorem pushLb_outlen (b : Byte) (s : State) : (pushLb b s).outlen = s.outlen := rfl
@[simp] theorem pushLb_ip (b : Byte) (s : State) : (pushLb b s).ip = s.ip := rfl
@[simp] theorem pushLb_rc (b : Byte) (s : State) : (pushLb b s).rc = s.rc := rfl
@[simp] theorem pushLb_lb (b : Byte) (s : State) : (pushLb b s).lb = s.lb ++ [b] := rfl
@[simp] theorem pushLb_cmode (b : Byte) (s : State) : (pushLb b s).cmode = s.cmode := rfl
@[simp] theorem pushLb_busy (b : Byte) (s : State) : (pushLb b s).busy = s.busy := rfl
@[simp] theorem pushLb_done (b : Byte) (s : State) : (pushLb b s).done = s.done := rfl
@[simp] theorem pushLb_fault (b : Byte) (s : State) : (pushLb b s).fault = s.fault := rfl
@[simp] theorem pushLb_finfo (b : Byte) (s : State) : (pushLb b s).finfo = s.finfo := rfl
@[simp] theorem pushLb_par (b : Byte) (s : State) : (pushLb b s).par = s.par := rfl
@[simp] theorem pushLb_host (b : Byte) (s : State) : (pushLb b s).host = s.host := rfl

/-! ### `LB <- []` -/

@[simp] theorem clearLb_inBuf (s : State) : (clearLb s).inBuf = s.inBuf := rfl
@[simp] theorem clearLb_inlen (s : State) : (clearLb s).inlen = s.inlen := rfl
@[simp] theorem clearLb_img (s : State) : (clearLb s).img = s.img := rfl
@[simp] theorem clearLb_w (s : State) : (clearLb s).w = s.w := rfl
@[simp] theorem clearLb_h (s : State) : (clearLb s).h = s.h := rfl
@[simp] theorem clearLb_fmt (s : State) : (clearLb s).fmt = s.fmt := rfl
@[simp] theorem clearLb_x (s : State) : (clearLb s).x = s.x := rfl
@[simp] theorem clearLb_sc (s : State) : (clearLb s).sc = s.sc := rfl
@[simp] theorem clearLb_yoff (s : State) : (clearLb s).yoff = s.yoff := rfl
@[simp] theorem clearLb_marg (s : State) : (clearLb s).marg = s.marg := rfl
@[simp] theorem clearLb_outBuf (s : State) : (clearLb s).outBuf = s.outBuf := rfl
@[simp] theorem clearLb_outlen (s : State) : (clearLb s).outlen = s.outlen := rfl
@[simp] theorem clearLb_ip (s : State) : (clearLb s).ip = s.ip := rfl
@[simp] theorem clearLb_rc (s : State) : (clearLb s).rc = s.rc := rfl
@[simp] theorem clearLb_lb (s : State) : (clearLb s).lb = [] := rfl
@[simp] theorem clearLb_cmode (s : State) : (clearLb s).cmode = s.cmode := rfl
@[simp] theorem clearLb_busy (s : State) : (clearLb s).busy = s.busy := rfl
@[simp] theorem clearLb_done (s : State) : (clearLb s).done = s.done := rfl
@[simp] theorem clearLb_fault (s : State) : (clearLb s).fault = s.fault := rfl
@[simp] theorem clearLb_finfo (s : State) : (clearLb s).finfo = s.finfo := rfl
@[simp] theorem clearLb_par (s : State) : (clearLb s).par = s.par := rfl
@[simp] theorem clearLb_host (s : State) : (clearLb s).host = s.host := rfl

/-! ### The prologue of `SETMODE` (R37) -/

@[simp] theorem prologueMode_inBuf (s : State) : (prologueMode s).inBuf = s.inBuf := rfl
@[simp] theorem prologueMode_inlen (s : State) : (prologueMode s).inlen = s.inlen := rfl
@[simp] theorem prologueMode_img (s : State) : (prologueMode s).img = s.img := rfl
@[simp] theorem prologueMode_w (s : State) : (prologueMode s).w = s.w := rfl
@[simp] theorem prologueMode_h (s : State) : (prologueMode s).h = s.h := rfl
@[simp] theorem prologueMode_fmt (s : State) : (prologueMode s).fmt = s.fmt := rfl
@[simp] theorem prologueMode_x (s : State) : (prologueMode s).x = s.x := rfl
@[simp] theorem prologueMode_sc (s : State) : (prologueMode s).sc = s.sc := rfl
@[simp] theorem prologueMode_yoff (s : State) : (prologueMode s).yoff = s.yoff := rfl
@[simp] theorem prologueMode_marg (s : State) : (prologueMode s).marg = s.marg := rfl
@[simp] theorem prologueMode_outBuf (s : State) : (prologueMode s).outBuf = s.outBuf := rfl
@[simp] theorem prologueMode_outlen (s : State) : (prologueMode s).outlen = s.outlen := rfl
@[simp] theorem prologueMode_ip (s : State) : (prologueMode s).ip = 0 := rfl
@[simp] theorem prologueMode_rc (s : State) : (prologueMode s).rc = 0 := rfl
@[simp] theorem prologueMode_lb (s : State) : (prologueMode s).lb = [] := rfl
@[simp] theorem prologueMode_cmode (s : State) : (prologueMode s).cmode = s.cmode := rfl
@[simp] theorem prologueMode_busy (s : State) : (prologueMode s).busy = true := rfl
@[simp] theorem prologueMode_done (s : State) : (prologueMode s).done = false := rfl
@[simp] theorem prologueMode_fault (s : State) : (prologueMode s).fault = s.fault := rfl
@[simp] theorem prologueMode_finfo (s : State) : (prologueMode s).finfo = s.finfo := rfl
@[simp] theorem prologueMode_par (s : State) : (prologueMode s).par = s.par := rfl
@[simp] theorem prologueMode_host (s : State) : (prologueMode s).host = s.host := rfl

/-! ### The prologue (R37) -/

@[simp] theorem prologue_inBuf (s : State) : (prologue s).inBuf = s.inBuf := rfl
@[simp] theorem prologue_inlen (s : State) : (prologue s).inlen = s.inlen := rfl
@[simp] theorem prologue_img (s : State) : (prologue s).img = s.img := rfl
@[simp] theorem prologue_w (s : State) : (prologue s).w = s.w := rfl
@[simp] theorem prologue_h (s : State) : (prologue s).h = s.h := rfl
@[simp] theorem prologue_fmt (s : State) : (prologue s).fmt = s.fmt := rfl
@[simp] theorem prologue_x (s : State) : (prologue s).x = s.x := rfl
@[simp] theorem prologue_sc (s : State) : (prologue s).sc = s.sc := rfl
@[simp] theorem prologue_yoff (s : State) : (prologue s).yoff = s.yoff := rfl
@[simp] theorem prologue_marg (s : State) : (prologue s).marg = s.marg := rfl
@[simp] theorem prologue_outBuf (s : State) : (prologue s).outBuf = s.outBuf := rfl
@[simp] theorem prologue_outlen (s : State) : (prologue s).outlen = 0 := rfl
@[simp] theorem prologue_ip (s : State) : (prologue s).ip = 0 := rfl
@[simp] theorem prologue_rc (s : State) : (prologue s).rc = 0 := rfl
@[simp] theorem prologue_lb (s : State) : (prologue s).lb = [] := rfl
@[simp] theorem prologue_cmode (s : State) : (prologue s).cmode = s.cmode := rfl
@[simp] theorem prologue_busy (s : State) : (prologue s).busy = true := rfl
@[simp] theorem prologue_done (s : State) : (prologue s).done = false := rfl
@[simp] theorem prologue_fault (s : State) : (prologue s).fault = s.fault := rfl
@[simp] theorem prologue_finfo (s : State) : (prologue s).finfo = s.finfo := rfl
@[simp] theorem prologue_par (s : State) : (prologue s).par = s.par := rfl
@[simp] theorem prologue_host (s : State) : (prologue s).host = s.host := rfl

/-! ### The epilogue (R38) -/

@[simp] theorem epilogue_inBuf (s : State) : (epilogue s).inBuf = s.inBuf := rfl
@[simp] theorem epilogue_inlen (s : State) : (epilogue s).inlen = s.inlen := rfl
@[simp] theorem epilogue_img (s : State) : (epilogue s).img = s.img := rfl
@[simp] theorem epilogue_w (s : State) : (epilogue s).w = s.w := rfl
@[simp] theorem epilogue_h (s : State) : (epilogue s).h = s.h := rfl
@[simp] theorem epilogue_fmt (s : State) : (epilogue s).fmt = s.fmt := rfl
@[simp] theorem epilogue_x (s : State) : (epilogue s).x = s.x := rfl
@[simp] theorem epilogue_sc (s : State) : (epilogue s).sc = s.sc := rfl
@[simp] theorem epilogue_yoff (s : State) : (epilogue s).yoff = s.yoff := rfl
@[simp] theorem epilogue_marg (s : State) : (epilogue s).marg = s.marg := rfl
@[simp] theorem epilogue_outBuf (s : State) : (epilogue s).outBuf = s.outBuf := rfl
@[simp] theorem epilogue_outlen (s : State) : (epilogue s).outlen = s.outlen := rfl
@[simp] theorem epilogue_ip (s : State) : (epilogue s).ip = s.ip := rfl
@[simp] theorem epilogue_rc (s : State) : (epilogue s).rc = s.rc := rfl
@[simp] theorem epilogue_lb (s : State) : (epilogue s).lb = s.lb := rfl
@[simp] theorem epilogue_cmode (s : State) : (epilogue s).cmode = s.cmode := rfl
@[simp] theorem epilogue_busy (s : State) : (epilogue s).busy = false := rfl
@[simp] theorem epilogue_done (s : State) : (epilogue s).done = true := rfl
@[simp] theorem epilogue_fault (s : State) : (epilogue s).fault = s.fault := rfl
@[simp] theorem epilogue_finfo (s : State) : (epilogue s).finfo = s.finfo := rfl
@[simp] theorem epilogue_par (s : State) : (epilogue s).par = s.par := rfl
@[simp] theorem epilogue_host (s : State) : (epilogue s).host = s.host := rfl

/-! ### Reset (R200, R202) -/

@[simp] theorem resetBlock_inBuf (s : State) : (resetBlock s).inBuf = s.inBuf := rfl
@[simp] theorem resetBlock_inlen (s : State) : (resetBlock s).inlen = s.inlen := rfl
@[simp] theorem resetBlock_img (s : State) : (resetBlock s).img = s.img := rfl
@[simp] theorem resetBlock_w (s : State) : (resetBlock s).w = s.w := rfl
@[simp] theorem resetBlock_h (s : State) : (resetBlock s).h = s.h := rfl
@[simp] theorem resetBlock_fmt (s : State) : (resetBlock s).fmt = s.fmt := rfl
@[simp] theorem resetBlock_x (s : State) : (resetBlock s).x = s.x := rfl
@[simp] theorem resetBlock_sc (s : State) : (resetBlock s).sc = s.sc := rfl
@[simp] theorem resetBlock_yoff (s : State) : (resetBlock s).yoff = s.yoff := rfl
@[simp] theorem resetBlock_marg (s : State) : (resetBlock s).marg = s.marg := rfl
@[simp] theorem resetBlock_outBuf (s : State) : (resetBlock s).outBuf = s.outBuf := rfl
@[simp] theorem resetBlock_outlen (s : State) : (resetBlock s).outlen = 0 := rfl
@[simp] theorem resetBlock_ip (s : State) : (resetBlock s).ip = 0 := rfl
@[simp] theorem resetBlock_rc (s : State) : (resetBlock s).rc = 0 := rfl
@[simp] theorem resetBlock_lb (s : State) : (resetBlock s).lb = [] := rfl
@[simp] theorem resetBlock_cmode (s : State) : (resetBlock s).cmode = .unset := rfl
@[simp] theorem resetBlock_busy (s : State) : (resetBlock s).busy = false := rfl
@[simp] theorem resetBlock_done (s : State) : (resetBlock s).done = false := rfl
@[simp] theorem resetBlock_fault (s : State) : (resetBlock s).fault = .none := rfl
@[simp] theorem resetBlock_finfo (s : State) : (resetBlock s).finfo = 0 := rfl
@[simp] theorem resetBlock_par (s : State) : (resetBlock s).par = s.par := rfl
@[simp] theorem resetBlock_host (s : State) : (resetBlock s).host = s.host := rfl

end Sys2Proof.Machine
end

