-- ==== Sys2Proof/Laws/Operands.lean ====
section
/-!
SUPPORT. What every operand read answers: bytes of `IN`, the run count, pixels, packed bits.
-/
namespace Sys2Proof.Machine

/-! ### Reads of IN -/

theorem readIn_eq_ok {s : State} {i : Nat} {b : Byte} :
    readIn s i = .ok b ↔ Memory.read s.inBuf i = some b := by
  unfold readIn; split <;> simp_all

theorem readIn_eq_error {s : State} {i : Nat} {f : Fault} :
    readIn s i = .error f ↔ Memory.read s.inBuf i = none ∧ f = .unwrittenIn i := by
  unfold readIn
  cases h : Memory.read s.inBuf i <;> simp [eq_comm]

/-- `MemRead` answers exactly the bytes that stand there. -/
theorem memRead_eq_ok {s : State} {a n : Nat} {bs : List Byte} :
    memRead s a n = .ok bs ↔ Memory.readN s.inBuf a n = some bs := by
  induction n generalizing a bs with
  | zero => simp [memRead]
  | succ n ih =>
    rw [Memory.readN_succ, memRead]
    split
    · next f hf => simp [(readIn_eq_error.1 hf).1]
    · next b hb =>
      rw [readIn_eq_ok] at hb
      split
      · next f hf =>
        simp only [reduceCtorEq, false_iff]
        rintro ⟨b', cs, -, -, h⟩
        rw [← ih, hf] at h; cases h
      · next cs hcs =>
        rw [ih] at hcs
        simp [hb, hcs, eq_comm]

/-- `MemRead` stops at the first byte nothing has written. -/
theorem memRead_eq_error {s : State} {a n : Nat} {f : Fault} (h : memRead s a n = .error f) :
    ∃ j, a ≤ j ∧ j < a + n ∧ Memory.read s.inBuf j = none ∧ f = .unwrittenIn j := by
  induction n generalizing a with
  | zero => simp [memRead] at h
  | succ n ih =>
    rw [memRead] at h
    split at h
    · next g hg =>
      cases h
      exact ⟨a, by omega, by omega, readIn_eq_error.1 hg⟩
    · split at h
      · next g hg =>
        cases h
        obtain ⟨j, h1, h2, h3⟩ := ih hg
        exact ⟨j, by omega, by omega, h3⟩
      · cases h

/-! ### The run count -/

/-- Everything the inner loop of `COMPRESS` answers (R91, R96): it counts up to `rc + fuel`, every byte counted
equals `b`, and it stops early only where the next byte differs or the row ends. -/
theorem countRun_eq_ok {s : State} {b : Byte} {fuel rc r : Nat} (h : countRun s b fuel rc = .ok r) :
    rc ≤ r ∧ r ≤ rc + fuel ∧
      (∀ j, rc < j → j ≤ r → s.ip + j < s.inlen ∧ Memory.read s.inBuf (s.ip + j) = some b) ∧
      (r < rc + fuel → s.ip + r + 1 < s.inlen →
        ∃ c, Memory.read s.inBuf (s.ip + r + 1) = some c ∧ c ≠ b) := by
  induction fuel generalizing rc with
  | zero =>
    simp only [countRun, Except.ok.injEq] at h
    subst h
    exact ⟨by omega, by omega, by intros; omega, by omega⟩
  | succ fuel ih =>
    rw [countRun] at h
    split at h
    · next hlt =>
      split at h
      · cases h
      · next c hc =>
        rw [readIn_eq_ok] at hc
        split at h
        · next he =>
          subst he
          obtain ⟨h1, h2, h3, h4⟩ := ih h
          refine ⟨by omega, by omega, fun j hj1 hj2 => ?_, fun hr hl => h4 (by omega) hl⟩
          by_cases hj : j = rc + 1
          · subst hj; exact ⟨by omega, by rw [← Nat.add_assoc]; exact hc⟩
          · exact h3 j (by omega) hj2
        · next hne =>
          cases h
          exact ⟨by omega, by omega, by intros; omega, fun _ _ => ⟨c, hc, hne⟩⟩
    · next hge =>
      cases h
      exact ⟨by omega, by omega, by intros; omega, fun _ hl => absurd hl hge⟩

/-- The inner loop stops the model only at a byte of the row that nothing has written. -/
theorem countRun_eq_error {s : State} {b : Byte} {fuel rc : Nat} {f : Fault}
    (h : countRun s b fuel rc = .error f) :
    ∃ j, s.ip + rc < j ∧ j < s.inlen ∧ Memory.read s.inBuf j = none ∧ f = .unwrittenIn j := by
  induction fuel generalizing rc with
  | zero => simp [countRun] at h
  | succ fuel ih =>
    rw [countRun] at h
    split at h
    · next hlt =>
      split at h
      · next g hg =>
        cases h
        exact ⟨_, by omega, hlt, readIn_eq_error.1 hg⟩
      · split at h
        · obtain ⟨j, h1, h2⟩ := ih h; exact ⟨j, by omega, h2⟩
        · cases h
    · cases h

/-! ### Pixels -/

theorem pixRead_eq_ok {s : State} {x y : Nat} {p : Pixel} :
    pixRead s x y = .ok p ↔ Image.read s.img (x, y) = some p := by
  unfold pixRead; split <;> simp_all

theorem pixRead_eq_error {s : State} {x y : Nat} {f : Fault} :
    pixRead s x y = .error f ↔ Image.read s.img (x, y) = none ∧ f = .unwrittenPixel x y := by
  unfold pixRead
  cases h : Image.read s.img (x, y) <;> simp [eq_comm]

/-! ### Packed bits (R53, R136) -/

/-- `v[i] <- bit`, read at any bit. -/
theorem getLsbD_setBit (v : Byte) (i j : Nat) (b : Bool) (hi : i < 8) :
    (setBit v i b).getLsbD j = if j = i then b else v.getLsbD j := by
  unfold setBit
  by_cases h : j = i
  · subst h; cases b <;> simp [hi]
  · have h' : ¬ i = j := fun e => h e.symm
    cases b <;> simp [h, h', BitVec.getLsbD_twoPow]
    exact fun hv => BitVec.lt_of_getLsbD hv

/-- Bit `7 − k` of a packed byte is the bit of position `k`. -/
theorem getLsbD_packFrom (bs : List Bool) (k : Nat) (v : Byte) (h : k + bs.length ≤ 8) (j : Nat) (hj : j < 8) :
    (packFrom k v bs).getLsbD (7 - j) =
      if k ≤ j ∧ j < k + bs.length then bs.getD (j - k) false else v.getLsbD (7 - j) := by
  induction bs generalizing k v with
  | nil => rw [if_neg (by simp)]; rfl
  | cons b bs ih =>
    simp only [List.length_cons] at h
    rw [packFrom, ih (k + 1) _ (by omega), getLsbD_setBit _ _ _ _ (by omega)]
    by_cases h1 : j = k
    · subst h1; simp
    · have h2 : ¬ 7 - j = 7 - k := by omega
      by_cases h3 : k + 1 ≤ j ∧ j < k + 1 + bs.length
      · have h4 : k ≤ j ∧ j < k + (b :: bs).length := by simp; omega
        have h5 : j - k = (j - (k + 1)) + 1 := by omega
        rw [if_pos h3, if_pos h4, h5, List.getD_cons_succ]
      · have h4 : ¬ (k ≤ j ∧ j < k + (b :: bs).length) := by simp; omega
        rw [if_neg h3, if_neg h4, if_neg h2]

end Sys2Proof.Machine
end

