-- ==== Sys2Proof/Laws/Flow.lean ====
section
/-!
SUPPORT. What the shared operations of Machine/Ops.lean can do, said once: `andThen`, the tests of a start, the end
of an operation; and what the body of an operation leaves unchanged (`BodyKeeps`), composed from its
pieces.
-/
namespace Sys2Proof.Machine

/-! ### Sequencing -/

theorem Flow.andThen_eq_go {r : Flow} {k : State → Flow} {t : State} :
    r.andThen k = .go t ↔ ∃ s, r = .go s ∧ k s = .go t := by
  cases r <;> simp [Flow.andThen]

theorem Flow.andThen_eq_raised {r : Flow} {k : State → Flow} {t : State} :
    r.andThen k = .raised t ↔ r = .raised t ∨ ∃ s, r = .go s ∧ k s = .raised t := by
  cases r <;> simp [Flow.andThen]

theorem Flow.andThen_eq_stop {r : Flow} {k : State → Flow} {f : Fault} :
    r.andThen k = .stop f ↔ r = .stop f ∨ ∃ s, r = .go s ∧ k s = .stop f := by
  cases r <;> simp [Flow.andThen]

/-! ### Start and end -/

/-- A start that is accepted runs the operation. -/
theorem startChecked_of_ready {fits : State → Bool} {run : State → Host.Outcome State Fault Refusal}
    {s : State} (h : Ready s) (hf : fits s = true) : startChecked fits run s = run s := by
  simp [startChecked, h.idle, h.noFault, hf]

/-- A start whose operands do not fit has no meaning. -/
theorem startChecked_of_unfit {fits : State → Bool} {run : State → Host.Outcome State Fault Refusal}
    {s : State} (h : Ready s) (hf : fits s = false) :
    startChecked fits run s = .refused .overCapacity := by
  simp [startChecked, h.idle, h.noFault, hf]

/-- Everything a start can answer: it has no meaning while the block is busy, it changes nothing beside a recorded
fault, it has no meaning because its operands do not fit, or it runs. -/
theorem startChecked_cases (fits : State → Bool) (run : State → Host.Outcome State Fault Refusal)
    (s : State) :
    (s.busy = true ∧ startChecked fits run s = .refused .startWhileBusy) ∨
      (s.busy = false ∧ s.fault ≠ .none ∧ startChecked fits run s = .next s) ∨
      (Ready s ∧ fits s = false ∧ startChecked fits run s = .refused .overCapacity) ∨
      (Ready s ∧ fits s = true ∧ startChecked fits run s = run s) := by
  unfold startChecked
  cases hb : s.busy
  · by_cases hf : s.fault = .none
    · cases hfit : fits s <;> simp [hf]
      · exact ⟨hb, hf⟩
      · exact ⟨hb, hf⟩
    · simp [hf]
  · simp

/-- A state is held exactly when its result fits `CAP_OUT`. -/
theorem heldOrRefused_eq_next {s t u : State} :
    heldOrRefused s t = .next u ↔ t.outlen ≤ s.par.capOut ∧ u = t := by
  unfold heldOrRefused
  split
  · simp [*, eq_comm]
  · simp [*]

theorem heldOrRefused_of_lt {s t : State} (h : s.par.capOut < t.outlen) :
    heldOrRefused s t = .refused .overCapacity := if_neg (by omega)

/-- Everything an operation that writes `OUT` can answer when its operands fit: its state is held, or its result is too
long, or the body stopped the model. -/
theorem operation_cases {fits : State → Bool} {body : State → Flow} {s : State} (h : Ready s)
    (hf : fits s = true) :
    (∃ t, body (prologue s) = .go t ∧
        ((t.outlen ≤ s.par.capOut ∧ operation fits body s = .next (epilogue t)) ∨
          (s.par.capOut < t.outlen ∧ operation fits body s = .refused .overCapacity))) ∨
      (∃ t, body (prologue s) = .raised t ∧
        ((t.outlen ≤ s.par.capOut ∧ operation fits body s = .next t) ∨
          (s.par.capOut < t.outlen ∧ operation fits body s = .refused .overCapacity))) ∨
      ∃ f, body (prologue s) = .stop f ∧ operation fits body s = .fault f := by
  rw [operation, startChecked_of_ready h hf]
  cases hb : body (prologue s) with
  | go t =>
    refine .inl ⟨t, rfl, ?_⟩
    by_cases hc : t.outlen ≤ s.par.capOut
    · exact .inl ⟨hc, by simp [finish, heldOrRefused, hc]⟩
    · exact .inr ⟨by omega, by simp [finish, heldOrRefused, hc]⟩
  | raised t =>
    refine .inr (.inl ⟨t, rfl, ?_⟩)
    by_cases hc : t.outlen ≤ s.par.capOut
    · exact .inl ⟨hc, by simp [finish, heldOrRefused, hc]⟩
    · exact .inr ⟨by omega, by simp [finish, heldOrRefused, hc]⟩
  | stop f => exact .inr (.inr ⟨f, rfl, rfl⟩)

/-- If an operation answers a next state, a recorded fault kept it from running, or its body ended in one of two
ways. -/
theorem operation_next {fits : State → Bool} {body : State → Flow} {s t : State}
    (h : operation fits body s = .next t) :
    (s.fault ≠ .none ∧ t = s) ∨ (Ready s ∧ fits s = true ∧ t.outlen ≤ s.par.capOut ∧
      ((∃ u, body (prologue s) = .go u ∧ t = epilogue u) ∨ body (prologue s) = .raised t)) := by
  rcases startChecked_cases fits (fun u => finish u (body (prologue u))) s with
    ⟨-, h1⟩ | ⟨-, hf, h1⟩ | ⟨-, -, h1⟩ | ⟨hr, hf, -⟩
  · rw [operation, h1] at h; cases h
  · rw [operation, h1] at h; cases h; exact .inl ⟨hf, rfl⟩
  · rw [operation, h1] at h; cases h
  · rcases operation_cases (body := body) hr hf with
      ⟨u, hu, ⟨hc, h2⟩ | ⟨hc, h2⟩⟩ | ⟨u, hu, ⟨hc, h2⟩ | ⟨hc, h2⟩⟩ | ⟨f, hu, h2⟩
    · rw [h2] at h; cases h; exact .inr ⟨hr, hf, hc, .inl ⟨u, hu, rfl⟩⟩
    · rw [h2] at h; cases h
    · rw [h2] at h; cases h; exact .inr ⟨hr, hf, hc, .inr hu⟩
    · rw [h2] at h; cases h
    · rw [h2] at h; cases h

/-- A body that goes on and whose result is held completes the operation. -/
theorem operation_of_go {fits : State → Bool} {body : State → Flow} {s t : State} (h : Ready s)
    (hf : fits s = true) (hb : body (prologue s) = .go t) :
    operation fits body s = if t.outlen ≤ s.par.capOut then .next (epilogue t) else .refused .overCapacity := by
  rw [operation, startChecked_of_ready h hf, hb]; rfl

theorem operation_of_raised {fits : State → Bool} {body : State → Flow} {s t : State} (h : Ready s)
    (hf : fits s = true) (hb : body (prologue s) = .raised t) :
    operation fits body s = if t.outlen ≤ s.par.capOut then .next t else .refused .overCapacity := by
  rw [operation, startChecked_of_ready h hf, hb]; rfl

theorem operation_of_stop {fits : State → Bool} {body : State → Flow} {s : State} {f : Fault} (h : Ready s)
    (hf : fits s = true) (hb : body (prologue s) = .stop f) : operation fits body s = .fault f := by
  rw [operation, startChecked_of_ready h hf, hb]; rfl

/-! ### What a body leaves unchanged -/

theorem SameHostSide.refl (s : State) : SameHostSide s s :=
  ⟨rfl, rfl, rfl, rfl, rfl, rfl, rfl, rfl, rfl, rfl, rfl, rfl⟩

theorem SameHostSide.trans {s t u : State} (a : SameHostSide s t) (b : SameHostSide t u) :
    SameHostSide s u :=
  ⟨b.1.trans a.1, b.2.trans a.2, b.3.trans a.3, b.4.trans a.4, b.5.trans a.5, b.6.trans a.6,
    b.7.trans a.7, b.8.trans a.8, b.9.trans a.9, b.10.trans a.10, b.11.trans a.11, b.12.trans a.12⟩

/-- What every piece of a body that goes on keeps: the host's side, `CMODE`, `STATUS`, the fault registers, and
every byte of `OUT` but those it appends. -/
structure BodyKeeps (s t : State) : Prop where
  hostSide : SameHostSide s t
  cmode : t.cmode = s.cmode
  busy : t.busy = s.busy
  done : t.done = s.done
  fault : t.fault = s.fault
  finfo : t.finfo = s.finfo
  grows : s.outlen ≤ t.outlen
  outside : ∀ a, a < s.outlen ∨ t.outlen ≤ a → Memory.read t.outBuf a = Memory.read s.outBuf a
  written : ∀ a, s.outlen ≤ a → a < t.outlen → (Memory.read t.outBuf a).isSome = true
  wf : Memory.wf s.outBuf = true → Memory.wf t.outBuf = true

theorem BodyKeeps.refl (s : State) : BodyKeeps s s :=
  ⟨.refl s, rfl, rfl, rfl, rfl, rfl, le_refl _, fun _ _ => rfl, fun _ h1 h2 => by omega, id⟩

theorem BodyKeeps.trans {s t u : State} (a : BodyKeeps s t) (b : BodyKeeps t u) : BodyKeeps s u where
  hostSide := a.hostSide.trans b.hostSide
  cmode := b.cmode.trans a.cmode
  busy := b.busy.trans a.busy
  done := b.done.trans a.done
  fault := b.fault.trans a.fault
  finfo := b.finfo.trans a.finfo
  grows := le_trans a.grows b.grows
  outside := fun i hi => by
    have h1 := a.grows; have h2 := b.grows
    rw [b.outside i (by omega), a.outside i (by omega)]
  written := fun i h1 h2 => by
    by_cases h : i < t.outlen
    · rw [b.outside i (.inl h)]; exact a.written i h1 h
    · exact b.written i (by omega) h2
  wf := fun h => b.wf (a.wf h)

theorem emit_keeps (v : List Byte) (s : State) : BodyKeeps s (emit v s) where
  hostSide := ⟨rfl, rfl, rfl, rfl, rfl, rfl, rfl, rfl, rfl, rfl, rfl, rfl⟩
  cmode := rfl
  busy := rfl
  done := rfl
  fault := rfl
  finfo := rfl
  grows := by simp
  outside := fun a h => by
    simp only [emit_outlen, emit_outBuf] at *
    exact Memory.read_writeAll_outside _ _ _ _ (by omega)
  written := fun a h1 h2 => by
    simp only [emit_outlen, emit_outBuf] at *
    rw [Memory.read_writeAll, if_pos ⟨h1, h2⟩]
    simp; omega
  wf := fun h => Memory.wf_writeAll _ _ _ h

/-- Updates of `IP`, `RC`, `LB` are no part of what a body keeps. -/
theorem setIp_keeps (n : Nat) (s : State) : BodyKeeps s (setIp n s) :=
  { BodyKeeps.refl s with hostSide := { SameHostSide.refl s with } }

theorem setRc_keeps (n : Nat) (s : State) : BodyKeeps s (setRc n s) :=
  { BodyKeeps.refl s with hostSide := { SameHostSide.refl s with } }

theorem pushLb_keeps (b : Byte) (s : State) : BodyKeeps s (pushLb b s) :=
  { BodyKeeps.refl s with hostSide := { SameHostSide.refl s with } }

theorem clearLb_keeps (s : State) : BodyKeeps s (clearLb s) :=
  { BodyKeeps.refl s with hostSide := { SameHostSide.refl s with } }

theorem flush_keeps (s : State) : BodyKeeps s (flush s) := by
  unfold flush
  split
  · exact ((emit_keeps [literalTag s.lb.length] s).trans (emit_keeps s.lb _)).trans (clearLb_keeps _)
  · exact .refl s

/-- How a body that keeps all this can end: it goes on; it has raised a fault in a state that keeps it, with the
cursor where the detail says; or it stops the model. -/
def FlowKeeps (s : State) : Flow → Prop
  | .go t => BodyKeeps s t
  | .raised t => ∃ (u : State) (f : FaultCode) (info : Nat),
      BodyKeeps s u ∧ t = raise f info u ∧ f ≠ .none ∧ f.detailFits info u.ip
  | .stop _ => True

theorem FlowKeeps.andThen {s : State} {r : Flow} {k : State → Flow} (hr : FlowKeeps s r)
    (hk : ∀ t, r = .go t → FlowKeeps t (k t)) : FlowKeeps s (r.andThen k) := by
  cases r with
  | raised t => exact hr
  | stop f => trivial
  | go t =>
    have hk := hk t rfl
    simp only [Flow.andThen]
    cases h : k t with
    | go u => rw [h] at hk; exact BodyKeeps.trans hr hk
    | stop f => trivial
    | raised u =>
      rw [h] at hk
      obtain ⟨v, f, info, h1, h2, h3⟩ := hk
      exact ⟨v, f, info, BodyKeeps.trans hr h1, h2, h3⟩

/-! ### Each body -/

theorem litBody_keeps (n : Nat) (s : State) : FlowKeeps s (litBody n s) := by
  unfold litBody
  split
  · exact ⟨s, .malformedInput, s.ip, .refl s, rfl, by decide, rfl⟩
  · split
    · trivial
    · exact (emit_keeps _ s).trans (setIp_keeps _ _)

theorem repBody_keeps (m : Nat) (s : State) : FlowKeeps s (repBody m s) := by
  unfold repBody
  split
  · exact ⟨s, .malformedInput, s.ip, .refl s, rfl, by decide, rfl⟩
  · split
    · trivial
    · exact (emit_keeps _ s).trans (setIp_keeps _ _)

theorem decompressPass_keeps (s : State) : FlowKeeps s (decompressPass s) := by
  unfold decompressPass
  split
  · trivial
  · split
    · exact repBody_keeps _ s
    · exact litBody_keeps _ s

theorem decompressLoop_keeps (n : Nat) (s : State) : FlowKeeps s (decompressLoop n s) := by
  induction n generalizing s with
  | zero => exact BodyKeeps.refl s
  | succ n ih =>
    unfold decompressLoop
    split
    · exact (decompressPass_keeps s).andThen fun t _ => ih t
    · exact BodyKeeps.refl s

theorem repeatBranch_keeps (b : Byte) (s : State) : BodyKeeps s (repeatBranch b s) :=
  (((flush_keeps s).trans (emit_keeps _ _)).trans (emit_keeps _ _)).trans (setIp_keeps _ _)

theorem literalBranch_keeps (b : Byte) (s : State) : BodyKeeps s (literalBranch b s) := by
  have h : BodyKeeps s (setIp (s.ip + 1) (pushLb b s)) := (pushLb_keeps b s).trans (setIp_keeps _ _)
  unfold literalBranch splitLiteral
  split
  · exact h.trans (flush_keeps _)
  · exact h

theorem compressPass_keeps (s : State) : FlowKeeps s (compressPass s) := by
  unfold compressPass
  split
  · trivial
  · split
    · trivial
    · split
      · exact (setRc_keeps _ s).trans (repeatBranch_keeps _ _)
      · exact (setRc_keeps _ s).trans (literalBranch_keeps _ _)

theorem compressLoop_keeps (n : Nat) (s : State) : FlowKeeps s (compressLoop n s) := by
  induction n generalizing s with
  | zero => exact BodyKeeps.refl s
  | succ n ih =>
    unfold compressLoop
    split
    · exact (compressPass_keeps s).andThen fun t _ => ih t
    · exact BodyKeeps.refl s

theorem compressBody_keeps (s : State) : FlowKeeps s (compressBody s) :=
  (compressLoop_keeps _ s).andThen fun t _ => flush_keeps t

theorem decompressBody_keeps (s : State) : FlowKeeps s (decompressBody s) := decompressLoop_keeps _ s

theorem rasterLoop_keeps (n i : Nat) (s : State) : FlowKeeps s (rasterLoop n i s) := by
  induction n generalizing i s with
  | zero => exact BodyKeeps.refl s
  | succ n ih =>
    unfold rasterLoop
    split
    · trivial
    · next v _ =>
      have h := ih (i + 1) (emit [v] s)
      have he := emit_keeps [v] s
      exact FlowKeeps.andThen (r := .go (emit [v] s)) he (fun t ht => by cases ht; exact h)

theorem rasterizeBody_keeps (s : State) : FlowKeeps s (rasterizeBody s) := rasterLoop_keeps _ _ s

theorem rawBody_keeps (s : State) : FlowKeeps s (rawBody s) := by
  unfold rawBody
  split
  · trivial
  · exact (emit_keeps _ s).trans (setIp_keeps _ _)

theorem rowBody_keeps {codec : State → Flow} (h : ∀ s, FlowKeeps s (codec s)) (s : State) :
    FlowKeeps s (rowBody codec s) := by
  unfold rowBody
  split
  · exact ⟨s, .modeUnset, 0, .refl s, rfl, by decide, rfl⟩
  · exact rawBody_keeps s
  · exact h s

end Sys2Proof.Machine
end

