-- ==== Sys2Proof/Laws/Working.lean ====
section
/-!
SUPPORT. The working registers `RC` and `LB` (R26, R27): which bodies leave them alone, and that every body ends with
`LB` empty and `RC` within its bound. And what a body that raises nothing is.
-/
namespace Sys2Proof.Machine

/-- Every state a flow ends in has a property. -/
def FlowAll (P : State → Prop) : Flow → Prop
  | .go t => P t
  | .raised t => P t
  | .stop _ => True

theorem FlowAll.andThen {P : State → Prop} {r : Flow} {k : State → Flow} (hr : FlowAll P r)
    (hk : ∀ t, P t → FlowAll P (k t)) : FlowAll P (r.andThen k) := by
  cases r with
  | go t => exact hk t hr
  | raised t => exact hr
  | stop f => trivial

/-- `RC` and `LB` are as they were. -/
structure SameWorking (s t : State) : Prop where
  rc : t.rc = s.rc
  lb : t.lb = s.lb

theorem litBody_working (n : Nat) (s : State) : FlowAll (SameWorking s) (litBody n s) := by
  unfold litBody
  split
  · exact ⟨rfl, rfl⟩
  · split
    · trivial
    · exact ⟨rfl, rfl⟩

theorem repBody_working (m : Nat) (s : State) : FlowAll (SameWorking s) (repBody m s) := by
  unfold repBody
  split
  · exact ⟨rfl, rfl⟩
  · split
    · trivial
    · exact ⟨rfl, rfl⟩

theorem decompressPass_working (s : State) : FlowAll (SameWorking s) (decompressPass s) := by
  unfold decompressPass
  split
  · trivial
  · split
    · exact repBody_working _ s
    · exact litBody_working _ s

theorem decompressLoop_working (n : Nat) (s u : State) (h : SameWorking s u) :
    FlowAll (SameWorking s) (decompressLoop n u) := by
  induction n generalizing u with
  | zero => exact h
  | succ n ih =>
    unfold decompressLoop
    split
    · refine FlowAll.andThen ?_ ih
      have := decompressPass_working u
      revert this
      cases decompressPass u with
      | go t => exact fun g => ⟨g.rc.trans h.rc, g.lb.trans h.lb⟩
      | raised t => exact fun g => ⟨g.rc.trans h.rc, g.lb.trans h.lb⟩
      | stop f => exact fun g => g
    · exact h

theorem decompressBody_working (s : State) : FlowAll (SameWorking s) (decompressBody s) :=
  decompressLoop_working _ s s ⟨rfl, rfl⟩

theorem rasterLoop_working (n i : Nat) (s : State) : FlowAll (SameWorking s) (rasterLoop n i s) := by
  induction n generalizing i s with
  | zero => exact ⟨rfl, rfl⟩
  | succ n ih =>
    unfold rasterLoop
    split
    · trivial
    · next v _ =>
      have h := ih (i + 1) (emit [v] s)
      revert h
      cases rasterLoop n (i + 1) (emit [v] s) with
      | go t => exact fun g => ⟨g.rc, g.lb⟩
      | raised t => exact fun g => ⟨g.rc, g.lb⟩
      | stop f => exact fun g => g

theorem rasterizeBody_working (s : State) : FlowAll (SameWorking s) (rasterizeBody s) := rasterLoop_working _ _ s

theorem rawBody_working (s : State) : FlowAll (SameWorking s) (rawBody s) := by
  unfold rawBody
  split
  · trivial
  · exact ⟨rfl, rfl⟩

/-! ### COMPRESS -/

theorem flush_lb (s : State) : (flush s).lb = [] := by
  unfold flush
  split
  · rfl
  · next h => exact List.length_eq_zero_iff.1 (by omega)

@[simp] theorem flush_rc (s : State) : (flush s).rc = s.rc := by unfold flush; split <;> rfl

theorem literalBranch_rc (b : Byte) (s : State) : (literalBranch b s).rc = s.rc := by
  unfold literalBranch splitLiteral; split <;> simp

/-- A pass of `COMPRESS` counts at most 128 (R96) and raises nothing (R99). -/
theorem compressPass_cases (s : State) :
    (∃ t, compressPass s = .go t ∧ t.rc ≤ 128) ∨ ∃ f, compressPass s = .stop f := by
  unfold compressPass
  split
  · next f _ => exact .inr ⟨f, rfl⟩
  · split
    · next f _ => exact .inr ⟨f, rfl⟩
    · next rc hc =>
      have hb := (countRun_eq_ok hc).2.1
      simp only [Config.runExtraMax] at hb
      split
      · exact .inl ⟨_, rfl, by simp only [repeatBranch, setIp_rc, emit_rc, flush_rc, setRc_rc]; omega⟩
      · exact .inl ⟨_, rfl, by simp only [literalBranch_rc, setRc_rc]; omega⟩

theorem compressLoop_cases (n : Nat) (s : State) (h : s.rc ≤ 128) :
    (∃ t, compressLoop n s = .go t ∧ t.rc ≤ 128) ∨ ∃ f, compressLoop n s = .stop f := by
  induction n generalizing s with
  | zero => exact .inl ⟨s, rfl, h⟩
  | succ n ih =>
    unfold compressLoop
    split
    · rcases compressPass_cases s with ⟨t, ht, hr⟩ | ⟨f, hf⟩
      · rw [ht]; exact ih t hr
      · rw [hf]; exact .inr ⟨f, rfl⟩
    · exact .inl ⟨s, rfl, h⟩

/-- The body of `COMPRESS` raises nothing (R99); it goes on with `LB` empty, or stops the model. -/
theorem compressBody_cases (s : State) (h : s.rc ≤ 128) :
    (∃ t, compressBody s = .go t ∧ t.rc ≤ 128 ∧ t.lb = []) ∨ ∃ f, compressBody s = .stop f := by
  unfold compressBody
  rcases compressLoop_cases s.inlen s h with ⟨t, ht, hr⟩ | ⟨f, hf⟩
  · exact .inl ⟨flush t, by rw [ht]; rfl, by simpa using hr, flush_lb t⟩
  · exact .inr ⟨f, by rw [hf]; rfl⟩

/-- `LB` empty and `RC` within its bound, as between steps. -/
def Rested (t : State) : Prop := t.lb = [] ∧ t.rc ≤ 128

theorem FlowAll.rested {s : State} {r : Flow} (h : FlowAll (SameWorking s) r) (hs : Rested s) : FlowAll Rested r := by
  cases r with
  | go t => exact ⟨h.lb.trans hs.1, h.rc ▸ hs.2⟩
  | raised t => exact ⟨h.lb.trans hs.1, h.rc ▸ hs.2⟩
  | stop f => trivial

theorem compressBody_rested (s : State) (h : Rested s) : FlowAll Rested (compressBody s) := by
  rcases compressBody_cases s h.2 with ⟨t, ht, h1, h2⟩ | ⟨f, hf⟩
  · rw [ht]; exact ⟨h2, h1⟩
  · rw [hf]; trivial

theorem rowBody_rested {codec : State → Flow} (hc : ∀ s, Rested s → FlowAll Rested (codec s)) (s : State)
    (h : Rested s) : FlowAll Rested (rowBody codec s) := by
  unfold rowBody
  split
  · exact h
  · exact (rawBody_working s).rested h
  · exact hc s h

theorem prologue_rested (s : State) : Rested (prologue s) := ⟨rfl, by simp⟩

end Sys2Proof.Machine
end

