-- ==== Sys2Proof/Laws/Exec.lean ====
section
/-!
SUPPORT. What `exec` is for each instruction, and what all the operations that write `OUT` have in common, so that no
later proof unfolds `exec`; then the same for `step`.
-/
namespace Sys2Proof.Machine

theorem exec_lit (n : Nat) (s : State) : exec (.lit n) s = unitStep (litBody n) s := rfl
theorem exec_rep (m : Nat) (s : State) : exec (.rep m) s = unitStep (repBody m) s := rfl
theorem exec_compress (s : State) : exec .compress s = operation rowFits compressBody s := rfl
theorem exec_decompress (s : State) : exec .decompress s = operation rowFits decompressBody s := rfl
theorem exec_rasterize (s : State) : exec .rasterize s = operation rasterFits rasterizeBody s := rfl
theorem exec_rowenc (s : State) : exec .rowenc s = operation rowFits (rowBody compressBody) s := rfl
theorem exec_rowdec (s : State) : exec .rowdec s = operation rowFits (rowBody decompressBody) s := rfl
theorem exec_setmode (s : State) :
    exec .setmode s = startChecked (fun _ => true) (fun u => finishMode (setmodeBody (prologueMode u))) s := rfl

theorem exec_setmode_of_ready {s : State} (h : Ready s) :
    exec .setmode s = finishMode (setmodeBody (prologueMode s)) := by
  rw [exec_setmode, startChecked_of_ready h rfl]

theorem rowFits_of_le {s : State} (h : s.inlen ≤ s.par.capIn) : rowFits s = true := by simp [rowFits, h]

/-- Everything the body of `SETMODE` can do (R150, R151). -/
theorem setmodeBody_cases (s : State) :
    (s.marg = 0x00#8 ∧ setmodeBody s = .go { s with cmode := .raw }) ∨
      (s.marg = 0x02#8 ∧ setmodeBody s = .go { s with cmode := .runLength }) ∨
      (s.marg ≠ 0x00#8 ∧ s.marg ≠ 0x02#8 ∧ setmodeBody s = .raised (raise .modeInvalid s.marg.toNat s)) := by
  unfold setmodeBody Config.modeRaw Config.modeRle raiseFlow
  split
  · simp [*]
  · split <;> simp [*]

theorem rowBody_unset {s : State} (codec : State → Flow) (h : s.cmode = .unset) :
    rowBody codec s = .raised (raise .modeUnset 0 s) := by rw [rowBody, h]; rfl

theorem rowBody_raw {s : State} (codec : State → Flow) (h : s.cmode = .raw) : rowBody codec s = rawBody s := by
  rw [rowBody, h]

theorem rowBody_runLength {s : State} (codec : State → Flow) (h : s.cmode = .runLength) :
    rowBody codec s = codec s := by rw [rowBody, h]

theorem rawBody_of_row {s : State} {row : List Byte} (h : inRow s = some row) :
    rawBody s = .go (setIp s.inlen (emit row s)) := by rw [rawBody, memRead_eq_ok.2 h]

theorem inRow_prologue (s : State) : inRow (prologue s) = inRow s := rfl

theorem outRow_emit_prologue (row : List Byte) (s : State) : outRow (emit row (prologue s)) = some row := by
  have h : (emit row (prologue s)).outlen = row.length := Nat.zero_add _
  rw [outRow, h]
  exact Memory.readN_writeAll (prologue s).outBuf 0 row

/-- An operation is `SETMODE`, or it is an operation that writes `OUT`, with a body that keeps the host's side and
leaves `LB` empty. -/
theorem exec_operation_cases {i : Instr} (hi : layerOf i = .operation) :
    i = .setmode ∨ ∃ (fits : State → Bool) (body : State → Flow),
      (∀ s, exec i s = operation fits body s) ∧ (∀ u, FlowKeeps u (body u)) ∧
        ∀ u, Rested u → FlowAll Rested (body u) := by
  cases i with
  | lit => cases hi
  | rep => cases hi
  | setmode => exact .inl rfl
  | compress => exact .inr ⟨_, _, exec_compress, compressBody_keeps, compressBody_rested⟩
  | decompress =>
    exact .inr ⟨_, _, exec_decompress, decompressBody_keeps, fun u hu => (decompressBody_working u).rested hu⟩
  | rasterize =>
    exact .inr ⟨_, _, exec_rasterize, rasterizeBody_keeps, fun u hu => (rasterizeBody_working u).rested hu⟩
  | rowenc =>
    exact .inr ⟨_, _, exec_rowenc, rowBody_keeps compressBody_keeps, rowBody_rested compressBody_rested⟩
  | rowdec =>
    exact .inr ⟨_, _, exec_rowdec, rowBody_keeps decompressBody_keeps,
      rowBody_rested fun u hu => (decompressBody_working u).rested hu⟩

/-- The codes name operations, never units (R77). -/
theorem layerOf_decodeOp {c : BitVec 4} {i : Instr} (h : decodeOp c = .ok i) : layerOf i = .operation := by
  unfold decodeOp at h
  split at h <;> cases h <;> rfl

/-! ### The step -/

theorem step_busy {s : State} (h : s.busy = true) : step s = interpretNext s := by simp [step, h]

theorem step_idle {s : State} (h : s.busy = false) : step s = hostNext s := by simp [step, h]

/-- Everything a move of the host that goes on can do while the block is idle. -/
theorem hostMove_cases {m : HostMove} {u t : State} (hb : u.busy = false) (h : hostMove m u = .next t) :
    (∃ hw, m = .write hw ∧ t = hostWrite hw u) ∨
    (∃ row, m = .copyResult ∧ u.done = true ∧ readOut u 0 u.outlen = .ok row ∧
      t = { u with inBuf := Memory.writeAll u.inBuf 0 row, inlen := u.outlen }) ∨
    (m = .reset ∧ t = resetBlock u) ∨
    ∃ c, m = .start c ∧ (t = u ∨ ∃ i, decodeOp c = .ok i ∧ exec i u = .next t) := by
  cases m with
  | write hw =>
    simp only [hostMove, hb, Bool.false_eq_true, if_false, Host.Outcome.next.injEq] at h
    exact .inl ⟨hw, rfl, h.symm⟩
  | copyResult =>
    simp only [hostMove, hb, Bool.false_eq_true, if_false, copyResult] at h
    split at h
    · next hd =>
      split at h
      · cases h
      · next row hr =>
        cases h
        exact .inr (.inl ⟨row, rfl, hd, hr, by rw [← hb]⟩)
    · cases h
  | reset =>
    simp only [hostMove, hb, Bool.false_eq_true, if_false, Host.Outcome.next.injEq] at h
    exact .inr (.inr (.inl ⟨rfl, h.symm⟩))
  | start c =>
    simp only [hostMove, startOp, hb, Bool.false_eq_true, if_false] at h
    refine .inr (.inr (.inr ⟨c, rfl, ?_⟩))
    split at h
    · cases h; exact .inl rfl
    · next i hi => exact .inr ⟨i, hi, h⟩

/-- Everything an idle step that goes on can do: wait, or take the host's next move. -/
theorem step_idle_cases {s t : State} (hb : s.busy = false) (h : step s = .next t) :
    (s.host = [] ∧ t = s) ∨ ∃ (m : HostMove) (ms : List HostMove), s.host = m :: ms ∧
      hostMove m { s with host := ms } = .next t := by
  rw [step_idle hb, hostNext] at h
  cases hh : s.host with
  | nil => rw [hh] at h; cases h; exact .inl ⟨rfl, rfl⟩
  | cons m ms => rw [hh] at h; exact .inr ⟨m, ms, rfl, h⟩

/-- A tag runs as one pass of the loop of R116. -/
theorem exec_decodeTag {s : State} {b : Byte} (h : Memory.read s.inBuf s.ip = some b) :
    exec (decodeTag b) s = unitStep decompressPass s := by
  have hp : decompressPass s = if b.getLsbD 7 then repBody (256 - b.toNat) s else litBody b.toNat s := by
    rw [decompressPass, readIn_eq_ok.2 h]
  rw [unitStep, hp]
  unfold decodeTag
  split
  · rw [exec_rep, unitStep]
  · rw [exec_lit, unitStep]

/-- Everything a busy step that goes on can do: end the interpretation, or run the unit at `IP`. -/
theorem step_busy_cases {s t : State} (hb : s.busy = true) (h : step s = .next t) :
    (s.inlen ≤ s.ip ∧ t = epilogue s) ∨
      (s.ip < s.inlen ∧ ∃ b, Memory.read s.inBuf s.ip = some b ∧
        ((∃ u, decompressPass s = .go u ∧ u.outlen ≤ s.par.capOut ∧ t = u) ∨ decompressPass s = .raised t)) := by
  rw [step_busy hb, interpretNext] at h
  split at h
  · next hi =>
    refine .inr ⟨hi, ?_⟩
    cases hr : readIn s s.ip with
    | error f => rw [hr] at h; cases h
    | ok b =>
      rw [hr] at h
      refine ⟨b, readIn_eq_ok.1 hr, ?_⟩
      have h : unitStep decompressPass s = .next t := exec_decodeTag (readIn_eq_ok.1 hr) ▸ h
      unfold unitStep at h
      split at h
      · next u hu =>
        obtain ⟨hc, rfl⟩ := heldOrRefused_eq_next.1 h
        exact .inl ⟨t, hu, hc, rfl⟩
      · next u hu => cases h; exact .inr hu
      · cases h
  · cases h; exact .inl ⟨by omega, rfl⟩

end Sys2Proof.Machine
end

