-- ==== Sys2Proof/Laws/Capacity.lean ====
section
/-!
SUPPORT. The parameters of the implementation play no part in the bodies of operations: a body run with others
ends in the same way. So what a start refused for its result would have left is what another block leaves.
-/
namespace Sys2Proof.Machine

/-- The same state in a block with other parameters. -/
def setPar (p : Config.Params) (s : State) : State := { s with par := p }

@[simp] theorem setPar_par (p : Config.Params) (s : State) : (setPar p s).par = p := rfl
@[simp] theorem setPar_ip (p : Config.Params) (s : State) : (setPar p s).ip = s.ip := rfl
@[simp] theorem setPar_inlen (p : Config.Params) (s : State) : (setPar p s).inlen = s.inlen := rfl
@[simp] theorem setPar_outlen (p : Config.Params) (s : State) : (setPar p s).outlen = s.outlen := rfl
@[simp] theorem setPar_lb (p : Config.Params) (s : State) : (setPar p s).lb = s.lb := rfl
@[simp] theorem setPar_rc (p : Config.Params) (s : State) : (setPar p s).rc = s.rc := rfl
@[simp] theorem setPar_cmode (p : Config.Params) (s : State) : (setPar p s).cmode = s.cmode := rfl
@[simp] theorem setPar_sc (p : Config.Params) (s : State) : (setPar p s).sc = s.sc := rfl

/-- A way to end, seen in a block with other parameters. -/
def Flow.withPar (p : Config.Params) : Flow → Flow
  | .go s => .go (setPar p s)
  | .raised s => .raised (setPar p s)
  | .stop f => .stop f

theorem Flow.andThen_withPar {p : Config.Params} {r : Flow} {k : State → Flow}
    (h : ∀ t, k (setPar p t) = (k t).withPar p) :
    (r.withPar p).andThen k = (r.andThen k).withPar p := by
  cases r with
  | go t => exact h t
  | raised t => rfl
  | stop f => rfl

/-! ### Reads and pieces -/

@[simp] theorem readIn_setPar (p : Config.Params) (s : State) (i : Nat) : readIn (setPar p s) i = readIn s i := rfl

@[simp] theorem memRead_setPar (p : Config.Params) (s : State) (a n : Nat) :
    memRead (setPar p s) a n = memRead s a n := by
  induction n generalizing a with
  | zero => rfl
  | succ n ih => simp only [memRead, readIn_setPar, ih]

@[simp] theorem countRun_setPar (p : Config.Params) (s : State) (b : Byte) (n rc : Nat) :
    countRun (setPar p s) b n rc = countRun s b n rc := by
  induction n generalizing rc with
  | zero => rfl
  | succ n ih => simp only [countRun, setPar_ip, setPar_inlen, readIn_setPar, ih]

theorem emit_setPar (p : Config.Params) (v : List Byte) (s : State) :
    emit v (setPar p s) = setPar p (emit v s) := rfl

theorem setIp_setPar (p : Config.Params) (n : Nat) (s : State) : setIp n (setPar p s) = setPar p (setIp n s) := rfl

theorem raise_setPar (p : Config.Params) (f : FaultCode) (n : Nat) (s : State) :
    raise f n (setPar p s) = setPar p (raise f n s) := rfl

theorem prologue_setPar (p : Config.Params) (s : State) : prologue (setPar p s) = setPar p (prologue s) := by
  simp [prologue, prologueMode, clearLb, setRc, setIp, statusStart, setPar]

theorem flush_setPar (p : Config.Params) (s : State) : flush (setPar p s) = setPar p (flush s) := by
  unfold flush
  rw [setPar_lb]
  split <;> rfl

/-! ### Bodies -/

theorem litBody_setPar (p : Config.Params) (n : Nat) (s : State) :
    litBody n (setPar p s) = (litBody n s).withPar p := by
  unfold litBody raiseFlow
  rw [setPar_ip, setPar_inlen, memRead_setPar]
  split
  · rfl
  · split <;> rfl

theorem repBody_setPar (p : Config.Params) (m : Nat) (s : State) :
    repBody m (setPar p s) = (repBody m s).withPar p := by
  unfold repBody raiseFlow
  rw [setPar_ip, setPar_inlen, readIn_setPar]
  split
  · rfl
  · split <;> rfl

theorem decompressLoop_setPar (p : Config.Params) (n : Nat) (s : State) :
    decompressLoop n (setPar p s) = (decompressLoop n s).withPar p := by
  induction n generalizing s with
  | zero => rfl
  | succ n ih =>
    have hp : decompressPass (setPar p s) = (decompressPass s).withPar p := by
      unfold decompressPass
      rw [setPar_ip, readIn_setPar]
      split
      · rfl
      · split
        · exact repBody_setPar p _ s
        · exact litBody_setPar p _ s
    rw [decompressLoop, decompressLoop, setPar_ip, setPar_inlen, hp]
    split
    · exact Flow.andThen_withPar ih
    · rfl

theorem literalBranch_setPar (p : Config.Params) (b : Byte) (s : State) :
    literalBranch b (setPar p s) = setPar p (literalBranch b s) := by
  have h : setIp ((setPar p s).ip + 1) (pushLb b (setPar p s)) =
      setPar p (setIp (s.ip + 1) (pushLb b s)) := rfl
  unfold literalBranch splitLiteral
  rw [h, setPar_lb]
  split
  · exact flush_setPar p _
  · rfl

theorem repeatBranch_setPar (p : Config.Params) (b : Byte) (s : State) :
    repeatBranch b (setPar p s) = setPar p (repeatBranch b s) := by
  unfold repeatBranch
  rw [flush_setPar, setPar_rc, setPar_ip, emit_setPar, emit_setPar, setIp_setPar]

theorem compressLoop_setPar (p : Config.Params) (n : Nat) (s : State) :
    compressLoop n (setPar p s) = (compressLoop n s).withPar p := by
  induction n generalizing s with
  | zero => rfl
  | succ n ih =>
    have hs : ∀ r, setRc r (setPar p s) = setPar p (setRc r s) := fun _ => rfl
    have hp : compressPass (setPar p s) = (compressPass s).withPar p := by
      unfold compressPass
      rw [setPar_ip, readIn_setPar]
      split
      · rfl
      · rw [countRun_setPar]
        split
        · rfl
        · rw [hs, repeatBranch_setPar, literalBranch_setPar]
          split <;> rfl
    rw [compressLoop, compressLoop, setPar_ip, setPar_inlen, hp]
    split
    · exact Flow.andThen_withPar ih
    · rfl

theorem decompressBody_setPar (p : Config.Params) (s : State) :
    decompressBody (setPar p s) = (decompressBody s).withPar p := decompressLoop_setPar p _ s

theorem compressBody_setPar (p : Config.Params) (s : State) :
    compressBody (setPar p s) = (compressBody s).withPar p := by
  unfold compressBody
  rw [setPar_inlen, compressLoop_setPar]
  exact Flow.andThen_withPar fun t => by rw [flush_setPar]; rfl

theorem rowBody_setPar {codec : State → Flow} (p : Config.Params)
    (h : ∀ s, codec (setPar p s) = (codec s).withPar p) (s : State) :
    rowBody codec (setPar p s) = (rowBody codec s).withPar p := by
  unfold rowBody
  rw [setPar_cmode]
  cases s.cmode with
  | unset => rfl
  | raw =>
    simp only [rawBody, setPar_inlen, memRead_setPar]
    split <;> rfl
  | runLength => exact h s

/-- What an operation refused for its result would have left is what a block with room for it leaves. -/
theorem operation_beyond {body : State → Flow} {s t : State}
    (hp : ∀ p u, body (setPar p u) = (body u).withPar p) (h : Ready s) (hf : rowFits s = true)
    (hb : body (prologue s) = .go t ∨ body (prologue s) = .raised t) :
    ∃ u : State, operation rowFits body (setPar { s.par with capOut := t.outlen } s) = .next u ∧
      u.outlen = t.outlen := by
  have hr : Ready (setPar { s.par with capOut := t.outlen } s) := ⟨h.idle, h.noFault⟩
  have hf' : rowFits (setPar { s.par with capOut := t.outlen } s) = true := hf
  rcases hb with hb | hb
  · have hb' : body (prologue (setPar { s.par with capOut := t.outlen } s)) =
        .go (setPar { s.par with capOut := t.outlen } t) := by rw [prologue_setPar, hp, hb]; rfl
    exact ⟨_, by rw [operation_of_go hr hf' hb', if_pos (by simp)], by simp⟩
  · have hb' : body (prologue (setPar { s.par with capOut := t.outlen } s)) =
        .raised (setPar { s.par with capOut := t.outlen } t) := by rw [prologue_setPar, hp, hb]; rfl
    exact ⟨_, by rw [operation_of_raised hr hf' hb', if_pos (by simp)], by simp⟩

end Sys2Proof.Machine
end

