-- ==== Sys2Proof/Laws/Tags.lean ====
section
/-!
SUPPORT. The tag of a unit as a byte: its value, its sign bit, and what a unit's bytes decode to (R14, R71 to R74).
-/
namespace Sys2Proof

theorem toNat_u8_nat (n : Nat) (h : n < 256) : (u8 (n : Int)).toNat = n := by
  rw [u8, if_pos (by omega), BitVec.toNat_ofInt]
  omega

theorem toNat_u8_neg (m : Nat) (h1 : 1 ≤ m) (h2 : m ≤ 256) : (u8 (-(m : Int))).toNat = 256 - m := by
  rw [u8, if_neg (by omega), BitVec.toNat_ofInt]
  omega

/-- The sign bit of a byte (R13, R14). -/
theorem signBit_iff (t : Byte) : t.getLsbD 7 = true ↔ 128 ≤ t.toNat := by
  revert t; decide

theorem signBit_false_iff (t : Byte) : t.getLsbD 7 = false ↔ t.toNat < 128 := by
  revert t; decide

theorem litTag_toNat (ds : List Byte) (h1 : 1 ≤ ds.length) (h2 : ds.length ≤ 128) :
    (u8 ((ds.length : Int) - 1)).toNat = ds.length - 1 := by
  have : ((ds.length : Int) - 1) = ((ds.length - 1 : Nat) : Int) := by omega
  rw [this, toNat_u8_nat _ (by omega)]

theorem repTag_toNat (k : Nat) (h1 : 2 ≤ k) (h2 : k ≤ 129) : (u8 (-((k : Int) - 1))).toNat = 257 - k := by
  have : -((k : Int) - 1) = -((k - 1 : Nat) : Int) := by omega
  rw [this, toNat_u8_neg _ (by omega) (by omega)]; omega

theorem RowUnit.wf_lit {ds : List Byte} : (RowUnit.lit ds).wf = true ↔ 1 ≤ ds.length ∧ ds.length ≤ 128 := by
  simp only [RowUnit.wf, Bool.and_eq_true, decide_eq_true_eq]
  rfl

theorem RowUnit.wf_rep {k : Nat} {b : Byte} : (RowUnit.rep k b).wf = true ↔ 2 ≤ k ∧ k ≤ 129 := by
  simp only [RowUnit.wf, Bool.and_eq_true, decide_eq_true_eq]
  rfl

/-! ### Rows -/

@[simp] theorem encodeRow_nil : encodeRow [] = [] := rfl
@[simp] theorem encodeRow_cons (u : RowUnit) (us : List RowUnit) :
    encodeRow (u :: us) = u.bytes ++ encodeRow us := by simp [encodeRow]
@[simp] theorem encodeRow_append (us vs : List RowUnit) :
    encodeRow (us ++ vs) = encodeRow us ++ encodeRow vs := by simp [encodeRow]
@[simp] theorem expand_nil : expand [] = [] := rfl
@[simp] theorem expand_cons (u : RowUnit) (us : List RowUnit) : expand (u :: us) = u.yield ++ expand us := by
  simp [expand]
@[simp] theorem expand_append (us vs : List RowUnit) : expand (us ++ vs) = expand us ++ expand vs := by
  simp [expand]

/-- A unit has at least two bytes (R71, R72). -/
theorem RowUnit.two_le_bytes {u : RowUnit} (h : u.wf = true) : 2 ≤ u.bytes.length := by
  cases u with
  | lit ds => rw [RowUnit.wf_lit] at h; simp [RowUnit.bytes]; omega
  | rep k b => simp [RowUnit.bytes]

/-- A unit's bytes decode to the unit, whatever follows. -/
theorem decodeUnit_bytes (u : RowUnit) (rest : List Byte) (h : u.wf = true) :
    decodeUnit (u.bytes ++ rest) = some (u, rest) := by
  cases u with
  | lit ds =>
    rw [RowUnit.wf_lit] at h
    have ht := litTag_toNat ds h.1 h.2
    have hs : (u8 ((ds.length : Int) - 1)).getLsbD 7 = false := (signBit_false_iff _).2 (by omega)
    have h1 : ds.length - 1 + 1 = ds.length := by omega
    have h2 : ¬ (ds ++ rest).length < ds.length := by simp
    simp only [RowUnit.bytes, List.cons_append, decodeUnit, hs, ht, h1, h2, if_false]
    simp
  | rep k b =>
    rw [RowUnit.wf_rep] at h
    have ht := repTag_toNat k h.1 h.2
    have hs : (u8 (-((k : Int) - 1))).getLsbD 7 = true := (signBit_iff _).2 (by omega)
    have h1 : 257 - (257 - k) = k := by omega
    simp only [RowUnit.bytes, List.cons_append, List.nil_append, decodeUnit, hs, ht, h1, if_true]

/-- A unit that is decoded is well-formed, and its bytes stand in front of the rest. -/
theorem decodeUnit_eq_some {bs rest : List Byte} {u : RowUnit} (h : decodeUnit bs = some (u, rest)) :
    u.wf = true ∧ bs = u.bytes ++ rest := by
  cases bs with
  | nil => cases h
  | cons t bs =>
    cases hs : t.getLsbD 7 with
    | true =>
      have ht := (signBit_iff t).1 hs
      have hlt := t.isLt
      cases bs with
      | nil => simp [decodeUnit, hs] at h
      | cons b more =>
        simp only [decodeUnit, hs, if_true, Option.some.injEq, Prod.mk.injEq] at h
        obtain ⟨rfl, rfl⟩ := h
        refine ⟨RowUnit.wf_rep.2 (by omega), ?_⟩
        simp only [RowUnit.bytes, List.cons_append, List.nil_append, List.cons.injEq, and_true]
        apply BitVec.eq_of_toNat_eq
        rw [repTag_toNat _ (by omega) (by omega)]; omega
    | false =>
      have ht := (signBit_false_iff t).1 hs
      simp only [decodeUnit, hs, Bool.false_eq_true, if_false] at h
      split at h
      · cases h
      · next hlen =>
        simp only [Option.some.injEq, Prod.mk.injEq] at h
        obtain ⟨rfl, rfl⟩ := h
        have hl : (bs.take (t.toNat + 1)).length = t.toNat + 1 := by simp; omega
        refine ⟨RowUnit.wf_lit.2 (by omega), ?_⟩
        simp only [RowUnit.bytes, List.cons_append, List.take_append_drop, List.cons.injEq, and_true]
        apply BitVec.eq_of_toNat_eq
        rw [litTag_toNat _ (by omega) (by omega), hl]; rfl

/-- No unit is decoded exactly when there is no byte or the unit is truncated (R76). -/
theorem decodeUnit_eq_none {bs : List Byte} : decodeUnit bs = none ↔ bs = [] ∨ truncatedUnit bs = true := by
  cases bs with
  | nil => simp [decodeUnit]
  | cons t bs =>
    cases hs : t.getLsbD 7
    · simp only [decodeUnit, truncatedUnit, hs, Bool.false_eq_true, if_false]
      simp
    · cases bs <;> simp only [decodeUnit, truncatedUnit, hs, if_true] <;> simp

end Sys2Proof
end

