-- ==== Sys2Proof/Laws/Decompress.lean ====
section
/-!
SUPPORT. What the loop of `DECOMPRESS` does with a row of units (R111 to R119): a whole unit appends its yield, a
truncated one raises, and the loop goes through the row unit by unit.
-/
namespace Sys2Proof.Machine

/-! ### Appending to OUT -/

@[simp] theorem emit_nil (s : State) : emit [] s = s := rfl

theorem emit_append (v w : List Byte) (s : State) : emit (v ++ w) s = emit w (emit v s) := by
  simp [emit, Memory.writeAll_append, Nat.add_assoc]

theorem emit_setIp (v : List Byte) (n : Nat) (s : State) : emit v (setIp n s) = setIp n (emit v s) := rfl

@[simp] theorem setIp_setIp (n k : Nat) (s : State) : setIp n (setIp k s) = setIp n s := rfl

theorem setIp_self (s : State) : setIp s.ip s = s := rfl

/-! ### One unit -/

theorem readN_append_left {m : Memory} {a : Nat} {bs cs : List Byte}
    (h : Memory.readN m a (bs ++ cs).length = some (bs ++ cs)) : Memory.readN m a bs.length = some bs := by
  have h1 := Memory.readN_sub h 0 bs.length (by simp)
  simpa using h1

theorem readN_append_right {m : Memory} {a : Nat} {bs cs : List Byte}
    (h : Memory.readN m a (bs ++ cs).length = some (bs ++ cs)) :
    Memory.readN m (a + bs.length) cs.length = some cs := by
  have h1 := Memory.readN_sub h bs.length cs.length (by simp)
  simpa using h1

theorem readN_cons {m : Memory} {a : Nat} {b : Byte} {bs : List Byte} :
    Memory.readN m a (b :: bs).length = some (b :: bs) ↔
      Memory.read m a = some b ∧ Memory.readN m (a + 1) bs.length = some bs := by
  rw [List.length_cons, Memory.readN_succ]
  simp

/-- `LIT` in front of the cursor, whole. -/
theorem litBody_go {n : Nat} {s : State} {ds : List Byte} (h1 : s.ip + n + 2 ≤ s.inlen)
    (h2 : Memory.readN s.inBuf (s.ip + 1) (n + 1) = some ds) :
    litBody n s = .go (setIp (s.ip + n + 2) (emit ds s)) := by
  rw [litBody, if_neg (by omega), litCount, memRead_eq_ok.2 h2]

/-- `REP` in front of the cursor, whole. -/
theorem repBody_go {m : Nat} {s : State} {b : Byte} (h1 : s.ip + 2 ≤ s.inlen)
    (h2 : Memory.read s.inBuf (s.ip + 1) = some b) :
    repBody m s = .go (setIp (s.ip + 2) (emit (List.replicate (m + 1) b) s)) := by
  rw [repBody, if_neg (by omega), readIn_eq_ok.2 h2, repCount]

theorem litBody_raised {n : Nat} {s : State} (h : s.inlen < s.ip + n + 2) :
    litBody n s = .raised (raise .malformedInput s.ip s) := by
  rw [litBody, if_pos h]; rfl

theorem repBody_raised {m : Nat} {s : State} (h : s.inlen < s.ip + 2) :
    repBody m s = .raised (raise .malformedInput s.ip s) := by
  rw [repBody, if_pos h]; rfl

/-- One pass over a whole unit appends its yield and moves the cursor behind it. -/
theorem decompressPass_unit {u : RowUnit} {s : State} (hu : u.wf = true)
    (h1 : s.ip + u.bytes.length ≤ s.inlen)
    (h2 : Memory.readN s.inBuf s.ip u.bytes.length = some u.bytes) :
    decompressPass s = .go (setIp (s.ip + u.bytes.length) (emit u.yield s)) := by
  cases u with
  | lit ds =>
    rw [RowUnit.wf_lit] at hu
    simp only [RowUnit.bytes] at h1 h2 ⊢
    rw [readN_cons] at h2
    have ht := litTag_toNat ds hu.1 hu.2
    have hs : (u8 ((ds.length : Int) - 1)).getLsbD 7 = false := (signBit_false_iff _).2 (by omega)
    have h3 : ds.length - 1 + 1 = ds.length := by omega
    simp only [List.length_cons] at h1
    rw [decompressPass, readIn_eq_ok.2 h2.1]
    simp only [hs, Bool.false_eq_true, if_false, ht]
    rw [litBody_go (ds := ds) (by omega) (by rw [h3]; exact h2.2)]
    simp only [RowUnit.yield, List.length_cons]
    congr 2; omega
  | rep k b =>
    rw [RowUnit.wf_rep] at hu
    simp only [RowUnit.bytes] at h1 h2 ⊢
    rw [readN_cons, readN_cons] at h2
    have ht := repTag_toNat k hu.1 hu.2
    have hs : (u8 (-((k : Int) - 1))).getLsbD 7 = true := (signBit_iff _).2 (by omega)
    have h3 : 256 - (257 - k) + 1 = k := by omega
    simp only [List.length_cons, List.length_nil] at h1
    rw [decompressPass, readIn_eq_ok.2 h2.1]
    simp only [hs, if_true, ht]
    rw [repBody_go (by omega) h2.2.1, h3]
    rfl

/-- One pass over a truncated unit raises MalformedInput at its tag. -/
theorem decompressPass_truncated {tail : List Byte} {s : State} (ht : truncatedUnit tail = true)
    (h1 : s.ip + tail.length = s.inlen) (h2 : Memory.readN s.inBuf s.ip tail.length = some tail) :
    decompressPass s = .raised (raise .malformedInput s.ip s) := by
  cases tail with
  | nil => cases ht
  | cons t rest =>
    rw [readN_cons] at h2
    simp only [List.length_cons] at h1
    rw [decompressPass, readIn_eq_ok.2 h2.1]
    cases hs : t.getLsbD 7
    · simp only [truncatedUnit, hs, Bool.false_eq_true, if_false, decide_eq_true_eq] at ht
      simp only [hs, Bool.false_eq_true, if_false]
      exact litBody_raised (by omega)
    · simp only [truncatedUnit, hs, if_true, List.isEmpty_iff] at ht
      subst ht
      simp only [hs, if_true]
      exact repBody_raised (by simp at h1; omega)

/-! ### The loop -/

/-- The loop goes over whole units, appending their yields. -/
theorem decompressLoop_units (us : List RowUnit) (fuel : Nat) (s : State) (hw : ∀ u ∈ us, u.wf = true)
    (h1 : s.ip + (encodeRow us).length ≤ s.inlen)
    (h2 : Memory.readN s.inBuf s.ip (encodeRow us).length = some (encodeRow us)) :
    decompressLoop (us.length + fuel) s =
      decompressLoop fuel (setIp (s.ip + (encodeRow us).length) (emit (expand us) s)) := by
  induction us generalizing s with
  | nil => simp [setIp_self]
  | cons u us ih =>
    have hu : u.wf = true := hw u (by simp)
    have h2l := RowUnit.two_le_bytes hu
    rw [encodeRow_cons] at h1 h2 ⊢
    have hl := readN_append_left h2
    have hr := readN_append_right h2
    rw [List.length_append] at h1
    rw [List.length_cons, show us.length + 1 + fuel = (us.length + fuel) + 1 by omega, decompressLoop,
      if_pos (by omega), decompressPass_unit hu (by omega) hl]
    simp only [Flow.andThen]
    rw [ih _ (fun v hv => hw v (by simp [hv])) (by simpa using by omega) (by simpa using hr)]
    simp only [setIp_ip, emit_setIp, setIp_setIp, expand_cons, emit_append, List.length_append]
    congr 2; omega

/-- Every row of bytes is a sequence of whole units, or one followed by a truncated unit (R76). -/
theorem row_cases (bs : List Byte) : ∃ us : List RowUnit, (∀ u ∈ us, u.wf = true) ∧
    (bs = encodeRow us ∨ ∃ tail, truncatedUnit tail = true ∧ bs = encodeRow us ++ tail) := by
  induction hn : bs.length using Nat.strong_induction_on generalizing bs with
  | _ n ih =>
    cases hd : decodeUnit bs with
    | none =>
      refine ⟨[], by simp, ?_⟩
      rcases decodeUnit_eq_none.1 hd with rfl | ht
      · exact .inl rfl
      · exact .inr ⟨bs, ht, by simp⟩
    | some p =>
      obtain ⟨u, rest⟩ := p
      obtain ⟨hu, rfl⟩ := decodeUnit_eq_some hd
      have h2 := RowUnit.two_le_bytes hu
      obtain ⟨us, hw, h⟩ := ih rest.length (by simp at hn; omega) rest rfl
      refine ⟨u :: us, by simpa [hu] using hw, ?_⟩
      rcases h with rfl | ⟨tail, ht, rfl⟩
      · exact .inl (by simp)
      · exact .inr ⟨tail, ht, by simp⟩

theorem length_le_encodeRow {us : List RowUnit} (hw : ∀ u ∈ us, u.wf = true) :
    2 * us.length ≤ (encodeRow us).length := by
  induction us with
  | nil => simp
  | cons u us ih =>
    have h1 := RowUnit.two_le_bytes (hw u (by simp))
    have h2 := ih fun v hv => hw v (by simp [hv])
    simp; omega

/-- `DECOMPRESS`'s body on a row of whole units. -/
theorem decompressBody_units {us : List RowUnit} {s : State} (hw : ∀ u ∈ us, u.wf = true) (h0 : s.ip = 0)
    (hr : inRow s = some (encodeRow us)) :
    decompressBody s = .go (setIp s.inlen (emit (expand us) s)) := by
  have hl : (encodeRow us).length = s.inlen := Memory.readN_length hr
  have h2 := length_le_encodeRow hw
  have h3 : s.inlen = us.length + (s.inlen - us.length) := by omega
  rw [decompressBody, h3, decompressLoop_units us _ s hw (by omega) (by rw [h0, hl]; exact hr), ← h3, h0, hl,
    Nat.zero_add]
  cases s.inlen - us.length with
  | zero => rfl
  | succ n => rw [decompressLoop, if_neg (by simp)]

/-- `DECOMPRESS`'s body on a row whose last unit is truncated. -/
theorem decompressBody_truncated {us : List RowUnit} {tail : List Byte} {s : State}
    (hw : ∀ u ∈ us, u.wf = true) (ht : truncatedUnit tail = true) (h0 : s.ip = 0)
    (hr : inRow s = some (encodeRow us ++ tail)) :
    decompressBody s = .raised (raise .malformedInput (encodeRow us).length
      (setIp (encodeRow us).length (emit (expand us) s))) := by
  have hl : (encodeRow us ++ tail).length = s.inlen := Memory.readN_length hr
  have hr' : Memory.readN s.inBuf s.ip (encodeRow us ++ tail).length = some (encodeRow us ++ tail) := by
    rw [h0, hl]; exact hr
  have h1 : 1 ≤ tail.length := by cases tail with
    | nil => cases ht
    | cons => simp
  have h2 := length_le_encodeRow hw
  rw [List.length_append] at hl
  have h3 : s.inlen = us.length + ((s.inlen - us.length - 1) + 1) := by omega
  rw [decompressBody, h3, decompressLoop_units us _ s hw (by omega) (readN_append_left hr'),
    decompressLoop, if_pos (by simpa using by omega), h0, Nat.zero_add]
  rw [decompressPass_truncated (tail := tail) ht (by simpa using hl)
    (by simpa [h0] using readN_append_right hr')]
  rfl

end Sys2Proof.Machine
end

