-- ==== Sys2Proof/Laws/Compress.lean ====
section
/-!
SUPPORT. The scan of `COMPRESS` on a row as a list (`scanUnits`), that the machine's loop emits exactly its units
(R91 to R98), and that those units are canonical and expand to the row (R83).
-/
namespace Sys2Proof.Machine

/-! ### The scan on lists -/

/-- How many bytes equal to `b` stand in front, at most `n` (R91). -/
def runLength (b : Byte) : Nat → List Byte → Nat
  | 0, _ => 0
  | _ + 1, [] => 0
  | n + 1, c :: cs => if c = b then runLength b n cs + 1 else 0

/-- The unit a pending buffer is flushed as (R94). -/
def flushUnits (lb : List Byte) : List RowUnit := if lb = [] then [] else [.lit lb]

/-- The units the scan emits for the row, `lb` pending (R92, R93, R95, R97). -/
def scanUnits : Nat → List Byte → List Byte → List RowUnit
  | 0, lb, _ => flushUnits lb
  | _ + 1, lb, [] => flushUnits lb
  | fuel + 1, lb, b :: row =>
    if 1 ≤ runLength b 128 row then
      flushUnits lb ++ .rep (runLength b 128 row + 1) b :: scanUnits fuel [] (row.drop (runLength b 128 row))
    else if (lb ++ [b]).length = 128 then .lit (lb ++ [b]) :: scanUnits fuel [] row
    else scanUnits fuel (lb ++ [b]) row

theorem runLength_le (b : Byte) (n : Nat) (cs : List Byte) : runLength b n cs ≤ n ∧ runLength b n cs ≤ cs.length := by
  induction n generalizing cs with
  | zero => simp [runLength]
  | succ n ih =>
    cases cs with
    | nil => simp [runLength]
    | cons c cs =>
      have := ih cs
      unfold runLength
      split <;> simp; omega

/-- The counted bytes are all `b`. -/
theorem take_runLength (b : Byte) (n : Nat) (cs : List Byte) :
    cs.take (runLength b n cs) = List.replicate (runLength b n cs) b := by
  induction n generalizing cs with
  | zero => simp [runLength]
  | succ n ih =>
    cases cs with
    | nil => simp [runLength]
    | cons c cs =>
      unfold runLength
      split
      · next h => subst h; simp [List.replicate_succ, ih]
      · simp

/-- The count stops early only where another byte stands. -/
theorem head_drop_runLength (b : Byte) (n : Nat) (cs : List Byte) (h : runLength b n cs < n) :
    (cs.drop (runLength b n cs)).head? ≠ some b := by
  induction n generalizing cs with
  | zero => omega
  | succ n ih =>
    cases cs with
    | nil => simp [runLength]
    | cons c cs =>
      unfold runLength at h ⊢
      split
      · next he => rw [if_pos he] at h; simpa using ih cs (by omega)
      · next hne => simpa using hne

theorem flushUnits_expand (lb : List Byte) : expand (flushUnits lb) = lb := by
  unfold flushUnits
  split
  · next h => subst h; rfl
  · simp [RowUnit.yield]

/-- The scan's units expand to the pending buffer and the row. -/
theorem expand_scanUnits (fuel : Nat) (lb row : List Byte) (h : row.length ≤ fuel) :
    expand (scanUnits fuel lb row) = lb ++ row := by
  induction fuel generalizing lb row with
  | zero =>
    cases row with
    | nil => simp [scanUnits, flushUnits_expand]
    | cons => simp at h
  | succ fuel ih =>
    cases row with
    | nil => simp [scanUnits, flushUnits_expand]
    | cons b row =>
      simp only [List.length_cons] at h
      unfold scanUnits
      split
      · rw [expand_append, expand_cons, flushUnits_expand, ih [] _ (by simp; omega)]
        simp only [RowUnit.yield, List.replicate_succ, List.nil_append, List.cons_append, ← take_runLength,
          List.take_append_drop]
      · split
        · rw [expand_cons, ih _ _ (by omega)]; simp [RowUnit.yield]
        · rw [ih _ _ (by omega)]; simp

/-! ### Canonical form -/

theorem canonical_cons {u : RowUnit} {us : List RowUnit} :
    canonical (u :: us) = true ↔
      u.wf = true ∧ u.canonical = true ∧ (∀ v ∈ us.head?, u.canonicalBefore v = true) ∧
        canonical us = true := by
  cases us with
  | nil => simp [canonical]
  | cons v us => simp [canonical, and_assoc]

theorem canonical_wf {us : List RowUnit} (h : canonical us = true) : ∀ u ∈ us, u.wf = true := by
  induction us with
  | nil => simp
  | cons u us ih =>
    rw [canonical_cons] at h
    intro v hv
    rcases List.mem_cons.1 hv with rfl | hv
    · exact h.1
    · exact ih h.2.2.2 v hv

theorem distinctNeighbours_append_one (lb : List Byte) (b : Byte) :
    distinctNeighbours (lb ++ [b]) = true ↔ distinctNeighbours lb = true ∧ lb.getLast? ≠ some b := by
  induction lb with
  | nil => simp [distinctNeighbours]
  | cons a lb ih =>
    cases lb with
    | nil => simp [distinctNeighbours]
    | cons c lb =>
      simp only [List.cons_append, distinctNeighbours, Bool.and_eq_true] at ih ⊢
      rw [ih]
      simp [and_assoc]

/-- What the scan keeps of its pending buffer. -/
structure PendingOk (lb row : List Byte) : Prop where
  short : lb.length < 128
  distinct : distinctNeighbours lb = true
  last : ∀ b, row.head? = some b → lb.getLast? ≠ some b

/-- The first byte of what the scan emits is the first byte of the pending buffer and the row. -/
theorem head_scanUnits (fuel : Nat) (lb row : List Byte) (h : row.length ≤ fuel) :
    ∀ u ∈ (scanUnits fuel lb row).head?, u.yield.head? = (lb ++ row).head? := by
  induction fuel generalizing lb row with
  | zero =>
    cases row with
    | cons => simp at h
    | nil => cases lb <;> simp [scanUnits, flushUnits, RowUnit.yield]
  | succ fuel ih =>
    cases row with
    | nil => cases lb <;> simp [scanUnits, flushUnits, RowUnit.yield]
    | cons b row =>
      simp only [List.length_cons] at h
      unfold scanUnits
      split
      · cases lb <;> simp [flushUnits, RowUnit.yield, List.replicate_succ]
      · split
        · intro u hu
          simp only [List.head?_cons, Option.mem_def, Option.some.injEq] at hu
          subst hu
          cases lb <;> simp [RowUnit.yield]
        · intro u hu
          simpa using ih (lb ++ [b]) row (by omega) u hu

/-- The scan's units are canonical. -/
theorem canonical_scanUnits (fuel : Nat) (lb row : List Byte) (h : row.length ≤ fuel) (hp : PendingOk lb row) :
    canonical (scanUnits fuel lb row) = true := by
  have flush_ok : ∀ lb : List Byte, lb.length < 128 → distinctNeighbours lb = true →
      canonical (flushUnits lb) = true := by
    intro lb h1 h2
    unfold flushUnits
    split
    · rfl
    · next hne =>
      have : 1 ≤ lb.length := by
        cases lb with
        | nil => exact absurd rfl hne
        | cons => simp
      rw [canonical_cons]
      exact ⟨RowUnit.wf_lit.2 ⟨this, by omega⟩, h2, by simp, rfl⟩
  have empty_ok : ∀ row : List Byte, PendingOk [] row := fun row => ⟨by simp, rfl, by simp⟩
  induction fuel generalizing lb row with
  | zero => exact flush_ok lb hp.short hp.distinct
  | succ fuel ih =>
    cases row with
    | nil => exact flush_ok lb hp.short hp.distinct
    | cons b row =>
      simp only [List.length_cons] at h
      have hr := runLength_le b 128 row
      unfold scanUnits
      split
      · next h1 =>
        have hrest : canonical (.rep (runLength b 128 row + 1) b ::
            scanUnits fuel [] (row.drop (runLength b 128 row))) = true := by
          rw [canonical_cons]
          refine ⟨RowUnit.wf_rep.2 (by omega), rfl, fun v hv => ?_, ih _ _ (by simp; omega) (empty_ok _)⟩
          have hh := (head_scanUnits fuel [] _ (by simp; omega) v hv)
          simp only [RowUnit.canonicalBefore, Bool.or_eq_true, bne_iff_ne, ne_eq, beq_iff_eq, hh,
            List.nil_append, Config.repMax]
          by_cases h2 : runLength b 128 row < 128
          · exact .inl (head_drop_runLength b 128 row h2)
          · exact .inr (by omega)
        unfold flushUnits
        split
        · exact hrest
        · next hne =>
          have h2 : 1 ≤ lb.length := by
            cases lb with
            | nil => exact absurd rfl hne
            | cons => simp
          have h3 := hp.last b rfl
          have h4 := hp.short
          rw [List.singleton_append, canonical_cons]
          refine ⟨RowUnit.wf_lit.2 ⟨h2, by omega⟩, hp.distinct, fun v hv => ?_, hrest⟩
          simp only [List.head?_cons, Option.mem_def, Option.some.injEq] at hv
          subst hv
          simpa [RowUnit.canonicalBefore] using h3
      · next h1 =>
        have h0 : runLength b 128 row = 0 := by omega
        have hd : distinctNeighbours (lb ++ [b]) = true :=
          (distinctNeighbours_append_one lb b).2 ⟨hp.distinct, hp.last b rfl⟩
        have hlast : ∀ c, row.head? = some c → (lb ++ [b]).getLast? ≠ some c := by
          intro c hc
          have := head_drop_runLength b 128 row (by omega)
          rw [h0, List.drop_zero, hc] at this
          simpa [eq_comm] using this
        have hlen := hp.short
        split
        · next hfull =>
          rw [canonical_cons]
          refine ⟨RowUnit.wf_lit.2 (by omega), hd, fun v hv => ?_, ih _ _ (by omega) (empty_ok _)⟩
          have hh := (head_scanUnits fuel [] row (by omega) v hv)
          have hne : (lb ++ [b]).getLast? ≠ v.yield.head? := by
            rw [hh, List.nil_append]
            cases hrow : row.head? with
            | none => simp
            | some c => exact hlast c hrow
          cases v with
          | lit es =>
            simp only [RowUnit.canonicalBefore, Bool.and_eq_true, beq_iff_eq, bne_iff_ne]
            exact ⟨hfull, hne⟩
          | rep k c =>
            simp only [RowUnit.canonicalBefore, bne_iff_ne]
            rw [hh, List.nil_append] at hne
            have : some c = row.head? := by
              rw [List.nil_append] at hh
              rw [← hh]
              cases k with
              | zero =>
                have := canonical_wf (ih [] row (by omega) (empty_ok _)) (.rep 0 c) (List.mem_of_mem_head? hv)
                rw [RowUnit.wf_rep] at this; omega
              | succ k => simp [RowUnit.yield, List.replicate_succ]
            rw [this]; exact hne
        · next hshort =>
          exact ih _ _ (by omega) ⟨by simp at hshort ⊢; omega, hd, hlast⟩

/-! ### The machine's loop -/

/-- The inner loop of the machine counts what `runLength` counts (R91). -/
theorem countRun_eq {s : State} {b : Byte} (fuel rc : Nat) {cs : List Byte}
    (hr : Memory.readN s.inBuf (s.ip + rc + 1) cs.length = some cs) (hl : s.ip + rc + 1 + cs.length = s.inlen) :
    countRun s b fuel rc = .ok (rc + runLength b fuel cs) := by
  induction fuel generalizing rc cs with
  | zero => rfl
  | succ fuel ih =>
    rw [countRun]
    cases cs with
    | nil => rw [if_neg (by simp at hl; omega)]; rfl
    | cons c cs =>
      rw [readN_cons] at hr
      simp only [List.length_cons] at hl
      rw [if_pos (by omega), readIn_eq_ok.2 hr.1]
      simp only [runLength]
      split
      · rw [ih (rc + 1) (by rw [show s.ip + (rc + 1) + 1 = s.ip + rc + 1 + 1 by omega]; exact hr.2) (by omega)]
        congr 1; omega
      · rfl

/-- `flush()` emits the pending buffer as one unit and empties it (R94). -/
theorem flush_eq (s : State) (h : s.lb.length ≤ 128) :
    flush s = clearLb (emit (encodeRow (flushUnits s.lb)) s) := by
  unfold flush flushUnits
  by_cases hlb : s.lb = []
  · rw [if_neg (by simp [hlb]), if_pos hlb, encodeRow_nil, emit_nil, clearLb, ← hlb]
  · have h1 : 1 ≤ s.lb.length := List.length_pos_iff.2 hlb
    have ht : literalTag s.lb.length = u8 ((s.lb.length : Int) - 1) := by
      apply BitVec.eq_of_toNat_eq
      rw [litTag_toNat _ h1 h, literalTag, BitVec.toNat_ofNat]; omega
    rw [if_pos h1, if_neg hlb, ← emit_append, ht, encodeRow_cons, encodeRow_nil, List.append_nil,
      RowUnit.bytes, List.singleton_append]

theorem repeatTag_eq (rc : Nat) (h1 : 1 ≤ rc) (h2 : rc ≤ 128) :
    repeatTag rc = u8 (-(((rc + 1 : Nat) : Int) - 1)) := by
  apply BitVec.eq_of_toNat_eq
  rw [repTag_toNat _ (by omega) (by omega), repeatTag, BitVec.toNat_ofNat]; omega

/-- What the loop and the last flush of `COMPRESS` leave: the scan's units appended to `OUT`, the cursor at the end
of the row, the pending buffer empty, the count within its bound. -/
def ScanDone (s t : State) (us : List RowUnit) : Prop :=
  ∃ rc, rc ≤ 128 ∧ t = clearLb (setRc rc (setIp s.inlen (emit (encodeRow us) s)))

/-- The working registers between two passes. -/
def atPass (n rc : Nat) (lb : List Byte) (s : State) : State := { s with ip := n, rc := rc, lb := lb }

@[simp] theorem atPass_inBuf (n rc : Nat) (lb : List Byte) (s : State) : (atPass n rc lb s).inBuf = s.inBuf := rfl
@[simp] theorem atPass_inlen (n rc : Nat) (lb : List Byte) (s : State) : (atPass n rc lb s).inlen = s.inlen := rfl
@[simp] theorem atPass_ip (n rc : Nat) (lb : List Byte) (s : State) : (atPass n rc lb s).ip = n := rfl
@[simp] theorem atPass_rc (n rc : Nat) (lb : List Byte) (s : State) : (atPass n rc lb s).rc = rc := rfl
@[simp] theorem atPass_lb (n rc : Nat) (lb : List Byte) (s : State) : (atPass n rc lb s).lb = lb := rfl

/-- What was emitted before a scan goes on joins what the scan emits. -/
theorem ScanDone.after {s u : State} {vs us : List RowUnit} {n rc : Nat} {lb : List Byte}
    (h : ScanDone (atPass n rc lb (emit (encodeRow vs) s)) u us) : ScanDone s u (vs ++ us) := by
  obtain ⟨r, hr, rfl⟩ := h
  refine ⟨r, hr, ?_⟩
  rw [encodeRow_append, emit_append]
  rfl

/-- One pass with bytes equal to the current one behind it (R92). -/
theorem repeatBranch_eq {b : Byte} {k : Nat} {s : State} (h1 : 1 ≤ k) (h2 : k ≤ 128) (hlb : s.lb.length ≤ 128) :
    repeatBranch b (setRc k s) = atPass (s.ip + k + 1) k [] (emit (encodeRow (flushUnits s.lb ++ [.rep (k + 1) b])) s) := by
  rw [repeatBranch, flush_eq _ (by simpa using hlb), encodeRow_append, emit_append, encodeRow_cons, encodeRow_nil,
    List.append_nil, RowUnit.bytes, ← repeatTag_eq k h1 h2,
    show [repeatTag k, b] = [repeatTag k] ++ [b] from rfl, emit_append]
  rfl

/-- One pass with another byte behind it, the buffer full (R95). -/
theorem literalBranch_full {b : Byte} {s : State} (h : (s.lb ++ [b]).length = 128) :
    literalBranch b (setRc 0 s) = atPass (s.ip + 1) 0 [] (emit (encodeRow [.lit (s.lb ++ [b])]) s) := by
  rw [literalBranch, splitLiteral, if_pos (by simpa [Config.litMax] using h),
    flush_eq _ (by simpa using by simp at h; omega), flushUnits, if_neg (by simp)]
  rfl

/-- One pass with another byte behind it, the buffer not full (R93). -/
theorem literalBranch_short {b : Byte} {s : State} (h : (s.lb ++ [b]).length ≠ 128) :
    literalBranch b (setRc 0 s) = atPass (s.ip + 1) 0 (s.lb ++ [b]) (emit (encodeRow []) s) := by
  rw [literalBranch, splitLiteral, if_neg (by simpa [Config.litMax] using h)]
  rfl

/-- The loop of `COMPRESS` and its last flush emit the scan's units (R98). -/
theorem compressLoop_scan (fuel : Nat) (s : State) (row : List Byte) (hlb : s.lb.length < 128) (hrc : s.rc ≤ 128)
    (hf : row.length ≤ fuel) (hr : Memory.readN s.inBuf s.ip row.length = some row)
    (hl : s.ip + row.length = s.inlen) :
    ∃ t, (compressLoop fuel s).andThen (fun t => .go (flush t)) = .go t ∧
      ScanDone s t (scanUnits fuel s.lb row) := by
  have last : ∀ s : State, s.lb.length < 128 → s.rc ≤ 128 → s.ip = s.inlen →
      ScanDone s (flush s) (flushUnits s.lb) := by
    intro s h1 h2 h3
    refine ⟨s.rc, h2, ?_⟩
    rw [flush_eq s (by omega), ← h3]; rfl
  induction fuel generalizing s row with
  | zero =>
    cases row with
    | cons => simp at hf
    | nil => exact ⟨flush s, rfl, last s hlb hrc hl⟩
  | succ fuel ih =>
    cases row with
    | nil =>
      simp only [List.length_nil, Nat.add_zero] at hl
      exact ⟨flush s, by rw [compressLoop, if_neg (by omega)]; rfl, last s hlb hrc hl⟩
    | cons b row =>
      rw [readN_cons] at hr
      simp only [List.length_cons] at hl hf
      have hrl := runLength_le b 128 row
      have hcount : countRun s b Config.runExtraMax 0 = .ok (runLength b 128 row) := by
        have := countRun_eq (s := s) (b := b) 128 0 (cs := row) (by simpa using hr.2) (by omega)
        rw [Nat.zero_add] at this
        exact this
      rw [compressLoop, if_pos (by omega), compressPass, readIn_eq_ok.2 hr.1]
      simp only [hcount]
      unfold scanUnits
      generalize runLength b 128 row = k at hrl
      have hdrop := Memory.readN_sub hr.2 k (row.length - k) (by omega)
      rw [List.take_of_length_le (by simp)] at hdrop
      by_cases h1 : 1 ≤ k
      · rw [if_pos h1, if_pos h1, repeatBranch_eq h1 hrl.1 (by omega)]
        obtain ⟨t, ht, hst⟩ := ih
          (atPass (s.ip + k + 1) k [] (emit (encodeRow (flushUnits s.lb ++ [.rep (k + 1) b])) s))
          (row.drop k) (by simp) hrl.1 (by simp; omega)
          (by rw [show s.ip + 1 + k = s.ip + k + 1 by omega] at hdrop; simpa using hdrop)
          (by simp; omega)
        refine ⟨t, ht, ?_⟩
        have := ScanDone.after hst
        simpa using this
      · obtain rfl : k = 0 := by omega
        rw [if_neg h1, if_neg h1]
        by_cases h2 : (s.lb ++ [b]).length = 128
        · rw [if_pos h2, literalBranch_full h2]
          obtain ⟨t, ht, hst⟩ := ih
            (atPass (s.ip + 1) 0 [] (emit (encodeRow [.lit (s.lb ++ [b])]) s))
            row (by simp) (by simp) (by omega) (by simpa using hr.2) (by simp; omega)
          have := ScanDone.after hst
          exact ⟨t, ht, by simpa using this⟩
        · rw [if_neg h2, literalBranch_short h2]
          obtain ⟨t, ht, hst⟩ := ih
            (atPass (s.ip + 1) 0 (s.lb ++ [b]) (emit (encodeRow []) s))
            row (by simp at h2 ⊢; omega) (by simp) (by omega) (by simpa using hr.2) (by simp; omega)
          have := ScanDone.after (vs := []) hst
          exact ⟨t, ht, by simpa using this⟩

/-- The body of `COMPRESS` on a written row, from a state with nothing pending. -/
theorem compressBody_scan {s : State} {row : List Byte} (h0 : s.ip = 0) (hlb : s.lb = []) (hrc : s.rc ≤ 128)
    (hr : inRow s = some row) :
    ∃ t, compressBody s = .go t ∧ ScanDone s t (scanUnits s.inlen [] row) := by
  have hl : row.length = s.inlen := Memory.readN_length hr
  have := compressLoop_scan s.inlen s row (by simp [hlb]) hrc (by omega) (by rw [h0, hl]; exact hr) (by omega)
  rw [hlb] at this
  exact this

end Sys2Proof.Machine
end

