-- ==== Sys2Proof/Laws/Frames.lean ====
section
/-!
SUPPORT. What an operation that goes on leaves unchanged, said once for all operations that write `OUT` and once for
`SETMODE`; which bodies never raise; and what a written `OUT` is.
-/
namespace Sys2Proof.Machine

theorem prologue_hostSide (s : State) : SameHostSide s (prologue s) := by constructor <;> simp

theorem prologueMode_hostSide (s : State) : SameHostSide s (prologueMode s) := by constructor <;> simp

/-- What every operation that writes `OUT` keeps when it goes on. -/
structure OpKeeps (s t : State) : Prop where
  hostSide : SameHostSide s t
  cmode : t.cmode = s.cmode
  outside : ∀ a, t.outlen ≤ a → Memory.read t.outBuf a = Memory.read s.outBuf a
  finfo : t.fault = s.fault → t.finfo = s.finfo

theorem operation_keeps {fits : State → Bool} {body : State → Flow} (hk : ∀ u, FlowKeeps u (body u))
    {s t : State} (h : operation fits body s = .next t) : OpKeeps s t := by
  rcases operation_next h with ⟨-, rfl⟩ | ⟨hr, -, -, ⟨u, hu, rfl⟩ | hu⟩
  · exact ⟨.refl _, rfl, fun _ _ => rfl, fun _ => rfl⟩
  · have k := hk (prologue s)
    rw [hu] at k
    have k : BodyKeeps (prologue s) u := k
    refine ⟨(prologue_hostSide s).trans (k.hostSide.trans ?_), by simpa using k.cmode, fun a ha => ?_,
      fun _ => by simpa using k.finfo⟩
    · constructor <;> simp
    · simpa using k.outside a (.inr (by simpa using ha))
  · have k := hk (prologue s)
    rw [hu] at k
    obtain ⟨v, f, info, k, rfl, hne, -⟩ := k
    refine ⟨(prologue_hostSide s).trans (k.hostSide.trans ?_), by simpa using k.cmode, fun a ha => ?_,
      fun he => ?_⟩
    · constructor <;> simp
    · simpa using k.outside a (.inr (by simpa using ha))
    · rw [hr.noFault] at he; exact absurd he hne

/-- An operation whose body never raises records no fault. -/
theorem operation_fault {fits : State → Bool} {body : State → Flow} (hk : ∀ u, FlowKeeps u (body u))
    (hn : ∀ u v, body u ≠ .raised v) {s t : State} (h : operation fits body s = .next t) :
    t.fault = s.fault := by
  rcases operation_next h with ⟨-, rfl⟩ | ⟨-, -, -, ⟨u, hu, rfl⟩ | hu⟩
  · rfl
  · have k := hk (prologue s)
    rw [hu] at k
    simpa using BodyKeeps.fault k
  · exact absurd hu (hn _ _)

/-- `COMPRESS` raises nothing (R99). -/
theorem compressBody_not_raised (u v : State) : compressBody u ≠ .raised v := by
  have key : ∀ n w, compressLoop n w ≠ .raised v := by
    intro n
    induction n with
    | zero => intro w hw; cases hw
    | succ n ih =>
      intro w hw
      rw [compressLoop] at hw
      split at hw
      · rcases compressPass_cases w with ⟨x, hx, -⟩ | ⟨f, hf⟩
        · rw [hx] at hw; exact ih _ hw
        · rw [hf] at hw; cases hw
      · cases hw
  intro h
  rw [compressBody, Flow.andThen_eq_raised] at h
  rcases h with h | ⟨w, -, h⟩
  · exact key _ _ h
  · cases h

/-- `RASTERIZE` raises nothing (R138). -/
theorem rasterizeBody_not_raised (u v : State) : rasterizeBody u ≠ .raised v := by
  have key : ∀ n i w, rasterLoop n i w ≠ .raised v := by
    intro n
    induction n with
    | zero => intro i w hw; cases hw
    | succ n ih =>
      intro i w hw
      rw [rasterLoop] at hw
      split at hw
      · cases hw
      · exact ih _ _ hw
  exact key _ _ _

/-- Everything `SETMODE` can do when it goes on. -/
theorem setmode_next {s t : State} (h : exec .setmode s = .next t) :
    (s.fault ≠ .none ∧ t = s) ∨ (Ready s ∧
      ((s.marg = 0x00#8 ∧ t = epilogue { prologueMode s with cmode := .raw }) ∨
       (s.marg = 0x02#8 ∧ t = epilogue { prologueMode s with cmode := .runLength }) ∨
       (s.marg ≠ 0x00#8 ∧ s.marg ≠ 0x02#8 ∧ t = raise .modeInvalid s.marg.toNat (prologueMode s)))) := by
  rw [exec_setmode] at h
  rcases startChecked_cases (fun _ => true) (fun u => finishMode (setmodeBody (prologueMode u))) s with
    ⟨-, h1⟩ | ⟨-, hf, h1⟩ | ⟨-, hf, -⟩ | ⟨hr, -, h1⟩
  · rw [h1] at h; cases h
  · rw [h1] at h; cases h; exact .inl ⟨hf, rfl⟩
  · cases hf
  · rw [h1] at h
    refine .inr ⟨hr, ?_⟩
    rcases setmodeBody_cases (prologueMode s) with ⟨h3, h2⟩ | ⟨h3, h2⟩ | ⟨h3, h4, h2⟩ <;> rw [h2] at h <;>
      rw [prologueMode_marg] at h3
    · cases h; exact .inl ⟨h3, rfl⟩
    · cases h; exact .inr (.inl ⟨h3, rfl⟩)
    · cases h; exact .inr (.inr ⟨h3, h4, rfl⟩)

/-- The result is there exactly when every byte below `OUTLEN` is. -/
theorem isSome_outRow (t : State) :
    (outRow t).isSome = true ↔ ∀ a < t.outlen, (Memory.read t.outBuf a).isSome = true := by
  have key : ∀ n a (m : Memory),
      (Memory.readN m a n).isSome = true ↔ ∀ k < n, (Memory.read m (a + k)).isSome = true := by
    intro n
    induction n with
    | zero => simp
    | succ n ih =>
      intro a m
      rw [Memory.readN]
      constructor
      · intro h
        split at h
        · next b bs h1 h2 =>
          intro k hk
          cases k with
          | zero => rw [Nat.add_zero, h1]; rfl
          | succ k =>
            have := (ih (a + 1) m).1 (by rw [h2]; rfl) k (by omega)
            rw [show a + (k + 1) = a + 1 + k by omega]; exact this
        · cases h
      · intro h
        have h1 := (ih (a + 1) m).2 fun k hk => by
          have := h (k + 1) (by omega)
          rw [show a + 1 + k = a + (k + 1) by omega]; exact this
        obtain ⟨b, hb⟩ := Option.isSome_iff_exists.1 (h 0 (by omega))
        obtain ⟨bs, hbs⟩ := Option.isSome_iff_exists.1 h1
        rw [Nat.add_zero] at hb
        rw [hb, hbs]; rfl
  simpa [outRow] using key t.outlen 0 t.outBuf

theorem BodyKeeps.allWritten {s t : State} (k : BodyKeeps s t)
    (h : ∀ a < s.outlen, (Memory.read s.outBuf a).isSome = true) :
    ∀ a < t.outlen, (Memory.read t.outBuf a).isSome = true := by
  intro a ha
  by_cases h1 : a < s.outlen
  · rw [k.outside a (.inl h1)]; exact h a h1
  · exact k.written a (by omega) ha

end Sys2Proof.Machine
end

