-- ==== Sys2Proof/Laws/PerInstr.lean ====
section
/-!
SUPPORT. Laws stated once per instruction. `TableMatch`: the encoded word has the fixed bits that the instruction's row of
spec/opcode_table.json gives it (the encoder beside the table).
-/
namespace Sys2Proof.Laws

/-- The row's "match" (an operation's code stands in the low half of its byte). -/
def rowMatch : Instr → Byte
  | .lit _ => 0x00#8
  | .rep _ => 0x80#8
  | .compress => 0x01#8
  | .decompress => 0x02#8
  | .rasterize => 0x03#8
  | .setmode => 0x04#8
  | .rowenc => 0x05#8
  | .rowdec => 0x06#8

/-- The row's "mask". -/
def rowMask : Instr → Byte
  | .lit _ => 0x80#8
  | .rep _ => 0x80#8
  | .compress => 0x0F#8
  | .decompress => 0x0F#8
  | .rasterize => 0x0F#8
  | .setmode => 0x0F#8
  | .rowenc => 0x0F#8
  | .rowdec => 0x0F#8

/-- The fixed bits of the word of a well-formed instruction are those of its row. -/
def TableMatch.Statement (i : Instr) : Prop := i.wf = true → encodeWord i &&& rowMask i = rowMatch i

theorem signMask (t : Byte) :
    (t.toNat < 128 → t &&& 0x80#8 = 0x00#8) ∧ (128 ≤ t.toNat → t &&& 0x80#8 = 0x80#8) := by
  revert t; decide

theorem TableMatch.lit (n : Nat) : TableMatch.Statement (.lit n) := by
  intro h
  have h : n ≤ 127 := by simpa [Instr.wf] using h
  exact (signMask _).1 (by rw [encodeWord, toNat_u8_nat n (by omega)]; omega)

theorem TableMatch.rep (m : Nat) : TableMatch.Statement (.rep m) := by
  intro h
  have h : 1 ≤ m ∧ m ≤ 128 := by simpa [Instr.wf] using h
  exact (signMask _).2 (by rw [encodeWord, toNat_u8_neg m (by omega) (by omega)]; omega)

theorem TableMatch.compress : TableMatch.Statement .compress := fun _ => rfl
theorem TableMatch.decompress : TableMatch.Statement .decompress := fun _ => rfl
theorem TableMatch.rasterize : TableMatch.Statement .rasterize := fun _ => rfl
theorem TableMatch.setmode : TableMatch.Statement .setmode := fun _ => rfl
theorem TableMatch.rowenc : TableMatch.Statement .rowenc := fun _ => rfl
theorem TableMatch.rowdec : TableMatch.Statement .rowdec := fun _ => rfl

end Sys2Proof.Laws
end

