-- ==== Sys2Proof/Laws/Raster.lean ====
section
/-!
SUPPORT. What `RASTERIZE`'s loops give: the bits of a stretch of positions, the bytes they are packed into, and where the
model stops.
-/
namespace Sys2Proof.Machine

theorem rasterBit_emit (v : List Byte) (s : State) (p : Nat) : rasterBit (emit v s) p = rasterBit s p := rfl

@[simp] theorem sampled_prologue (s : State) (p : Nat) : Sampled (prologue s) p ↔ Sampled s p := by
  simp [Sampled]

@[simp] theorem pixelAt_prologue (s : State) (p : Nat) : pixelAt (prologue s) p = pixelAt s p := by
  simp [pixelAt]

/-- The tests of a start of `RASTERIZE`, as claims name them. -/
theorem rasterFits_iff (s : State) : rasterFits s = true ↔ RasterOperandsFit s := by
  constructor
  · intro h
    simp only [rasterFits, fitsUnsigned, fitsSigned, Bool.and_eq_true, decide_eq_true_eq] at h
    obtain ⟨⟨⟨⟨⟨hw, hh⟩, hx⟩, hsc⟩, hlow, hhigh⟩, hheld⟩ := h
    exact ⟨hw, hh, hx, hsc, hlow, hhigh, hheld⟩
  · intro h
    simp [rasterFits, fitsUnsigned, fitsSigned, h.w, h.h, h.x, h.sc, h.yoffLow, h.yoffHigh, h.held]

/-- `RASTERIZE` appends as many bytes as it has stripe indices left (R130). -/
theorem rasterLoop_outlen {n i : Nat} {s t : State} (h : rasterLoop n i s = .go t) :
    t.outlen = s.outlen + n := by
  induction n generalizing i s with
  | zero => cases h; rfl
  | succ n ih =>
    rw [rasterLoop] at h
    split at h
    · cases h
    · rw [ih h]; simp; omega

/-- What position `p` gives (R131 to R134). -/
theorem rasterBit_eq (s : State) (p : Nat) :
    (¬ Sampled s p ∧ rasterBit s p = .ok false) ∨
    (Sampled s p ∧ pixelAt s p = none ∧
      rasterBit s p = .error (.unwrittenPixel s.x ((p : Int) - s.yoff).toNat)) ∨
    ∃ px, Sampled s p ∧ pixelAt s p = some px ∧
      rasterBit s p = .ok (blackBit s s.x ((p : Int) - s.yoff).toNat px) := by
  unfold rasterBit Sampled pixRead pixelAt
  by_cases h : s.x < s.w ∧ 0 ≤ (p : Int) - s.yoff ∧ (p : Int) - s.yoff < (s.h : Int)
  · simp only [if_pos h]
    cases hp : Image.read s.img (s.x, ((p : Int) - s.yoff).toNat) with
    | none => exact .inr (.inl ⟨h, rfl, rfl⟩)
    | some px => exact .inr (.inr ⟨px, h, rfl, rfl⟩)
  · simp only [if_neg h]
    exact .inl ⟨h, trivial⟩

theorem rasterBits_of_ok {s : State} {n p : Nat} (h : ∀ k < n, ∃ b, rasterBit s (p + k) = .ok b) :
    ∃ bs, rasterBits s p n = .ok bs ∧ bs.length = n ∧
      ∀ k < n, ∃ b, rasterBit s (p + k) = .ok b ∧ bs[k]? = some b := by
  induction n generalizing p with
  | zero => exact ⟨[], rfl, rfl, by simp⟩
  | succ n ih =>
    obtain ⟨b, hb⟩ := h 0 (by omega)
    rw [Nat.add_zero] at hb
    obtain ⟨bs, h1, h2, h3⟩ := ih (p := p + 1) fun k hk => by
      have := h (k + 1) (by omega)
      rwa [show p + (k + 1) = p + 1 + k by omega] at this
    refine ⟨b :: bs, by rw [rasterBits, hb, h1], by simp [h2], fun k hk => ?_⟩
    cases k with
    | zero => exact ⟨b, by simpa using hb, rfl⟩
    | succ k =>
      obtain ⟨c, hc, hk'⟩ := h3 k (by omega)
      exact ⟨c, by rw [show p + (k + 1) = p + 1 + k by omega]; exact hc, by simpa using hk'⟩

/-- With every position readable the loop emits `n` bytes, bit by bit as R136 lays them out. -/
theorem rasterLoop_of_ok (n i : Nat) (s : State)
    (h : ∀ p, i * 8 ≤ p → p < (i + n) * 8 → ∃ b, rasterBit s p = .ok b) :
    ∃ row : List Byte, row.length = n ∧ rasterLoop n i s = .go (emit row s) ∧
      ∀ p < n * 8, ∃ b, rasterBit s (i * 8 + p) = .ok b ∧ rowBit row p = some b := by
  induction n generalizing i s with
  | zero => exact ⟨[], rfl, rfl, by simp⟩
  | succ n ih =>
    obtain ⟨bs, hbs, hl, hb⟩ := rasterBits_of_ok (s := s) (p := i * 8) (n := 8)
      fun k hk => h _ (by omega) (by omega)
    obtain ⟨row, h1, h2, h3⟩ := ih (i + 1) (emit [packFrom 0 0x00#8 bs] s)
      fun p hp hq => h p (by omega) (by omega)
    refine ⟨packFrom 0 0x00#8 bs :: row, by simp [h1], ?_, fun p hp => ?_⟩
    · rw [rasterLoop, rasterByte, hbs]
      simp only
      rw [h2, ← emit_append]; rfl
    · by_cases hlt : p < 8
      · obtain ⟨b, hb1, hb2⟩ := hb p hlt
        refine ⟨b, hb1, ?_⟩
        have h4 := getLsbD_packFrom bs 0 0x00#8 (by omega) p hlt
        rw [if_pos ⟨by omega, by omega⟩, Nat.sub_zero, List.getD_eq_getElem?_getD, hb2] at h4
        rw [rowBit, show p / 8 = 0 by omega, show p % 8 = p by omega]
        simpa using h4
      · obtain ⟨b, hb1, hb2⟩ := h3 (p - 8) (by omega)
        refine ⟨b, by rw [show i * 8 + p = (i + 1) * 8 + (p - 8) by omega]; exact hb1, ?_⟩
        unfold rowBit at hb2 ⊢
        rw [show p / 8 = (p - 8) / 8 + 1 by omega, show p % 8 = (p - 8) % 8 by omega]
        exact hb2

end Sys2Proof.Machine
end

