-- ==== Sys2Proof/Laws/Stops.lean ====
section
/-!
SUPPORT. Where a body stops the model: at a cell inside its operands that nothing has written, and nowhere else.
-/
namespace Sys2Proof.Machine

/-- A body that stops, stops at an unwritten byte of the row in `s`. -/
def StopsInRow (s : State) (r : Flow) : Prop :=
  ∀ f, r = .stop f → ∃ j, j < s.inlen ∧ Memory.read s.inBuf j = none ∧ f = .unwrittenIn j

theorem StopsInRow.andThen {s : State} {r : Flow} {k : State → Flow} (hk : FlowKeeps s r)
    (hr : StopsInRow s r) (h : ∀ t, StopsInRow t (k t)) : StopsInRow s (r.andThen k) := by
  intro f hf
  rcases Flow.andThen_eq_stop.1 hf with hf | ⟨t, ht, hf⟩
  · exact hr f hf
  · rw [ht] at hk
    obtain ⟨j, h1, h2, h3⟩ := h t f hf
    have hs := BodyKeeps.hostSide hk
    exact ⟨j, hs.inlen ▸ h1, hs.inBuf ▸ h2, h3⟩

theorem litBody_stop (n : Nat) (s : State) : StopsInRow s (litBody n s) := by
  intro f hf
  unfold litBody raiseFlow at hf
  split at hf
  · cases hf
  · split at hf
    · next g hg =>
      cases hf
      obtain ⟨j, h1, h2, h3, rfl⟩ := memRead_eq_error hg
      exact ⟨j, by simp only [litCount] at h2; omega, h3, rfl⟩
    · cases hf

theorem repBody_stop (m : Nat) (s : State) : StopsInRow s (repBody m s) := by
  intro f hf
  unfold repBody raiseFlow at hf
  split at hf
  · cases hf
  · split at hf
    · next g hg =>
      cases hf
      obtain ⟨h1, rfl⟩ := readIn_eq_error.1 hg
      exact ⟨_, by omega, h1, rfl⟩
    · cases hf

theorem decompressPass_stop {s : State} (h : s.ip < s.inlen) : StopsInRow s (decompressPass s) := by
  intro f hf
  unfold decompressPass at hf
  split at hf
  · next g hg =>
    cases hf
    obtain ⟨h1, rfl⟩ := readIn_eq_error.1 hg
    exact ⟨_, h, h1, rfl⟩
  · split at hf
    · exact repBody_stop _ s f hf
    · exact litBody_stop _ s f hf

theorem decompressLoop_stop (n : Nat) (s : State) : StopsInRow s (decompressLoop n s) := by
  induction n generalizing s with
  | zero => intro f hf; cases hf
  | succ n ih =>
    rw [decompressLoop]
    split
    · next h => exact (decompressPass_stop h).andThen (decompressPass_keeps s) ih
    · intro f hf; cases hf

theorem compressPass_stop {s : State} (h : s.ip < s.inlen) : StopsInRow s (compressPass s) := by
  intro f hf
  unfold compressPass at hf
  split at hf
  · next g hg =>
    cases hf
    obtain ⟨h1, rfl⟩ := readIn_eq_error.1 hg
    exact ⟨_, h, h1, rfl⟩
  · split at hf
    · next g hg =>
      cases hf
      obtain ⟨j, -, h2, h3, rfl⟩ := countRun_eq_error hg
      exact ⟨j, h2, h3, rfl⟩
    · split at hf <;> cases hf

theorem compressLoop_stop (n : Nat) (s : State) : StopsInRow s (compressLoop n s) := by
  induction n generalizing s with
  | zero => intro f hf; cases hf
  | succ n ih =>
    rw [compressLoop]
    split
    · next h => exact (compressPass_stop h).andThen (compressPass_keeps s) ih
    · intro f hf; cases hf

theorem decompressBody_stop (s : State) : StopsInRow s (decompressBody s) := decompressLoop_stop _ s

theorem compressBody_stop (s : State) : StopsInRow s (compressBody s) :=
  (compressLoop_stop _ s).andThen (compressLoop_keeps _ s) fun _ _ hf => by cases hf

theorem rawBody_stop (s : State) : StopsInRow s (rawBody s) := by
  intro f hf
  unfold rawBody at hf
  split at hf
  · next g hg =>
    cases hf
    obtain ⟨j, -, h2, h3, rfl⟩ := memRead_eq_error hg
    exact ⟨j, by omega, h3, rfl⟩
  · cases hf

theorem rowBody_stop {codec : State → Flow} (h : ∀ s, StopsInRow s (codec s)) (s : State) :
    StopsInRow s (rowBody codec s) := by
  unfold rowBody
  split
  · intro f hf; cases hf
  · exact rawBody_stop s
  · exact h s

/-- `RASTERIZE` stops only at an unwritten pixel that a position samples (R58, R133). -/
theorem rasterizeBody_stop {s : State} {f : Fault} (h : rasterizeBody s = .stop f) :
    ∃ p, Sampled s p ∧ pixelAt s p = none ∧ f = .unwrittenPixel s.x ((p : Int) - s.yoff).toNat := by
  have bits : ∀ n p, rasterBits s p n = .error f →
      ∃ p, Sampled s p ∧ pixelAt s p = none ∧ f = .unwrittenPixel s.x ((p : Int) - s.yoff).toNat := by
    intro n
    induction n with
    | zero => intro p hp; cases hp
    | succ n ih =>
      intro p hp
      rw [rasterBits] at hp
      rcases rasterBit_eq s p with ⟨-, hb⟩ | ⟨h1, h2, hb⟩ | ⟨px, -, -, hb⟩ <;> rw [hb] at hp
      · cases hr : rasterBits s (p + 1) n with
        | error g => rw [hr] at hp; cases hp; exact ih _ hr
        | ok bs => rw [hr] at hp; cases hp
      · cases hp; exact ⟨p, h1, h2, rfl⟩
      · cases hr : rasterBits s (p + 1) n with
        | error g => rw [hr] at hp; cases hp; exact ih _ hr
        | ok bs => rw [hr] at hp; cases hp
  have same : ∀ (v : List Byte) n p, rasterBits (emit v s) p n = rasterBits s p n := by
    intro v n
    induction n with
    | zero => intro p; rfl
    | succ n ih => intro p; simp only [rasterBits, rasterBit_emit, ih]
  have loop : ∀ n i (v : List Byte), rasterLoop n i (emit v s) = .stop f →
      ∃ p, Sampled s p ∧ pixelAt s p = none ∧ f = .unwrittenPixel s.x ((p : Int) - s.yoff).toNat := by
    intro n
    induction n with
    | zero => intro i v hv; cases hv
    | succ n ih =>
      intro i v hv
      rw [rasterLoop, rasterByte, same] at hv
      cases hr : rasterBits s (i * 8) 8 with
      | error g => rw [hr] at hv; cases hv; exact bits _ _ hr
      | ok bs =>
        rw [hr] at hv
        simp only [← emit_append] at hv
        exact ih _ _ hv
  exact loop s.sc 0 [] (by rw [emit_nil]; exact h)

end Sys2Proof.Machine
end

