-- ==== Sys2Proof/Tests/Slice0.lean ====
section
/-!
SUPPORT. Tests. Expected results are the spec's own: the vectors V and T of 95_test_vectors.md, the encodings of
30_encoding.md, or a hand calculation from a cited rule. Then one witness for the hypotheses of every statement.
-/
namespace Sys2Proof.Tests
open Sys2Proof.Machine

/-! ### Helpers -/

/-- The state after reset with a row in `IN`. -/
def withRow (row : List Byte) : State :=
  { State.reset with inBuf := Memory.writeAll [] 0 row, inlen := row.length }

/-- The same with a mode selected. -/
def withMode (m : CMode) (row : List Byte) : State := { withRow row with cmode := m }

/-- The inside of an interpretation of the row. -/
def inside (row : List Byte) : State := prologue (withRow row)

/-- A grey column 0 of the given values, `SC` = 1. -/
def withColumn (gs : List Byte) (yoff : Int) : State :=
  { State.reset with
    img := (List.range gs.length).foldl (fun m y => Image.write m (0, y) (.gray (gs.getD y 0))) []
    w := 1, h := gs.length, sc := 1, yoff := yoff }

/-- A state with a fault recorded (T62). -/
def faulted : State := { State.reset with fault := .modeInvalid, finfo := 1, marg := 0x01#8 }

/-- An ended operation with the result `FE 61` (T70). -/
def ended : State :=
  { withRow [0x61#8, 0x61#8, 0x61#8] with
    outBuf := [(0, 0xFE#8), (1, 0x61#8)], outlen := 2, ip := 3, rc := 2, done := true }

/-- A small block: room for two bytes of result. -/
def small (row : List Byte) : State := { withRow row with par := { capIn := 8, capOut := 2, lw := 8, cw := 8 } }

/-- Why the model has refused. -/
def refusalOf (o : Host.Outcome State Machine.Fault Refusal) : Option Refusal :=
  match o with
  | .next _ => none
  | .fault _ => none
  | .refused r => some r

/-- Where the model has stopped. -/
def faultOf (o : Host.Outcome State Machine.Fault Refusal) : Option Machine.Fault :=
  match o with
  | .next _ => none
  | .fault f => some f
  | .refused _ => none

/-- What is compared: the bytes of `OUT`, `IP`, `DONE`, `FAULT`, `FINFO`. -/
def outcome (o : Host.Outcome State Machine.Fault Refusal) :
    Option (Option (List Byte) × Nat × Bool × FaultCode × Nat) :=
  match o with
  | .next t => some (outRow t, t.ip, t.done, t.fault, t.finfo)
  | .fault _ => none
  | .refused _ => none

/-- The mode after a step, with the host's view of the fault. -/
def modeAfter (o : Host.Outcome State Machine.Fault Refusal) : Option (CMode × FaultCode × Nat) :=
  match o with
  | .next t => some (t.cmode, t.fault, t.finfo)
  | .fault _ => none
  | .refused _ => none

/-! ### Well-formedness: an ill-formed term for each check -/

theorem test_wf_lit_too_long : (Instr.lit 128).wf = false := by decide
theorem test_wf_rep_zero : (Instr.rep 0).wf = false := by decide
theorem test_wf_rep_too_long : (Instr.rep 129).wf = false := by decide
theorem test_wf_bounds : (Instr.lit 127).wf = true ∧ (Instr.rep 1).wf = true ∧ (Instr.rep 128).wf = true := by decide
theorem test_wf_unit_empty_literal : (RowUnit.lit []).wf = false := by decide
theorem test_wf_unit_long_literal : (RowUnit.lit (List.replicate 129 0x00#8)).wf = false := by
  simp [RowUnit.wf, Config.litMax]
theorem test_wf_unit_single_repeat : (RowUnit.rep 1 0x00#8).wf = false := by decide
theorem test_wf_unit_long_repeat : (RowUnit.rep 130 0x00#8).wf = false := by decide
/-- R83 (b): equal neighbours in a literal unit. -/
theorem test_canonical_equal_neighbours : canonical [.lit [0x41#8, 0x41#8]] = false := by decide
/-- R83 (a): a repeat cut off before 129. -/
theorem test_canonical_cut_repeat : canonical [.rep 2 0x41#8, .rep 2 0x41#8] = false := by decide
/-- R83 (c): a short literal unit before another one. -/
theorem test_canonical_two_literals : canonical [.lit [0x41#8], .lit [0x42#8]] = false := by decide
/-- R83 (b): a literal unit whose last byte goes on in the repeat. -/
theorem test_canonical_literal_into_repeat : canonical [.lit [0x41#8], .rep 2 0x41#8] = false := by decide
theorem test_memory_unsorted : Memory.wf [(1, 0x00#8), (0, 0x00#8)] = false := by decide
theorem test_memory_repeated : Memory.wf [(1, 0x00#8), (1, 0x01#8)] = false := by decide
theorem test_image_unsorted :
    Image.wf [((1, 0), .gray 0x00#8), ((0, 5), .gray 0x00#8)] = false := by decide
theorem test_params_narrow_cursor :
    (Config.Params.wf { capIn := 256, capOut := 3, lw := 8, cw := 8 }) = false := by decide

/-! ### Decoding: words written out from 30_encoding.md, one for each constructor and each corner -/

/-- R71: 0 NNNNNNN. -/
theorem test_decode_lit : decode .unit [0b00000101#8] = .ok (.lit 5) ∧
    decode .unit [0b00000000#8] = .ok (.lit 0) ∧ decode .unit [0b01111111#8] = .ok (.lit 127) := by decide
/-- R72: the tag is the signed byte −M; ED is −19, 80 is −128, FF is −1. -/
theorem test_decode_rep : decode .unit [0b11101101#8] = .ok (.rep 19) ∧
    decode .unit [0b10000000#8] = .ok (.rep 128) ∧ decode .unit [0b11111111#8] = .ok (.rep 1) := by decide
/-- R77. -/
theorem test_decode_compress : decode .operation [0b0001#8] = .ok .compress := by decide
theorem test_decode_decompress : decode .operation [0b0010#8] = .ok .decompress := by decide
theorem test_decode_rasterize : decode .operation [0b0011#8] = .ok .rasterize := by decide
theorem test_decode_setmode : decode .operation [0b0100#8] = .ok .setmode := by decide
theorem test_decode_rowenc : decode .operation [0b0101#8] = .ok .rowenc := by decide
theorem test_decode_rowdec : decode .operation [0b0110#8] = .ok .rowdec := by decide
/-- R80. -/
theorem test_decode_reserved : decode .operation [0b0000#8] = .error (.reservedCode 0x0#4) ∧
    decode .operation [0b0111#8] = .error (.reservedCode 0x7#4) ∧
    decode .operation [0b1111#8] = .error (.reservedCode 0xF#4) ∧
    decode .operation [0b00010001#8] = .error .codeTooWide ∧ decode .unit [] = .error .noBytes := by decide
/-- V10: the row `ED 00 FF 22 05 23 BA BF A2 22 2B` as units. -/
theorem test_decode_row :
    decodeRow [0xED#8, 0x00#8, 0xFF#8, 0x22#8, 0x05#8, 0x23#8, 0xBA#8, 0xBF#8, 0xA2#8, 0x22#8, 0x2B#8] =
      some [.rep 20 0x00#8, .rep 2 0x22#8, .lit [0x23#8, 0xBA#8, 0xBF#8, 0xA2#8, 0x22#8, 0x2B#8]] := by
  decide
/-- T27 in small, and R76. -/
theorem test_decode_truncated : decodeRow [0x01#8, 0x41#8] = none ∧ truncatedUnit [0x01#8, 0x41#8] = true ∧
    truncatedUnit [0xFE#8] = true ∧ truncatedUnit [0x00#8, 0x41#8] = false := by decide
/-- The opcode table's numbering. -/
theorem test_decode_table_words : decodeTableWord 8 0x00 = some (.lit 0) ∧
    decodeTableWord 8 0x80 = some (.rep 128) ∧ decodeTableWord 8 0x04 = some .setmode ∧
    decodeTableWord 4 0x07 = none := by decide

/-! ### Instructions -/

/-- V8, its one unit: `02 A1 A2 A3`. -/
theorem test_lit : outcome (exec (.lit 2) (inside [0x02#8, 0xA1#8, 0xA2#8, 0xA3#8])) =
    some (some [0xA1#8, 0xA2#8, 0xA3#8], 4, false, .none, 0) := by decide
/-- T28: a literal tag as the last byte. -/
theorem test_lit_truncated : outcome (exec (.lit 0) (inside [0x00#8])) =
    some (some [], 0, false, .malformedInput, 0) := by decide
/-- V9, its one unit: `FE A1`. -/
theorem test_rep : outcome (exec (.rep 2) (inside [0xFE#8, 0xA1#8])) =
    some (some [0xA1#8, 0xA1#8, 0xA1#8], 2, false, .none, 0) := by decide
/-- T29: a repeat tag as the last byte. -/
theorem test_rep_truncated : outcome (exec (.rep 2) (inside [0xFE#8])) =
    some (some [], 0, false, .malformedInput, 0) := by decide
/-- V6. -/
theorem test_compress : outcome (exec .compress (withRow [0x61#8, 0x61#8, 0x61#8, 0x61#8, 0x61#8, 0x61#8, 0x78#8,
    0x79#8, 0x62#8, 0x62#8, 0x62#8])) =
    some (some [0xFB#8, 0x61#8, 0x01#8, 0x78#8, 0x79#8, 0xFE#8, 0x62#8], 11, true, .none, 0) := by decide
/-- T20. -/
theorem test_compress_expands : outcome (exec .compress
    (withRow [0x01#8, 0x02#8, 0x02#8, 0x01#8, 0x02#8, 0x02#8, 0x01#8])) =
    some (some [0x00#8, 0x01#8, 0xFF#8, 0x02#8, 0x00#8, 0x01#8, 0xFF#8, 0x02#8, 0x00#8, 0x01#8], 7, true,
      .none, 0) := by decide
/-- T32: not canonical, legal. -/
theorem test_decompress : outcome (exec .decompress (withRow [0x00#8, 0x41#8, 0x00#8, 0x41#8])) =
    some (some [0x41#8, 0x41#8], 4, true, .none, 0) := by decide
/-- T30: the units before the truncated one have been yielded. -/
theorem test_decompress_truncated : outcome (exec .decompress
    (withRow [0xFE#8, 0x41#8, 0x03#8, 0x01#8, 0x02#8])) =
    some (some [0x41#8, 0x41#8, 0x41#8], 2, false, .malformedInput, 2) := by decide
/-- T50: the threshold, and bit 7 first. -/
theorem test_rasterize : outcome (exec .rasterize
    (withColumn [0xE6#8, 0xE7#8, 0x00#8, 0xFF#8, 0xE5#8, 0xE8#8, 0x01#8, 0xFE#8] 0)) =
    some (some [0xAA#8], 0, true, .none, 0) := by decide
/-- T44: a negative offset. -/
theorem test_rasterize_offset : outcome (exec .rasterize (withColumn (List.replicate 8 0x00#8) (-4))) =
    some (some [0xF0#8], 0, true, .none, 0) := by decide
/-- T67, its second `SETMODE`: RunLength to Raw. -/
theorem test_setmode : modeAfter (exec .setmode (withMode .runLength [])) = some (.raw, .none, 0) := by decide
/-- T62. -/
theorem test_setmode_rejects : modeAfter (exec .setmode { State.reset with marg := 0x01#8 }) =
    some (.unset, .modeInvalid, 1) := by decide
/-- T63, its `ROWENC`. -/
theorem test_rowenc : outcome (exec .rowenc (withMode .runLength [0x00#8, 0x00#8, 0x00#8, 0x00#8])) =
    some (some [0xFD#8, 0x00#8], 4, true, .none, 0) := by decide
/-- T61. -/
theorem test_rowenc_unset : outcome (exec .rowenc (withRow [0x00#8, 0x00#8, 0x00#8, 0x00#8])) =
    some (some [], 0, false, .modeUnset, 0) := by decide
/-- T66. -/
theorem test_rowdec_raw : outcome (exec .rowdec (withMode .raw [0xFD#8, 0x00#8])) =
    some (some [0xFD#8, 0x00#8], 2, true, .none, 0) := by decide
/-- T65. -/
theorem test_rowdec : outcome (exec .rowdec (withMode .runLength [0xFD#8, 0x00#8])) =
    some (some [0x00#8, 0x00#8, 0x00#8, 0x00#8], 2, true, .none, 0) := by decide

/-! ### The step -/

/-- T72: a reserved code. -/
theorem test_step_reserved : outcome (step { State.reset with host := [.start 0x7#4] }) =
    some (some [], 0, false, .none, 0) := by decide
/-- T69: a fault blocks a `COMPRESS`; R200: reset clears it. -/
theorem test_step_sticky : modeAfter (step { faulted with host := [.start 0x1#4] }) = some (.unset, .modeInvalid, 1) ∧
    modeAfter (step { faulted with host := [.reset] }) = some (.unset, .none, 0) := by decide
/-- R65. -/
theorem test_step_copy : (match step { ended with host := [.copyResult] } with
    | .next t => inRow t
    | _ => none) = some [0xFE#8, 0x61#8] := by decide

/-! ### Witnesses: for the hypotheses of each statement, concrete states and operands that meet all of them -/

theorem ready_reset : Ready State.reset := ⟨rfl, rfl⟩
theorem ready_withRow (row : List Byte) : Ready (withRow row) := ⟨rfl, rfl⟩
theorem ready_withMode (m : CMode) (row : List Byte) : Ready (withMode m row) := ⟨rfl, rfl⟩
theorem ready_withColumn (gs : List Byte) (z : Int) : Ready (withColumn gs z) := ⟨rfl, rfl⟩

/-- EncodedInstructionDecodesBack, EveryTagIsAUnit, OperationCodesDecode at the ends of their ranges. -/
theorem witness_encodings : (Instr.lit 127).wf = true ∧ (Instr.rep 128).wf = true ∧
    0 ≤ s8 0x7F#8 ∧ s8 0x80#8 < 0 ∧ s8 0xFF#8 < 0 ∧ (0x0#4).toNat = 0 ∧ 7 ≤ (0x7#4).toNat ∧
    7 ≤ (0xF#4).toNat := by decide

/-- RowsDecodeAndEncodeAgree, OnlyTruncatedRowsAreIllFormed, DecompressYieldsTheUnits,
DecompressStopsAtTheTruncatedUnit: units, their bytes, and a truncated tail. -/
theorem witness_rows : (∀ u ∈ [RowUnit.lit [0x41#8], .rep 129 0x00#8], u.wf = true) ∧
    decodeRow [0x00#8, 0x41#8, 0x80#8, 0x00#8] = some [.lit [0x41#8], .rep 129 0x00#8] ∧
    truncatedUnit [0x03#8, 0x01#8, 0x02#8] = true := by decide

/-- CanonicalUnitsAreUnique has no hypotheses; canonical rows there are. -/
theorem witness_canonical : canonical [.rep 129 0x00#8, .rep 2 0x00#8] = true ∧
    canonical [.lit [0x00#8], .rep 3 0x01#8] = true ∧
    expand [.rep 3 0x01#8, .lit [0x00#8]] = expand [.rep 3 0x01#8, .lit [0x00#8]] := by decide

/-- StepRunsTheUnitAtTheCursor. -/
theorem witness_unit_step : (inside [0xFE#8, 0x41#8]).busy = true ∧
    (inside [0xFE#8, 0x41#8]).ip < (inside [0xFE#8, 0x41#8]).inlen ∧
    Memory.read (inside [0xFE#8, 0x41#8]).inBuf (inside [0xFE#8, 0x41#8]).ip = some 0xFE#8 ∧
    decode .unit [0xFE#8] = .ok (.rep 2) := by decide

/-- StepRunsTheStartedOperation, IdleBlockWaits, ReservedCodeChangesNothing, HostWriteChangesOneThing,
ResetKeepsTheHostSide: an idle block and what its host does next. -/
theorem witness_idle_step : State.reset.busy = false ∧ State.reset.host = [] ∧
    ({ State.reset with host := [.start 0x2#4] } : State).host = [.start 0x2#4] ∧
    decode .operation [(0x2#4).setWidth 8] = .ok .decompress ∧
    ({ State.reset with host := [.start 0x0#4] } : State).host = [.start 0x0#4] ∧
    ({ State.reset with host := [.write (.pixel 0 0 (.gray 0x00#8))] } : State).host =
      [.write (.pixel 0 0 (.gray 0x00#8))] ∧
    ({ ended with host := [.reset] } : State).host = [.reset] := by decide

/-- InterpretationEndsAtRowEnd. -/
theorem witness_row_end : (inside []).busy = true ∧ (inside []).inlen ≤ (inside []).ip := by decide

/-- PlacedWordIsTheOneThatRuns: a word of each layer. -/
theorem witness_placed : layerOf (.lit 0) = .unit ∧ layerOf .rowdec = .operation ∧
    decodeTableWord 8 0x07 = some (.lit 7) ∧ decodeTableWord 8 0x06 = some .rowdec ∧
    decodeTableWord 8 0xFF = some (.rep 1) := by decide

/-- CopiedResultIsTheNextRow. -/
theorem witness_copy : ended.busy = false ∧ ended.done = true ∧ outRow ended = some [0xFE#8, 0x61#8] := by decide

/-- FaultIsSticky: each clause. -/
theorem witness_sticky : layerOf .compress = .operation ∧ faulted.busy = false ∧ faulted.fault ≠ .none ∧
    ({ faulted with host := [.start 0x1#4] } : State).host.head? ≠ some .reset ∧
    outcome (step { faulted with host := [.start 0x1#4] }) = some (some [], 0, false, .modeInvalid, 1) := by decide

/-- UnfitStartIsRefused: one state too long, and one for each operand of RASTERIZE at its bound. -/
theorem witness_unfit :
    Ready { State.reset with inlen := 65536 } ∧
    ({ State.reset with inlen := 65536 } : State).par.capIn < 65536 ∧
    2 ^ State.reset.par.cw ≤ 4294967296 ∧ 2 * (-2147483649 : Int) < -(2 ^ State.reset.par.cw : Int) ∧
    (2 ^ State.reset.par.cw : Int) ≤ 2 * 2147483648 ∧ State.reset.par.capOut < 4226944 :=
  ⟨⟨rfl, rfl⟩, by decide⟩

/-- NoOperationStartsWhileBusy, and the busy clauses of BlockNeverWritesTheHostSide and
HostReadsFollowTheAccessRights. -/
theorem witness_busy : (inside [0x00#8, 0x41#8]).busy = true ∧
    outcome (step (inside [0x00#8, 0x41#8])) = some (some [0x41#8], 2, false, .none, 0) := by decide

/-- OperationEndsDoneOrFaulted: the two ways to end, and each reason to stop: a row too long, an operand that does not
fit, a result too long (another `CAP_OUT` holds it), an unwritten byte, an unwritten pixel. -/
theorem witness_ends : Ready (withRow [0x41#8]) ∧ layerOf .compress = .operation ∧
    outcome (exec .compress (withRow [0x41#8])) = some (some [0x00#8, 0x41#8], 1, true, .none, 0) ∧
    outcome (exec .decompress (withRow [0x41#8])) = some (some [], 0, false, .malformedInput, 0) ∧
    refusalOf (exec .compress { State.reset with inlen := 65536 }) = some .overCapacity ∧
    refusalOf (exec .rasterize { State.reset with sc := 4226944 }) = some .overCapacity ∧
    refusalOf (exec .compress (small [0x41#8, 0x42#8])) = some .overCapacity ∧
    faultOf (exec .compress { State.reset with inlen := 1 }) = some (.unwrittenIn 0) ∧
    faultOf (exec .rasterize { State.reset with w := 1, h := 1, sc := 1 }) = some (.unwrittenPixel 0 0) :=
  ⟨⟨rfl, rfl⟩, by decide, by decide, by decide, by decide, by decide, by decide, by decide, by decide⟩

/-- LitCopiesItsPayload, TruncatedLitRaises: one byte more, one byte less. -/
theorem witness_lit : (inside [0x00#8, 0x41#8]).ip + 0 + 2 ≤ (inside [0x00#8, 0x41#8]).inlen ∧
    Memory.readN (inside [0x00#8, 0x41#8]).inBuf ((inside [0x00#8, 0x41#8]).ip + 1) (0 + 1) = some [0x41#8] ∧
    (inside [0x00#8, 0x41#8]).outlen + (0 + 1) ≤ (inside [0x00#8, 0x41#8]).par.capOut ∧
    (inside [0x00#8]).inlen < (inside [0x00#8]).ip + 0 + 2 := by decide

/-- RepCopiesItsByte, TruncatedRepRaises. -/
theorem witness_rep : (inside [0x80#8, 0x41#8]).ip + 2 ≤ (inside [0x80#8, 0x41#8]).inlen ∧
    Memory.read (inside [0x80#8, 0x41#8]).inBuf ((inside [0x80#8, 0x41#8]).ip + 1) = some 0x41#8 ∧
    (inside [0x80#8, 0x41#8]).outlen + (128 + 1) ≤ (inside [0x80#8, 0x41#8]).par.capOut ∧
    (inside [0x80#8]).inlen < (inside [0x80#8]).ip + 2 := by decide

/-- WhereUnitsStop: each clause. -/
theorem witness_unit_stops :
    (({ inside [0xFE#8] with inlen := 2 } : State).ip + 2 ≤ 2 ∧
      Memory.read (inside [0xFE#8]).inBuf ((inside [0xFE#8]).ip + 1) = none) ∧
    (({ inside [0x00#8] with inlen := 2 } : State).ip + 0 + 2 ≤ 2 ∧
      Memory.readN (inside [0x00#8]).inBuf ((inside [0x00#8]).ip + 1) (0 + 1) = none) ∧
    (prologue (small [0xFE#8, 0x41#8])).par.capOut < (prologue (small [0xFE#8, 0x41#8])).outlen + (2 + 1) ∧
    Memory.read (prologue (small [0xFE#8, 0x41#8])).inBuf 1 = some 0x41#8 ∧
    (prologue (small [0x02#8, 0x41#8, 0x42#8, 0x43#8])).par.capOut <
      (prologue (small [0x02#8, 0x41#8, 0x42#8, 0x43#8])).outlen + (2 + 1) ∧
    Memory.readN (small [0x02#8, 0x41#8, 0x42#8, 0x43#8]).inBuf 1 (2 + 1) =
      some [0x41#8, 0x42#8, 0x43#8] := by decide

/-- The row statements (CompressEmitsTheCanonicalUnits, CompressAtMostDoubles, DecompressUndoesCompress,
DecompressSizeBound): a row in `IN` that fits, with room for the result. -/
theorem witness_row : Ready (withRow [0x41#8, 0x42#8]) ∧
    (withRow [0x41#8, 0x42#8]).inlen ≤ (withRow [0x41#8, 0x42#8]).par.capIn ∧
    inRow (withRow [0x41#8, 0x42#8]) = some [0x41#8, 0x42#8] ∧
    2 * (withRow [0x41#8, 0x42#8]).inlen ≤ (withRow [0x41#8, 0x42#8]).par.capOut ∧
    129 * ((withRow [0x41#8, 0x42#8]).inlen / 2) ≤ (withRow [0x41#8, 0x42#8]).par.capOut :=
  ⟨ready_withRow _, by decide⟩

/-- CompressEmitsTheCanonicalUnits, its second branch: `41 42` needs three bytes and there is room for two. -/
theorem witness_row_too_long : Ready (small [0x41#8, 0x42#8]) ∧
    (small [0x41#8, 0x42#8]).inlen ≤ (small [0x41#8, 0x42#8]).par.capIn ∧
    inRow (small [0x41#8, 0x42#8]) = some [0x41#8, 0x42#8] ∧
    (small [0x41#8, 0x42#8]).par.capOut < (encodeRow [.lit [0x41#8, 0x42#8]]).length :=
  ⟨⟨rfl, rfl⟩, by decide⟩

/-- DecompressUndoesCompress, RowdecUndoesRowenc: the compressed row of `41 42` in the second block, and room for it
or not (`small` has none). -/
theorem witness_round_trip : refusalOf (exec .compress (small [0x41#8, 0x42#8])) = some .overCapacity ∧
    Ready (withRow [0x01#8, 0x41#8, 0x42#8]) ∧
    inRow (withRow [0x01#8, 0x41#8, 0x42#8]) = some [0x01#8, 0x41#8, 0x42#8] ∧
    outcome (exec .compress (withRow [0x41#8, 0x42#8])) =
      some (some [0x01#8, 0x41#8, 0x42#8], 2, true, .none, 0) :=
  ⟨by decide, ready_withRow _, by decide⟩

/-- ResultBeyondCapacityIsRefused: each clause, the second with and without a truncated unit. -/
theorem witness_beyond_capacity :
    (Ready { small [0x41#8, 0x42#8, 0x43#8] with cmode := .raw } ∧
      inRow (small [0x41#8, 0x42#8, 0x43#8]) = some [0x41#8, 0x42#8, 0x43#8] ∧
      (small [0x41#8, 0x42#8, 0x43#8]).inlen ≤ (small [0x41#8, 0x42#8, 0x43#8]).par.capIn ∧
      (small [0x41#8, 0x42#8, 0x43#8]).par.capOut < 3) ∧
    ((RowUnit.rep 3 0x41#8).wf = true ∧ truncatedUnit [0xFE#8] = true ∧
      inRow (small [0xFE#8, 0x41#8, 0xFE#8]) = some (encodeRow [.rep 3 0x41#8] ++ [0xFE#8]) ∧
      inRow (small [0xFE#8, 0x41#8]) = some (encodeRow [.rep 3 0x41#8] ++ []) ∧
      (small [0xFE#8, 0x41#8]).par.capOut < (expand [.rep 3 0x41#8]).length) ∧
    canonical [.lit [0x41#8, 0x42#8]] = true ∧
    inRow (small [0x41#8, 0x42#8]) = some (expand [.lit [0x41#8, 0x42#8]]) ∧
    (small [0x41#8, 0x42#8]).par.capOut < (encodeRow [.lit [0x41#8, 0x42#8]]).length :=
  ⟨⟨⟨rfl, rfl⟩, by decide⟩, by decide, by decide⟩

/-- CompressCutsRunsAt129: two bytes (remainder 2) and 129 (remainder 0). -/
theorem witness_runs : (2 ≤ 2 ∧ inRow (withRow (List.replicate 2 0x41#8)) = some (List.replicate 2 0x41#8) ∧
    2 * 2 ≤ (withRow (List.replicate 2 0x41#8)).par.capOut) ∧ 129 % 129 = 0 ∧ 130 % 129 = 1 ∧ 131 % 129 = 2 := by
  decide

/-- CompressSplitsLiteralsAt128. -/
theorem witness_literals : distinctNeighbours [0x41#8, 0x42#8, 0x41#8] = true ∧
    inRow (withRow [0x41#8, 0x42#8, 0x41#8]) = some [0x41#8, 0x42#8, 0x41#8] ∧
    2 * [0x41#8, 0x42#8, 0x41#8].length ≤ (withRow [0x41#8, 0x42#8, 0x41#8]).par.capOut := by decide

/-- DecompressYieldsTheUnits, both branches, and DecompressStopsAtTheTruncatedUnit. -/
theorem witness_units : Ready (withRow [0xFE#8, 0x41#8]) ∧ (RowUnit.rep 3 0x41#8).wf = true ∧
    inRow (withRow [0xFE#8, 0x41#8]) = some (encodeRow [.rep 3 0x41#8]) ∧
    (expand [.rep 3 0x41#8]).length ≤ (withRow [0xFE#8, 0x41#8]).par.capOut ∧
    inRow (small [0xFE#8, 0x41#8]) = some (encodeRow [.rep 3 0x41#8]) ∧
    (small [0xFE#8, 0x41#8]).par.capOut < (expand [.rep 3 0x41#8]).length ∧
    inRow (withRow [0xFE#8, 0x41#8, 0xFE#8]) = some (encodeRow [.rep 3 0x41#8] ++ [0xFE#8]) ∧
    truncatedUnit [0xFE#8] = true :=
  ⟨ready_withRow _, by decide⟩

/-- DecompressIsNotInjective: each of the rows, and the row they expand to. -/
theorem witness_not_injective : 2 ≤ (withRow [0xFF#8, 0x41#8]).par.capOut ∧
    inRow (withRow [0x00#8, 0x41#8, 0x00#8, 0x41#8]) = some [0x00#8, 0x41#8, 0x00#8, 0x41#8] ∧
    inRow (withRow [0x01#8, 0x41#8, 0x41#8]) = some [0x01#8, 0x41#8, 0x41#8] ∧
    inRow (withRow [0xFF#8, 0x41#8]) = some [0xFF#8, 0x41#8] ∧
    inRow (withRow [0x41#8, 0x41#8]) = some [0x41#8, 0x41#8] := by decide

/-- DecompressIsTheRunOfItsUnits: two units, three steps. -/
theorem witness_unit_run : (withRow [0xFE#8, 0x41#8, 0x00#8, 0x42#8]).host = [] ∧
    (inRow (withRow [0xFE#8, 0x41#8, 0x00#8, 0x42#8])).isSome = true ∧
    (match Host.Core.run Sys2Proof.core 3 (prologue (withRow [0xFE#8, 0x41#8, 0x00#8, 0x42#8])) with
      | .next t => (State.busy t, outRow t)
      | _ => (true, none)) = (false, some [0x41#8, 0x41#8, 0x41#8, 0x42#8]) := by decide

/-- RasterizeSamplesEveryPosition and RasterizeStopsAtUnwrittenPixel: positions that fall on the image, written and not,
and positions that do not. -/
theorem witness_raster : Ready (withColumn [0xE6#8, 0xE7#8] 3) ∧ RasterOperandsFit (withColumn [0xE6#8, 0xE7#8] 3) ∧
    (Sampled (withColumn [0xE6#8, 0xE7#8] 3) 3 ∧ Sampled (withColumn [0xE6#8, 0xE7#8] 3) 4 ∧
      ¬ Sampled (withColumn [0xE6#8, 0xE7#8] 3) 2 ∧ ¬ Sampled (withColumn [0xE6#8, 0xE7#8] 3) 5) ∧
    pixelAt (withColumn [0xE6#8, 0xE7#8] 3) 3 = some (.gray 0xE6#8) ∧
    pixelAt (withColumn [0xE6#8, 0xE7#8] 3) 4 = some (.gray 0xE7#8) ∧
    pixelAt { withColumn [0xE6#8, 0xE7#8] 3 with img := [] } 3 = none :=
  ⟨ready_withColumn _ _, by constructor <;> decide, by unfold Sampled; decide, by decide⟩

/-- The RGB clause of RasterizeSamplesEveryPosition (T41: the sum 690 is black, 691 is white). -/
theorem witness_raster_rgb : outcome (exec .rasterize
    { State.reset with
      img := [((0, 0), .rgb 0xE6#8 0xE6#8 0xE6#8), ((0, 1), .rgb 0xE7#8 0xE6#8 0xE6#8)],
      fmt := .rgb, w := 1, h := 2, sc := 1 }) = some (some [0x80#8], 0, true, .none, 0) := by decide

/-- RasterizeOutsideTheImageIsWhite: each clause at its bound. -/
theorem witness_outside : ({ withColumn [0x00#8] 0 with x := 1 } : State).w ≤ 1 ∧
    ({ withColumn [0x00#8] 0 with h := 0 } : State).h = 0 ∧
    (8 * (withColumn [0x00#8] 8).sc : Int) ≤ (withColumn [0x00#8] 8).yoff ∧
    (withColumn [0x00#8] (-1)).yoff ≤ -((withColumn [0x00#8] (-1)).h : Int) ∧
    RasterOperandsFit (withColumn [0x00#8] (-1)) :=
  ⟨by decide, by decide, by decide, by decide, by constructor <;> decide⟩

/-- SetmodeSelectsTheMode, SetmodeRejectsOtherValues: each value, and the value between them. -/
theorem witness_setmode : Ready State.reset ∧ ({ State.reset with marg := 0x00#8 } : State).marg = 0x00#8 ∧
    ({ State.reset with marg := 0x02#8 } : State).marg = 0x02#8 ∧
    faulted.marg ≠ 0x00#8 ∧ faulted.marg ≠ 0x02#8 :=
  ⟨ready_reset, by decide⟩

/-- RowOperationsNeedAMode, RawModeIsTheIdentity, RunLengthModeIsTheCodec, RowdecUndoesRowenc: each mode. -/
theorem witness_modes : Ready (withMode .unset [0x41#8]) ∧ (withMode .unset [0x41#8]).cmode = .unset ∧
    Ready (withMode .raw [0x41#8]) ∧ (withMode .raw [0x41#8]).cmode = .raw ∧
    (withMode .raw [0x41#8]).inlen ≤ (withMode .raw [0x41#8]).par.capIn ∧
    (withMode .raw [0x41#8]).inlen ≤ (withMode .raw [0x41#8]).par.capOut ∧
    inRow (withMode .raw [0x41#8]) = some [0x41#8] ∧
    Ready (withMode .runLength [0x41#8]) ∧ (withMode .runLength [0x41#8]).cmode = .runLength ∧
    inRow (withMode .runLength [0x41#8]) = some [0x41#8] ∧
    inRow (withMode .runLength [0x00#8, 0x41#8]) = some [0x00#8, 0x41#8] :=
  ⟨ready_withMode _ _, rfl, ready_withMode _ _, rfl, by decide, by decide, by decide, ready_withMode _ _, rfl,
    by decide, by decide⟩

/-- The frames: each operation goes on from such a state (the tests of the instructions above give the others). -/
theorem witness_frames : (outcome (exec .compress (withRow [0x41#8]))).isSome = true ∧
    (outcome (exec .rasterize (withColumn [0x00#8] 0))).isSome = true ∧
    (modeAfter (exec .setmode State.reset)).isSome = true := by decide

/-- UnwrittenRowStopsTheModel: a row of one byte that nothing has written, one whose second unit is missing, and units
inside `INLEN` whose last payload byte is missing. -/
theorem witness_unwritten : Ready { State.reset with inlen := 1 } ∧
    inRow { State.reset with inlen := 1 } = none ∧
    ({ withMode .raw [] with inlen := 1 } : State).cmode ≠ .unset ∧
    Memory.readN (withRow [0xFE#8, 0x41#8]).inBuf 0 (encodeRow [.rep 3 0x41#8]).length =
      some (encodeRow [.rep 3 0x41#8]) ∧
    (encodeRow [.rep 3 0x41#8]).length < 3 ∧
    Memory.read (withRow [0xFE#8, 0x41#8]).inBuf (encodeRow [.rep 3 0x41#8]).length = none ∧
    (0 ≤ s8 0x01#8 ∧ faultOf (exec .decompress { withRow [0xFE#8, 0x41#8, 0x01#8, 0x42#8] with inlen := 5 }) =
      some (.unwrittenIn 4)) ∧
    (s8 0xFF#8 < 0 ∧ faultOf (exec .decompress { withRow [0xFE#8, 0x41#8, 0xFF#8] with inlen := 4 }) =
      some (.unwrittenIn 3)) :=
  ⟨⟨rfl, rfl⟩, by decide, by decide, by decide, by decide, by decide, by decide, by decide⟩

/-- OnlySetmodeAndResetChangeTheMode: a step that changes the mode. -/
theorem witness_mode_change :
    modeAfter (step { State.reset with host := [.start 0x4#4] }) = some (.raw, .none, 0) ∧
    State.reset.cmode = .unset := by decide

/-- BlockNeverWritesTheHostSide, its second clause. -/
theorem witness_started : ({ withRow [0x41#8] with host := [.start 0x1#4] } : State).busy = false ∧
    outcome (step { withRow [0x41#8] with host := [.start 0x1#4] }) =
      some (some [0x00#8, 0x41#8], 1, true, .none, 0) := by decide

/-- ResultDependsOnlyOnOperandsRead: two blocks with one row in different modes and with different pasts. -/
theorem witness_same_operands : Ready ended ∧ Ready (withMode .raw [0x61#8, 0x61#8, 0x61#8]) ∧
    (withMode .raw [0x61#8, 0x61#8, 0x61#8]).par = ended.par ∧
    (withMode .raw [0x61#8, 0x61#8, 0x61#8]).inBuf = ended.inBuf ∧
    (withMode .raw [0x61#8, 0x61#8, 0x61#8]).inlen = ended.inlen ∧
    (withColumn [0x00#8] 0).img = { withColumn [0x00#8] 0 with cmode := .raw }.img :=
  ⟨⟨rfl, rfl⟩, ready_withMode _ _, rfl, by decide, by decide, rfl⟩

/-- EveryStepKeepsTheInvariant: the reset state meets it, and steps to a next state. -/
theorem witness_invariant : outcome (step State.reset) = some (some [], 0, false, .none, 0) := by decide

/-- HostReadsFollowTheAccessRights: an idle block with a result, and a recorded fault (T62: `FAULT` reads 3). -/
theorem witness_reads : ended.busy = false ∧ outRow ended = some [0xFE#8, 0x61#8] ∧
    [0xFE#8, 0x61#8][1]? = some 0x61#8 ∧ ended.outlen ≤ 2 ∧
    hostRead .fault faulted = .code 3#2 ∧ hostRead .cmodeVal (withMode .runLength []) = .byte 0x02#8 := by decide

end Sys2Proof.Tests
end

/-! PROOFS, family 10_state: the invariant of the machine (O54, O55). -/
namespace Sys2Proof.Machine

/-! ### The part of the invariant that `STATUS` and the fault registers play no part in -/

/-- What `Inv` says of the buffers and of the working registers. -/
structure DataInv (s : State) : Prop where
  inWf : Memory.wf s.inBuf = true
  outWf : Memory.wf s.outBuf = true
  imgWf : Image.wf s.img = true
  rested : Rested s
  outHeld : s.outlen ≤ s.par.capOut
  outWritten : ∀ a < s.outlen, (Memory.read s.outBuf a).isSome = true

theorem Inv.data {s : State} (h : Inv s) : DataInv s :=
  ⟨h.inWf, h.outWf, h.imgWf, ⟨h.lbEmpty, h.rcBound⟩, h.outHeld, (isSome_outRow s).1 h.outWritten⟩

/-- `Inv` of an idle state: beside its data, `DONE` and the detail of the fault. -/
theorem DataInv.inv_of_idle {s : State} (d : DataInv s) (hb : s.busy = false)
    (hd : s.done = true → s.fault = .none) (hf : s.fault.detailFits s.finfo s.ip) : Inv s where
  inWf := d.inWf
  outWf := d.outWf
  imgWf := d.imgWf
  rcBound := d.rested.2
  lbEmpty := d.rested.1
  outHeld := d.outHeld
  outWritten := (isSome_outRow s).2 d.outWritten
  running := fun h => absurd h (by simp [hb])
  doneNoFault := hd
  detail := hf

/-- A start empties the result and the working registers (R37). -/
theorem DataInv.prologue {s : State} (d : DataInv s) : DataInv (prologue s) where
  inWf := by simpa using d.inWf
  outWf := by simpa using d.outWf
  imgWf := by simpa using d.imgWf
  rested := prologue_rested s
  outHeld := by simp
  outWritten := by simp

/-- The prologue of `SETMODE` keeps the result (R37). -/
theorem DataInv.prologueMode {s : State} (d : DataInv s) : DataInv (prologueMode s) where
  inWf := by simpa using d.inWf
  outWf := by simpa using d.outWf
  imgWf := by simpa using d.imgWf
  rested := by simp [Rested]
  outHeld := by simpa using d.outHeld
  outWritten := by simpa using d.outWritten

/-- It says nothing of `CMODE`. -/
theorem DataInv.withMode {s : State} (d : DataInv s) (m : CMode) : DataInv { s with cmode := m } := { d with }

/-- A piece of a body keeps it where it leaves `LB` empty, `RC` bounded and a result that fits `CAP_OUT`. -/
theorem DataInv.of_bodyKeeps {s t : State} (d : DataInv s) (k : BodyKeeps s t) (hr : Rested t)
    (hc : t.outlen ≤ s.par.capOut) : DataInv t where
  inWf := k.hostSide.inBuf ▸ d.inWf
  outWf := k.wf d.outWf
  imgWf := k.hostSide.img ▸ d.imgWf
  rested := hr
  outHeld := k.hostSide.par ▸ hc
  outWritten := k.allWritten d.outWritten

/-! ### The ways an operation ends -/

@[simp] theorem detailFits_none {info ip : Nat} : FaultCode.none.detailFits info ip ↔ info = 0 := Iff.rfl

/-- The epilogue of an operation that recorded no fault (R38). -/
theorem DataInv.inv_epilogue {u : State} (d : DataInv u) (hf : u.fault = .none) (hi : u.finfo = 0) :
    Inv (epilogue u) :=
  DataInv.inv_of_idle ⟨d.inWf, d.outWf, d.imgWf, d.rested, d.outHeld, d.outWritten⟩ rfl (fun _ => hf)
    (by simpa [hf] using hi)

/-- A `raise` with the detail R171 gives the fault. -/
theorem DataInv.inv_raise {u : State} {f : FaultCode} {info : Nat} (d : DataInv u)
    (hf : f.detailFits info u.ip) : Inv (raise f info u) :=
  DataInv.inv_of_idle ⟨d.inWf, d.outWf, d.imgWf, d.rested, d.outHeld, d.outWritten⟩ rfl nofun hf

theorem Inv.finfo_of_noFault {s : State} (h : Inv s) (hf : s.fault = .none) : s.finfo = 0 := by
  simpa [hf] using h.detail

/-- An operation that writes `OUT` keeps the invariant. -/
theorem operation_inv {fits : State → Bool} {body : State → Flow} (hk : ∀ u, FlowKeeps u (body u))
    (hr : ∀ u, Rested u → FlowAll Rested (body u)) {s t : State} (h : Inv s)
    (hn : operation fits body s = .next t) : Inv t := by
  have keeps := hk (prologue s)
  have rested := hr _ (prologue_rested s)
  rcases operation_next hn with ⟨-, rfl⟩ | ⟨hs, -, hc, ⟨u, hu, rfl⟩ | hu⟩
  · exact h
  · rw [hu] at keeps rested
    have k : BodyKeeps (prologue s) u := keeps
    have d : DataInv u := h.data.prologue.of_bodyKeeps k rested (by simpa using hc)
    exact d.inv_epilogue (by simpa [hs.noFault] using k.fault)
      (by simpa [h.finfo_of_noFault hs.noFault] using k.finfo)
  · rw [hu] at keeps rested
    obtain ⟨u, f, info, k, rfl, -, hd⟩ := keeps
    have d : DataInv u := h.data.prologue.of_bodyKeeps k rested (by simpa using hc)
    exact d.inv_raise hd

/-- The detail of ModeInvalid is a mode byte that is not legal (R151). -/
theorem detailFits_modeInvalid {b : Byte} {ip : Nat} (h0 : b ≠ 0x00#8) (h2 : b ≠ 0x02#8) :
    FaultCode.modeInvalid.detailFits b.toNat ip :=
  ⟨b.isLt, fun h => h0 (BitVec.eq_of_toNat_eq h), fun h => h2 (BitVec.eq_of_toNat_eq h)⟩

/-- `SETMODE` keeps the invariant. -/
theorem setmode_inv {s t : State} (h : Inv s) (hn : exec .setmode s = .next t) : Inv t := by
  have d := h.data.prologueMode
  rcases setmode_next hn with ⟨-, rfl⟩ | ⟨hs, ⟨-, rfl⟩ | ⟨-, rfl⟩ | ⟨h0, h2, rfl⟩⟩
  · exact h
  · exact (d.withMode _).inv_epilogue (by simpa using hs.noFault) (by simpa using h.finfo_of_noFault hs.noFault)
  · exact (d.withMode _).inv_epilogue (by simpa using hs.noFault) (by simpa using h.finfo_of_noFault hs.noFault)
  · exact d.inv_raise (detailFits_modeInvalid h0 h2)

theorem exec_operation_inv {i : Instr} {s t : State} (hi : layerOf i = .operation) (h : Inv s)
    (hn : exec i s = .next t) : Inv t := by
  rcases exec_operation_cases hi with rfl | ⟨fits, body, he, hk, hr⟩
  · exact setmode_inv h hn
  · exact operation_inv hk hr h (he s ▸ hn)

/-! ### The moves of the host -/

/-- Where only the host's side changes, the invariant of an idle state is that of its data. -/
theorem Inv.of_sameBlockSide {s t : State} (h : Inv s) (hb : s.busy = false) (k : SameBlockSide s t)
    (d : DataInv t) : Inv t :=
  d.inv_of_idle (k.busy.trans hb) (by rw [k.done, k.fault]; exact h.doneNoFault)
    (by rw [k.fault, k.finfo, k.ip]; exact h.detail)

theorem SameBlockSide.refl (s : State) : SameBlockSide s s := ⟨rfl, rfl, rfl, rfl, rfl, rfl, rfl, rfl, rfl⟩

theorem hostWrite_blockSide (hw : HostWrite) (s : State) : SameBlockSide s (hostWrite hw s) := by
  cases hw <;> exact { SameBlockSide.refl s with }

theorem DataInv.hostWrite {s : State} (d : DataInv s) (hw : HostWrite) : DataInv (hostWrite hw s) := by
  cases hw with
  | inByte i b => exact { d with inWf := Memory.wf_write _ i b d.inWf }
  | pixel x y p => exact { d with imgWf := Image.wf_write _ (x, y) p d.imgWf }
  | _ => exact { d with }

/-- The invariant speaks of no move that is still to come. -/
theorem Inv.takeMove {s : State} (h : Inv s) (ms : List HostMove) : Inv { s with host := ms } := { h with }

/-- Reset makes the invariant true, whatever the registers held, where the buffers are in their canonical form. -/
theorem resetBlock_inv {s : State} (hin : Memory.wf s.inBuf = true) (hout : Memory.wf s.outBuf = true)
    (himg : Image.wf s.img = true) : Inv (resetBlock s) := by
  have d : DataInv (resetBlock s) := ⟨hin, hout, himg, by simp [Rested], by simp, by simp⟩
  exact d.inv_of_idle rfl nofun rfl

theorem hostMove_inv {m : HostMove} {s t : State} (hb : s.busy = false) (h : Inv s)
    (hn : hostMove m s = .next t) : Inv t := by
  rcases hostMove_cases hb hn with ⟨hw, -, rfl⟩ | ⟨row, -, -, -, rfl⟩ | ⟨-, rfl⟩ | ⟨c, -, rfl | ⟨i, hi, hx⟩⟩
  · exact h.of_sameBlockSide hb (hostWrite_blockSide hw s) (h.data.hostWrite hw)
  · exact h.of_sameBlockSide hb { SameBlockSide.refl s with }
      { h.data with inWf := Memory.wf_writeAll _ 0 row h.inWf }
  · exact resetBlock_inv h.inWf h.outWf h.imgWf
  · exact h
  · exact exec_operation_inv (layerOf_decodeOp hi) h hx

/-! ### The unit at the cursor -/

/-- How a unit ends that does not stop the model: the cursor stays inside the row, or MalformedInput is raised at
the tag before anything is written (R114, R115). -/
def UnitEnd (s : State) : Flow → Prop
  | .go t => t.ip ≤ s.inlen
  | .raised t => t = raise .malformedInput s.ip s
  | .stop _ => True

theorem litBody_unitEnd (n : Nat) (s : State) : UnitEnd s (litBody n s) := by
  unfold litBody
  split
  · exact rfl
  · next hfit =>
    split
    · trivial
    · exact Nat.le_of_not_lt hfit

theorem repBody_unitEnd (m : Nat) (s : State) : UnitEnd s (repBody m s) := by
  unfold repBody
  split
  · exact rfl
  · next hfit =>
    split
    · trivial
    · exact Nat.le_of_not_lt hfit

theorem decompressPass_unitEnd (s : State) : UnitEnd s (decompressPass s) := by
  unfold decompressPass
  split
  · trivial
  · split
    · exact repBody_unitEnd _ s
    · exact litBody_unitEnd _ s

/-- A unit that goes on keeps the invariant where its result fits `CAP_OUT`. -/
theorem unit_go_inv {s t : State} (hb : s.busy = true) (h : Inv s) (hu : decompressPass s = .go t)
    (hc : t.outlen ≤ s.par.capOut) : Inv t := by
  have keeps := decompressPass_keeps s
  have working := decompressPass_working s
  have hend := decompressPass_unitEnd s
  rw [hu] at keeps working hend
  have k : BodyKeeps s t := keeps
  have w : SameWorking s t := working
  have d : DataInv t := h.data.of_bodyKeeps k (FlowAll.rested (r := .go t) w h.data.rested) hc
  obtain ⟨hdone, hfault, -⟩ := h.running hb
  have hfault' : t.fault = .none := k.fault.trans hfault
  exact {
    inWf := d.inWf
    outWf := d.outWf
    imgWf := d.imgWf
    rcBound := d.rested.2
    lbEmpty := d.rested.1
    outHeld := d.outHeld
    outWritten := (isSome_outRow t).2 d.outWritten
    running := fun _ => ⟨k.done.trans hdone, hfault', k.hostSide.inlen ▸ hend⟩
    doneNoFault := fun _ => hfault'
    detail := by rw [hfault']; exact k.finfo.trans (h.finfo_of_noFault hfault) }

theorem busyStep_inv {s t : State} (hb : s.busy = true) (h : Inv s) (hn : step s = .next t) : Inv t := by
  obtain ⟨-, hfault, -⟩ := h.running hb
  rcases step_busy_cases hb hn with ⟨-, rfl⟩ | ⟨-, _, -, ⟨_, hu, hc, rfl⟩ | hu⟩
  · exact h.data.inv_epilogue hfault (h.finfo_of_noFault hfault)
  · exact unit_go_inv hb h hu hc
  · have hend := decompressPass_unitEnd s
    rw [hu] at hend
    obtain rfl : t = raise .malformedInput s.ip s := hend
    exact h.data.inv_raise rfl

theorem idleStep_inv {s t : State} (hb : s.busy = false) (h : Inv s) (hn : step s = .next t) : Inv t := by
  rcases step_idle_cases hb hn with ⟨-, rfl⟩ | ⟨m, ms, -, hm⟩
  · exact h
  · exact hostMove_inv (s := { s with host := ms }) hb (h.takeMove ms) hm

/-! ### The obligations -/

/-- Settles O55: a busy step ends the interpretation or runs one unit, an idle one waits or takes a move of the host,
and each of these keeps the invariant. -/
theorem everyStepKeepsTheInvariant : Obligations.EveryStepKeepsTheInvariant := by
  intro s t h hn
  cases hb : s.busy with
  | true => exact busyStep_inv hb h hn
  | false => exact idleStep_inv hb h hn

/-- Settles O54: the state after a first reset is one that reset leaves, its buffers empty. -/
theorem invariantHoldsAtReset : Obligations.InvariantHoldsAtReset := by
  obtain ⟨hin, hout, himg⟩ := reset_buffers_wf
  exact resetBlock_inv hin hout himg

end Sys2Proof.Machine

/-! PROOFS, family 10_state: what one step runs (O8, O9, O11, O13, O14). -/
namespace Sys2Proof.Machine

/-! ### The three ways a step comes to its instruction -/

/-- A busy step runs the unit whose tag lies at `IP` (R24, R111). -/
theorem step_unit {s : State} {t : Byte} (hb : s.busy = true) (hi : s.ip < s.inlen)
    (ht : Memory.read s.inBuf s.ip = some t) : step s = exec (decodeTag t) s := by
  rw [step_busy hb, interpretNext, if_pos hi, readIn_eq_ok.2 ht]

/-- An idle step takes the host's next move. -/
theorem step_move {s : State} {m : HostMove} {ms : List HostMove} (hb : s.busy = false)
    (hh : s.host = m :: ms) : step s = hostMove m { s with host := ms } := by
  rw [step_idle hb, hostNext, hh]

/-- A start runs the operation its code names (R35). -/
theorem hostMove_start {s : State} {c : BitVec 4} {i : Instr} (hb : s.busy = false) (hc : decodeOp c = .ok i) :
    hostMove (.start c) s = exec i s := by
  simp [hostMove, startOp, hb, hc]

theorem hostMove_write {s : State} (hw : HostWrite) (hb : s.busy = false) :
    hostMove (.write hw) s = .next (hostWrite hw s) := by
  simp [hostMove, hb]

/-- A code held in one byte decodes as the code does (R77). -/
theorem decode_operation_code (c : BitVec 4) : decode .operation [c.setWidth 8] = decodeOp c := by
  have hlt : (c.setWidth 8).toNat < 16 := by
    rw [BitVec.toNat_setWidth_of_le (by omega)]; exact c.isLt
  have hback : (c.setWidth 8).setWidth 4 = c := BitVec.setWidth_setWidth_of_le c (by omega)
  rw [decode, if_pos hlt, hback]

/-- Settles O8: the decoder of the unit layer reads the tag that `interpretNext` fetches. That the inside of an
operation is stepped unit by unit is the model's choice (log 1). -/
theorem stepRunsTheUnitAtTheCursor : Obligations.StepRunsTheUnitAtTheCursor := by
  intro s t i hb hi ht hd
  obtain rfl : decodeTag t = i := by simpa [decode] using hd
  exact step_unit hb hi ht

/-- Settles O9: the idle step takes the start and runs what its code decodes to. The list of moves is the model's
choice (log 2). -/
theorem stepRunsTheStartedOperation : Obligations.StepRunsTheStartedOperation := by
  intro s c ms i hb hh hd
  rw [decode_operation_code] at hd
  rw [step_move hb hh]
  exact hostMove_start hb hd

/-- Settles O11: with no move left `hostNext` answers the state it is given. -/
theorem idleBlockWaits : Obligations.IdleBlockWaits := by
  intro s hb hh
  rw [step_idle hb, hostNext, hh]

/-! ### A word of the opcode table's numbering -/

/-- The first byte of an 8-bit word is the word; zero bytes follow it. -/
theorem tableBytes_eight (w : Nat) :
    tableBytes 8 w = BitVec.ofNat 8 w ::
      (List.range 128).map fun k => BitVec.ofNat 8 ((w % 2 ^ 8) >>> (8 * (k + 1))) := by
  rw [tableBytes, longestUnit, List.range_succ_eq_map, List.map_cons, List.map_map]
  congr 1
  exact BitVec.eq_of_toNat_eq (by simp)

/-- The codes 1 to 6 are the operations (R77). -/
theorem decodeOp_one_to_six {w : Nat} (h1 : 1 ≤ w) (h6 : w ≤ 6) :
    ∃ i, decodeOp (BitVec.ofNat 4 w) = .ok i := by
  interval_cases w <;> exact ⟨_, rfl⟩

theorem layerOf_decodeTag (t : Byte) : layerOf (decodeTag t) = .unit := by
  unfold decodeTag
  split <;> rfl

/-- A code placed in front of the host's moves is what the idle step runs. -/
theorem step_placeStart {s : State} {b : Byte} {bs : List Byte} {i : Instr} (hd : decodeOp (b.setWidth 4) = .ok i) :
    step (placeStart (b :: bs) s) = exec i { s with busy := false } := by
  rw [step_move (s := placeStart (b :: bs) s) rfl rfl]
  exact hostMove_start rfl hd

/-- A unit placed at the cursor is what the busy step runs. -/
theorem step_placeUnit (s : State) (b : Byte) (bs : List Byte) :
    step (placeUnit (b :: bs) s) = exec (decodeTag b) (placeUnit (b :: bs) s) := by
  have hi : s.ip < s.ip + (b :: bs).length := by simp
  have ht : Memory.read (Memory.writeAll s.inBuf s.ip (b :: bs)) s.ip = some b := by
    simp [Memory.read_writeAll]
  exact step_unit (s := placeUnit (b :: bs) s) rfl hi ht

/-- Settles O13: a byte 1 to 6 is placed as a start (log 14, log 2), every other byte as a unit at the cursor. -/
theorem placedWordIsTheOneThatRuns : Obligations.PlacedWordIsTheOneThatRuns := by
  intro s w hw
  have hb := tableBytes_eight w
  generalize (List.range 128).map _ = rest at hb
  by_cases hop : 1 ≤ w ∧ w ≤ 6
  · obtain ⟨h1, h6⟩ := hop
    have hl : tableLayer 8 w = .operation := by
      rw [tableLayer, if_neg (by decide), if_pos ⟨rfl, by omega, by omega⟩]
    obtain ⟨i, hi⟩ := decodeOp_one_to_six h1 h6
    have h16 : (BitVec.ofNat 8 w).toNat < 16 := by rw [BitVec.toNat_ofNat]; omega
    have hc : (BitVec.ofNat 8 w).setWidth 4 = BitVec.ofNat 4 w := by simp
    rw [← hc] at hi
    refine ⟨i, by simp only [decodeTableWord, hl, hb, decode, if_pos h16, hi], fun hu => ?_, fun _ => ?_⟩
    · rw [layerOf_decodeOp hi] at hu; cases hu
    · simp only [State.withFetchWord, placeWord, hl, hb]
      exact step_placeStart hi
  · have hl : tableLayer 8 w = .unit := by
      rw [tableLayer, if_neg (by decide), if_neg (by omega)]
    refine ⟨decodeTag (BitVec.ofNat 8 w), by simp only [decodeTableWord, hl, hb, decode], fun _ => ?_, fun hu => ?_⟩
    · simp only [State.withFetchWord, placeWord, hl, hb]
      exact step_placeUnit s _ rest
    · rw [layerOf_decodeTag] at hu; cases hu

/-! ### Writes of the host -/

/-- Settles O14: a cell is written as `Memory.write` and `Image.write` write it, a register is replaced. What is
stored of a value, an index or a pixel the spec does not provide for is the model's choice (log 5, 23, 24, 25). -/
theorem hostWriteChangesOneThing : Obligations.HostWriteChangesOneThing := by
  intro s hw ms hb hh
  refine ⟨hostWrite hw { s with host := ms }, ?_, ?_⟩
  · rw [step_move hb hh]
    exact hostMove_write hw hb
  · cases hw with
    | inByte i b => exact ⟨rfl, fun j => Memory.read_write s.inBuf i j b⟩
    | pixel x y p => exact ⟨rfl, fun q => Image.read_write s.img (x, y) q p⟩
    | _ => rfl

end Sys2Proof.Machine

/-! PROOFS, family 10_state: what the operations and the steps leave unchanged (O45, O46, O47, O49, O50). -/
namespace Sys2Proof.Machine

/-! ### Operations -/

theorem epilogue_hostSide (s : State) : SameHostSide s (epilogue s) := by constructor <;> simp

theorem raise_hostSide (f : FaultCode) (info : Nat) (s : State) : SameHostSide s (raise f info s) := by
  constructor <;> simp

/-- The row operations are operations over `IN` whose bodies keep the host's side, and that of `COMPRESS` raises
nothing (R99). -/
theorem exec_row_cases {i : Instr} (hi : i = .compress ∨ i = .decompress ∨ i = .rowenc ∨ i = .rowdec) :
    ∃ body : State → Flow, (∀ s, exec i s = operation rowFits body s) ∧ (∀ u, FlowKeeps u (body u)) ∧
      (i = .compress → ∀ u v, body u ≠ .raised v) := by
  rcases hi with rfl | rfl | rfl | rfl
  · exact ⟨_, exec_compress, compressBody_keeps, fun _ => compressBody_not_raised⟩
  · exact ⟨_, exec_decompress, decompressBody_keeps, nofun⟩
  · exact ⟨_, exec_rowenc, rowBody_keeps compressBody_keeps, nofun⟩
  · exact ⟨_, exec_rowdec, rowBody_keeps decompressBody_keeps, nofun⟩

/-- Settles O45: the frame of every operation that writes `OUT`, and for `COMPRESS` that its body raises nothing. That
`OUT` above the result keeps its bytes is the model's choice (log 22). -/
theorem rowOperationsFrame : Obligations.RowOperationsFrame := by
  intro i s t hi hn
  obtain ⟨body, he, hk, hnever⟩ := exec_row_cases hi
  rw [he] at hn
  have k := operation_keeps hk hn
  exact ⟨k.hostSide, k.cmode, k.outside, fun hc => operation_fault hk (hnever hc) hn, k.finfo⟩

/-- Settles O46: the same frame, and the body of `RASTERIZE` raises nothing (R138). That `OUT` above the result keeps
its bytes is the model's choice (log 22). -/
theorem rasterizeFrame : Obligations.RasterizeFrame := by
  intro s t hn
  rw [exec_rasterize] at hn
  have k := operation_keeps rasterizeBody_keeps hn
  have hfault := operation_fault rasterizeBody_keeps rasterizeBody_not_raised hn
  exact ⟨k.hostSide, k.cmode, hfault, k.finfo hfault, k.outside⟩

theorem setmode_hostSide {s t : State} (h : exec .setmode s = .next t) : SameHostSide s t := by
  rcases setmode_next h with ⟨-, rfl⟩ | ⟨-, ⟨-, rfl⟩ | ⟨-, rfl⟩ | ⟨-, -, rfl⟩⟩
  · exact .refl _
  · constructor <;> simp
  · constructor <;> simp
  · exact (prologueMode_hostSide s).trans (raise_hostSide _ _ _)

/-- Settles O47: the four ways `SETMODE` goes on (a recorded fault, two legal mode bytes, any other). -/
theorem setmodeFrame : Obligations.SetmodeFrame := by
  intro s t hn
  refine ⟨setmode_hostSide hn, ?_⟩
  rcases setmode_next hn with ⟨-, rfl⟩ | ⟨hs, ⟨h0, rfl⟩ | ⟨h2, rfl⟩ | ⟨-, -, rfl⟩⟩
  · exact ⟨rfl, rfl, fun _ _ => rfl, fun _ => rfl⟩
  · exact ⟨by simp, by simp, fun h => absurd h0 h, fun _ => by simp⟩
  · exact ⟨by simp, by simp, fun _ h => absurd h2 h, fun _ => by simp⟩
  · exact ⟨by simp, by simp, fun _ _ => by simp, fun h => by simp [hs.noFault] at h⟩

/-- No operation writes the host's side (R22). -/
theorem exec_operation_hostSide {i : Instr} (hi : layerOf i = .operation) {s t : State}
    (hn : exec i s = .next t) : SameHostSide s t := by
  rcases exec_operation_cases hi with rfl | ⟨fits, body, he, hk, -⟩
  · exact setmode_hostSide hn
  · exact (operation_keeps hk (he s ▸ hn)).hostSide

/-- No operation but `SETMODE` writes `CMODE` (R30). -/
theorem exec_operation_cmode {i : Instr} (hi : layerOf i = .operation) (hne : i ≠ .setmode) {s t : State}
    (hn : exec i s = .next t) : t.cmode = s.cmode := by
  rcases exec_operation_cases hi with rfl | ⟨fits, body, he, hk, -⟩
  · exact absurd rfl hne
  · exact (operation_keeps hk (he s ▸ hn)).cmode

/-! ### Steps -/

/-- A step inside an interpretation writes neither the host's side nor `CMODE`. -/
theorem busyStep_keeps {s t : State} (hb : s.busy = true) (hn : step s = .next t) :
    SameHostSide s t ∧ t.cmode = s.cmode := by
  have keeps := decompressPass_keeps s
  rcases step_busy_cases hb hn with ⟨-, rfl⟩ | ⟨-, _, -, ⟨u, hu, -, rfl⟩ | hu⟩
  · exact ⟨epilogue_hostSide s, epilogue_cmode s⟩
  · rw [hu] at keeps
    have k : BodyKeeps s t := keeps
    exact ⟨k.hostSide, k.cmode⟩
  · rw [hu] at keeps
    obtain ⟨u, f, info, k, rfl, -, -⟩ := keeps
    exact ⟨k.hostSide.trans (raise_hostSide f info u), k.cmode⟩

/-- A started operation writes nothing of the host's side, nor does a start with a reserved code. -/
theorem hostMove_start_hostSide {s t : State} {c : BitVec 4} (hb : s.busy = false)
    (hn : hostMove (.start c) s = .next t) : SameHostSide s t := by
  rcases hostMove_cases hb hn with ⟨_, hm, -⟩ | ⟨_, hm, -⟩ | ⟨hm, -⟩ | ⟨_, hm, h⟩ <;> cases hm
  rcases h with rfl | ⟨i, hi, hx⟩
  · exact .refl t
  · exact exec_operation_hostSide (layerOf_decodeOp hi) hx

/-- Settles O49: the frame of a busy step, and that of a start with its move taken (log 2; the parameters in the state
are log 3). -/
theorem blockNeverWritesTheHostSide : Obligations.BlockNeverWritesTheHostSide := by
  intro s t hn
  refine ⟨fun hb => (busyStep_keeps hb hn).1, fun c ms hb hh => ?_⟩
  rw [step_move hb hh] at hn
  exact hostMove_start_hostSide (s := { s with host := ms }) hb hn

/-- `SETMODE` has the code 4 and no other (R77). -/
theorem code_of_decodeOp_setmode {c : BitVec 4} (h : decodeOp c = .ok .setmode) : c = 0x4#4 := by
  revert c; decide

theorem hostWrite_cmode (hw : HostWrite) (s : State) : (hostWrite hw s).cmode = s.cmode :=
  (hostWrite_blockSide hw s).cmode

/-- The moves of the host that change `CMODE` are a start of `SETMODE` and reset (R30). -/
theorem hostMove_changes_cmode {m : HostMove} {s t : State} (hb : s.busy = false)
    (hn : hostMove m s = .next t) (hne : t.cmode ≠ s.cmode) : m = .start 0x4#4 ∨ m = .reset := by
  rcases hostMove_cases hb hn with ⟨hw, -, rfl⟩ | ⟨_, -, -, -, rfl⟩ | ⟨rfl, -⟩ | ⟨c, rfl, rfl | ⟨i, hi, hx⟩⟩
  · exact absurd (hostWrite_cmode hw s) hne
  · exact absurd rfl hne
  · exact .inr rfl
  · exact absurd rfl hne
  · by_cases hset : i = .setmode
    · subst hset
      exact .inl (congrArg HostMove.start (code_of_decodeOp_setmode hi))
    · exact absurd (exec_operation_cmode (layerOf_decodeOp hi) hset hx) hne

/-- Settles O50: a busy step keeps `CMODE`, and so does waiting; of the host's moves (a list by log 2) only two change
it. -/
theorem onlySetmodeAndResetChangeTheMode : Obligations.OnlySetmodeAndResetChangeTheMode := by
  intro s t hn hne
  cases hb : s.busy with
  | true => exact absurd (busyStep_keeps hb hn).2 hne
  | false =>
    refine ⟨rfl, ?_⟩
    rcases step_idle_cases hb hn with ⟨-, rfl⟩ | ⟨m, ms, hh, hm⟩
    · exact absurd rfl hne
    · rcases hostMove_changes_cmode (s := { s with host := ms }) hb hm hne with rfl | rfl
      · exact .inl ⟨ms, hh⟩
      · exact .inr ⟨ms, hh⟩

end Sys2Proof.Machine

/-! PROOFS, family 10_state: what the host reads, and the values after reset (O52, O56). -/
namespace Sys2Proof.Machine

/-- What only an idle block lets the host read has no read while it is busy (R34). -/
theorem hostRead_busy {r : HostReadable} {s : State} (hb : s.busy = true) (hr : r.onlyIdle = true) :
    hostRead r s = .notWhileBusy := by
  simp [hostRead, hb, hr]

theorem hostRead_idle {r : HostReadable} {s : State} (hb : s.busy = false) : hostRead r s = hostValue r s := by
  simp [hostRead, hb]

/-- What the host may read at any time (R34). -/
theorem hostRead_anytime {r : HostReadable} {s : State} (hr : r.onlyIdle = false) :
    hostRead r s = hostValue r s := by
  simp [hostRead, hr]

/-- A byte of the result is read as it stands. -/
theorem hostValue_outByte {s : State} {row : List Byte} (hrow : outRow s = some row) {i : Nat} {b : Byte}
    (hi : row[i]? = some b) : hostValue (.outByte i) s = .byte b := by
  obtain ⟨hlen, hread⟩ := (Memory.readN_eq_some _ _ _ _).1 hrow
  have hlt : i < s.outlen := hlen ▸ (List.getElem?_eq_some_iff.1 hi).1
  have hb : Memory.read s.outBuf i = some b := by simpa [hi] using hread i hlt
  simp [hostValue, hlt, hb, byteOrUnspecified]

theorem hostValue_outByte_above {s : State} {i : Nat} (hi : s.outlen ≤ i) :
    hostValue (.outByte i) s = .unspecified := by
  simp [hostValue, hi]

theorem hostValue_inByte {s : State} {i : Nat} {b : Byte} (h : Memory.read s.inBuf i = some b) :
    hostValue (.inByte i) s = .byte b := by
  simp [hostValue, h, byteOrUnspecified]

theorem hostValue_inByte_unwritten {s : State} {i : Nat} (h : Memory.read s.inBuf i = none) :
    hostValue (.inByte i) s = .unspecified := by
  simp [hostValue, h, byteOrUnspecified]

theorem hostValue_pixel {s : State} {x y : Nat} {p : Pixel} (h : Image.read s.img (x, y) = some p) :
    hostValue (.pixel x y) s = .pixel p := by
  simp [hostValue, h]

theorem hostValue_pixel_unwritten {s : State} {x y : Nat} (h : Image.read s.img (x, y) = none) :
    hostValue (.pixel x y) s = .unspecified := by
  simp [hostValue, h]

/-- While the block is idle the mode is read as its `V` and, once it is set, its `VAL` (R29). -/
theorem hostRead_cmode {s : State} {m : CMode} (hb : s.busy = false) (hm : s.cmode = m) :
    hostRead .cmodeV s = .flag m.v ∧ hostRead .cmodeVal s = byteOrUnspecified m.val := by
  subst hm
  exact ⟨hostRead_idle hb, hostRead_idle hb⟩

/-- `FAULT` is read as its code (R171) at any time. -/
theorem hostRead_fault {s : State} {f : FaultCode} (hf : s.fault = f) : hostRead .fault s = .code f.code := by
  subst hf
  exact hostRead_anytime rfl

/-- `FMT` is read as its code (R79) at any time. -/
theorem hostRead_fmt {s : State} {f : Fmt} (hf : s.fmt = f) : hostRead .fmt s = .format f.code := by
  subst hf
  exact hostRead_anytime rfl

/-- Settles O56, clause by clause: the idle-only reads, the mode, `STATUS` and the fault registers, the operand
registers, the cells of `IN` and `IMG` (log 5, 8, 18, 23, 24, 25). -/
theorem hostReadsFollowTheAccessRights : Obligations.HostReadsFollowTheAccessRights := by
  intro s
  refine ⟨fun hb i => ?_, fun hb row hrow => ?_, fun hb => ?_, ?_, ?_, ?_, ?_, ?_, ?_, ?_⟩
  · exact ⟨hostRead_busy hb rfl, hostRead_busy hb rfl, hostRead_busy hb rfl, hostRead_busy hb rfl,
      hostRead_busy hb rfl⟩
  · exact ⟨fun i b hi => (hostRead_idle hb).trans (hostValue_outByte hrow hi),
      fun i hi => (hostRead_idle hb).trans (hostValue_outByte_above hi), hostRead_idle hb, hostRead_idle hb⟩
  · exact ⟨hostRead_cmode hb, hostRead_cmode hb, hostRead_cmode hb⟩
  · exact ⟨hostRead_anytime rfl, hostRead_anytime rfl, hostRead_anytime rfl⟩
  · exact ⟨hostRead_fault, hostRead_fault, hostRead_fault, hostRead_fault⟩
  · exact ⟨hostRead_anytime rfl, hostRead_anytime rfl, hostRead_anytime rfl, hostRead_anytime rfl,
      hostRead_anytime rfl, hostRead_anytime rfl, hostRead_anytime rfl, hostRead_fmt, hostRead_fmt⟩
  · exact fun i b hi => (hostRead_anytime rfl).trans (hostValue_inByte hi)
  · exact fun i hi => (hostRead_anytime rfl).trans (hostValue_inByte_unwritten hi)
  · exact fun x y p hp => (hostRead_anytime rfl).trans (hostValue_pixel hp)
  · exact fun x y hp => (hostRead_anytime rfl).trans (hostValue_pixel_unwritten hp)

/-- Settles O52: the fields of `State.reset` are the values of R39. -/
theorem resetValues : Obligations.ResetValues :=
  ⟨rfl, rfl, rfl, rfl, rfl, rfl, rfl, rfl, rfl, rfl⟩

end Sys2Proof.Machine

/-! PROOFS, family 10_state: noninterference (O51). Two runs of a body side by side, from states that agree on what the
operation reads, stay in step; what else the states hold plays no part (R23, R30, R62). -/
namespace Sys2Proof.Machine

/-! ### What two runs share -/

/-- The operands of `COMPRESS` and `DECOMPRESS` (R77) agree. -/
structure SameRow (s s' : State) : Prop where
  inBuf : s'.inBuf = s.inBuf
  inlen : s'.inlen = s.inlen

/-- The operands of `RASTERIZE` (R77) agree. -/
structure SameImage (s s' : State) : Prop where
  img : s'.img = s.img
  w : s'.w = s.w
  h : s'.h = s.h
  fmt : s'.fmt = s.fmt
  x : s'.x = s.x
  sc : s'.sc = s.sc
  yoff : s'.yoff = s.yoff

/-- What two runs have computed so far agrees: the result, the working registers, `DONE` and the fault. -/
structure SameRun (s s' : State) : Prop where
  outlen : s'.outlen = s.outlen
  result : ∀ a < s.outlen, Memory.read s'.outBuf a = Memory.read s.outBuf a
  ip : s'.ip = s.ip
  rc : s'.rc = s.rc
  lb : s'.lb = s.lb
  done : s'.done = s.done
  fault : s'.fault = s.fault
  detail : s.fault ≠ .none → s'.finfo = s.finfo

/-- Two pieces of a body end in the same way. -/
inductive FlowAgree : Flow → Flow → Prop
  | go {t t' : State} (h : SameRun t t') : FlowAgree (.go t) (.go t')
  | raised {t t' : State} (h : SameRun t t') : FlowAgree (.raised t) (.raised t')
  | stop (f : Fault) : FlowAgree (.stop f) (.stop f)

/-- Two answers of the machine that the host cannot tell apart by the result and how the operation ended. -/
def SameAnswer (o o' : Host.Outcome State Fault Refusal) : Prop :=
  (∃ r : Refusal, o = .refused r ∧ o' = .refused r) ∨ (∃ f : Fault, o = .fault f ∧ o' = .fault f) ∨
    ∃ t t' : State, o = .next t ∧ o' = .next t' ∧ t'.outlen = t.outlen ∧ outRow t' = outRow t ∧ t'.ip = t.ip ∧
      t'.done = t.done ∧ t'.fault = t.fault ∧ (t.fault ≠ .none → t'.finfo = t.finfo)

theorem SameRow.of_hostSide {s s' t t' : State} (h : SameRow s s') (k : SameHostSide s t)
    (k' : SameHostSide s' t') : SameRow t t' :=
  ⟨by rw [k'.inBuf, k.inBuf, h.inBuf], by rw [k'.inlen, k.inlen, h.inlen]⟩

theorem SameImage.prologue {s s' : State} (h : SameImage s s') : SameImage (prologue s) (prologue s') := by
  constructor <;> simp [h.img, h.w, h.h, h.fmt, h.x, h.sc, h.yoff]

/-- Sequencing over `IN`: the pieces before keep the operands, so the pieces behind run on agreeing ones. -/
theorem FlowAgree.andThen {s s' : State} {r r' : Flow} {k k' : State → Flow} (hrow : SameRow s s')
    (hr : FlowKeeps s r) (hr' : FlowKeeps s' r') (h : FlowAgree r r')
    (hk : ∀ t t', SameRow t t' → SameRun t t' → FlowAgree (k t) (k' t')) :
    FlowAgree (r.andThen k) (r'.andThen k') := by
  cases h with
  | go h => exact hk _ _ (hrow.of_hostSide (BodyKeeps.hostSide hr) (BodyKeeps.hostSide hr')) h
  | raised h => exact .raised h
  | stop f => exact .stop f

/-! ### The pieces -/

namespace SameRun

variable {s s' : State}

theorem emit (h : SameRun s s') (v : List Byte) : SameRun (emit v s) (emit v s') where
  outlen := by simp [h.outlen]
  result := fun a ha => by
    simp only [emit_outlen, emit_outBuf] at *
    rw [Memory.read_writeAll, Memory.read_writeAll, h.outlen]
    split
    · rfl
    · exact h.result a (by omega)
  ip := h.ip
  rc := h.rc
  lb := h.lb
  done := h.done
  fault := h.fault
  detail := h.detail

theorem setIp (h : SameRun s s') (n : Nat) : SameRun (setIp n s) (setIp n s') := { h with ip := rfl }

theorem setRc (h : SameRun s s') (n : Nat) : SameRun (setRc n s) (setRc n s') := { h with rc := rfl }

theorem clearLb (h : SameRun s s') : SameRun (clearLb s) (clearLb s') := { h with lb := rfl }

theorem pushLb (h : SameRun s s') (b : Byte) : SameRun (pushLb b s) (pushLb b s') :=
  { h with lb := by simp [h.lb] }

theorem raise (h : SameRun s s') (f : FaultCode) (info : Nat) : SameRun (raise f info s) (raise f info s') :=
  { h with done := rfl, fault := rfl, detail := fun _ => rfl }

theorem epilogue (h : SameRun s s') : SameRun (epilogue s) (epilogue s') := { h with done := rfl }

theorem flush (h : SameRun s s') : SameRun (flush s) (flush s') := by
  unfold Machine.flush
  rw [h.lb]
  split
  · exact ((h.emit _).emit _).clearLb
  · exact h

theorem repeatBranch (h : SameRun s s') (b : Byte) : SameRun (repeatBranch b s) (repeatBranch b s') := by
  unfold Machine.repeatBranch
  rw [h.ip, h.rc]
  exact ((h.flush.emit _).emit _).setIp _

theorem literalBranch (h : SameRun s s') (b : Byte) : SameRun (literalBranch b s) (literalBranch b s') := by
  have hp : SameRun (Machine.setIp (s.ip + 1) (Machine.pushLb b s)) (Machine.setIp (s.ip + 1) (Machine.pushLb b s')) :=
    (h.pushLb b).setIp _
  unfold Machine.literalBranch splitLiteral
  rw [h.ip, hp.lb]
  split
  · exact hp.flush
  · exact hp

/-- After the prologue nothing is left of what ran before (R37). -/
theorem of_ready (h : Ready s) (h' : Ready s') : SameRun (prologue s) (prologue s') where
  outlen := by simp
  result := by simp
  ip := by simp
  rc := by simp
  lb := by simp
  done := by simp
  fault := by simp [h.noFault, h'.noFault]
  detail := by simp [h.noFault]

theorem outRow_eq (h : SameRun s s') : outRow s' = outRow s := by
  ext1 row
  simp only [outRow, Memory.readN_eq_some, h.outlen, Nat.zero_add]
  exact and_congr_right fun _ => forall₂_congr fun a ha => by rw [h.result a ha]

end SameRun

/-! ### The bodies over IN -/

theorem readIn_congr {s s' : State} (hrow : SameRow s s') (i : Nat) : readIn s' i = readIn s i := by
  rw [readIn, readIn, hrow.inBuf]

theorem memRead_congr {s s' : State} (hrow : SameRow s s') (a n : Nat) : memRead s' a n = memRead s a n := by
  induction n generalizing a with
  | zero => rfl
  | succ n ih => simp only [memRead, readIn_congr hrow, ih]

theorem countRun_congr {s s' : State} (hrow : SameRow s s') (hip : s'.ip = s.ip) (b : Byte) (n rc : Nat) :
    countRun s' b n rc = countRun s b n rc := by
  induction n generalizing rc with
  | zero => rfl
  | succ n ih => simp only [countRun, hip, hrow.inlen, readIn_congr hrow, ih]

section
variable {s s' : State}

theorem litBody_agree (hrow : SameRow s s') (h : SameRun s s') (n : Nat) :
    FlowAgree (litBody n s) (litBody n s') := by
  unfold litBody
  rw [h.ip, hrow.inlen, memRead_congr hrow]
  split
  · exact .raised (h.raise _ _)
  · split
    · exact .stop _
    · exact .go ((h.emit _).setIp _)

theorem repBody_agree (hrow : SameRow s s') (h : SameRun s s') (m : Nat) :
    FlowAgree (repBody m s) (repBody m s') := by
  unfold repBody
  rw [h.ip, hrow.inlen, readIn_congr hrow]
  split
  · exact .raised (h.raise _ _)
  · split
    · exact .stop _
    · exact .go ((h.emit _).setIp _)

theorem decompressPass_agree (hrow : SameRow s s') (h : SameRun s s') :
    FlowAgree (decompressPass s) (decompressPass s') := by
  unfold decompressPass
  rw [h.ip, readIn_congr hrow]
  split
  · exact .stop _
  · split
    · exact repBody_agree hrow h _
    · exact litBody_agree hrow h _

theorem compressPass_agree (hrow : SameRow s s') (h : SameRun s s') :
    FlowAgree (compressPass s) (compressPass s') := by
  unfold compressPass
  rw [h.ip, readIn_congr hrow]
  split
  · exact .stop _
  · rw [countRun_congr hrow h.ip]
    split
    · exact .stop _
    · split
      · exact .go ((h.setRc _).repeatBranch _)
      · exact .go ((h.setRc _).literalBranch _)

end

theorem decompressLoop_agree (n : Nat) {s s' : State} (hrow : SameRow s s') (h : SameRun s s') :
    FlowAgree (decompressLoop n s) (decompressLoop n s') := by
  induction n generalizing s s' with
  | zero => exact .go h
  | succ n ih =>
    unfold decompressLoop
    rw [h.ip, hrow.inlen]
    split
    · exact (decompressPass_agree hrow h).andThen hrow (decompressPass_keeps s) (decompressPass_keeps s')
        fun _ _ => ih
    · exact .go h

theorem compressLoop_agree (n : Nat) {s s' : State} (hrow : SameRow s s') (h : SameRun s s') :
    FlowAgree (compressLoop n s) (compressLoop n s') := by
  induction n generalizing s s' with
  | zero => exact .go h
  | succ n ih =>
    unfold compressLoop
    rw [h.ip, hrow.inlen]
    split
    · exact (compressPass_agree hrow h).andThen hrow (compressPass_keeps s) (compressPass_keeps s') fun _ _ => ih
    · exact .go h

theorem decompressBody_agree {s s' : State} (hrow : SameRow s s') (h : SameRun s s') :
    FlowAgree (decompressBody s) (decompressBody s') := by
  rw [decompressBody, decompressBody, hrow.inlen]
  exact decompressLoop_agree _ hrow h

theorem compressBody_agree {s s' : State} (hrow : SameRow s s') (h : SameRun s s') :
    FlowAgree (compressBody s) (compressBody s') := by
  rw [compressBody, compressBody, hrow.inlen]
  exact (compressLoop_agree _ hrow h).andThen hrow (compressLoop_keeps _ s) (compressLoop_keeps _ s')
    fun _ _ _ ht => .go ht.flush

/-! ### The body over IMG -/

theorem rasterBit_congr {s s' : State} (himg : SameImage s s') (p : Nat) : rasterBit s' p = rasterBit s p := by
  simp only [rasterBit, pixRead, blackBit, himg.img, himg.w, himg.h, himg.fmt, himg.x, himg.yoff]

theorem rasterByte_congr {s s' : State} (himg : SameImage s s') (i : Nat) : rasterByte s' i = rasterByte s i := by
  have bits : ∀ n p, rasterBits s' p n = rasterBits s p n := by
    intro n
    induction n with
    | zero => intro p; rfl
    | succ n ih => intro p; simp only [rasterBits, rasterBit_congr himg, ih]
  rw [rasterByte, rasterByte, bits]

theorem rasterLoop_agree (n i : Nat) {s s' : State} (himg : SameImage s s') (h : SameRun s s') :
    FlowAgree (rasterLoop n i s) (rasterLoop n i s') := by
  induction n generalizing i s s' with
  | zero => exact .go h
  | succ n ih =>
    unfold rasterLoop
    rw [rasterByte_congr himg]
    split
    · exact .stop _
    · exact ih (i + 1) { himg with } (h.emit _)

theorem rasterizeBody_agree {s s' : State} (himg : SameImage s s') (h : SameRun s s') :
    FlowAgree (rasterizeBody s) (rasterizeBody s') := by
  rw [rasterizeBody, rasterizeBody, himg.sc]
  exact rasterLoop_agree _ 0 himg h

/-! ### The operations -/

theorem heldOrRefused_agree {s s' t t' : State} (hp : s'.par = s.par) (h : SameRun t t') :
    SameAnswer (heldOrRefused s t) (heldOrRefused s' t') := by
  unfold heldOrRefused
  rw [hp, h.outlen]
  split
  · exact .inr (.inr ⟨t, t', rfl, rfl, h.outlen, h.outRow_eq, h.ip, h.done, h.fault, h.detail⟩)
  · exact .inl ⟨_, rfl, rfl⟩

theorem finish_agree {s s' : State} {r r' : Flow} (hp : s'.par = s.par) (h : FlowAgree r r') :
    SameAnswer (finish s r) (finish s' r') := by
  cases h with
  | go h => exact heldOrRefused_agree hp h.epilogue
  | raised h => exact heldOrRefused_agree hp h
  | stop f => exact .inr (.inl ⟨f, rfl, rfl⟩)

/-- An operation whose tests and body agree answers the same. -/
theorem operation_agree {fits : State → Bool} {body : State → Flow} {s s' : State} (h : Ready s) (h' : Ready s')
    (hp : s'.par = s.par) (hf : fits s' = fits s) (hbody : FlowAgree (body (prologue s)) (body (prologue s'))) :
    SameAnswer (operation fits body s) (operation fits body s') := by
  unfold operation
  cases hfit : fits s with
  | true =>
    rw [startChecked_of_ready h hfit, startChecked_of_ready h' (hf.trans hfit)]
    exact finish_agree hp hbody
  | false =>
    rw [startChecked_of_unfit h hfit, startChecked_of_unfit h' (hf.trans hfit)]
    exact .inl ⟨_, rfl, rfl⟩

theorem rowFits_congr {s s' : State} (hrow : SameRow s s') (hp : s'.par = s.par) : rowFits s' = rowFits s := by
  rw [rowFits, rowFits, hrow.inlen, hp]

theorem rasterFits_congr {s s' : State} (himg : SameImage s s') (hp : s'.par = s.par) :
    rasterFits s' = rasterFits s := by
  simp only [rasterFits, fitsUnsigned, fitsSigned, himg.w, himg.h, himg.x, himg.sc, himg.yoff, hp]

/-- Settles O51: the bodies of the three operations, run side by side from states that agree on the operands. -/
theorem resultDependsOnlyOnOperandsRead : Obligations.ResultDependsOnlyOnOperandsRead := by
  intro i s s' h h' hp hreads
  have hrun := SameRun.of_ready h h'
  rcases hreads with ⟨hi, hbuf, hlen⟩ | ⟨rfl, himg, hw, hh, hfmt, hx, hsc, hyoff⟩
  · have hrow : SameRow s s' := ⟨hbuf, hlen⟩
    have hrow' := hrow.of_hostSide (prologue_hostSide s) (prologue_hostSide s')
    rcases hi with rfl | rfl
    · exact operation_agree h h' hp (rowFits_congr hrow hp) (compressBody_agree hrow' hrun)
    · exact operation_agree h h' hp (rowFits_congr hrow hp) (decompressBody_agree hrow' hrun)
  · have himage : SameImage s s' := ⟨himg, hw, hh, hfmt, hx, hsc, hyoff⟩
    exact operation_agree h h' hp (rasterFits_congr himage hp) (rasterizeBody_agree himage.prologue hrun)

end Sys2Proof.Machine

/-! PROOFS, family 20_memory: the canonical units of a row are determined by the row, and results too long for the
block (O18). -/
namespace Sys2Proof.Machine

/-! ### The canonical units of a row -/

/-- A well-formed unit stands for at least one byte (R71, R72). -/
theorem one_le_yield {u : RowUnit} (h : u.wf = true) : 1 ≤ u.yield.length := by
  cases u with
  | lit ds => exact (RowUnit.wf_lit.1 h).1
  | rep k b =>
    have := (RowUnit.wf_rep.1 h).1
    rw [RowUnit.yield, List.length_replicate]; omega

theorem yield_ne_nil {u : RowUnit} (h : u.wf = true) : u.yield ≠ [] := List.ne_nil_of_length_pos (one_le_yield h)

theorem head_expand_cons {u : RowUnit} (us : List RowUnit) (h : u.wf = true) :
    (expand (u :: us)).head? = u.yield.head? := by
  rw [expand_cons, List.head?_append_of_ne_nil _ (yield_ne_nil h)]

theorem canonical_head_wf {u : RowUnit} {us : List RowUnit} (h : canonical (u :: us) = true) : u.wf = true :=
  canonical_wf h u List.mem_cons_self

theorem canonical_tail {u : RowUnit} {us : List RowUnit} (h : canonical (u :: us) = true) : canonical us = true :=
  have ⟨_, _, _, hus⟩ := canonical_cons.1 h
  hus

/-- A canonical row of units with a first unit stands for at least one byte. -/
theorem canonical_expand_ne_nil {u : RowUnit} {us : List RowUnit} (h : canonical (u :: us) = true) :
    expand (u :: us) ≠ [] := by
  rw [expand_cons]
  exact List.append_ne_nil_of_left_ne_nil (yield_ne_nil (canonical_head_wf h)) _

/-- At no index of a row without equal neighbours does the next byte repeat. -/
theorem distinctNeighbours_getElem {bs : List Byte} (h : distinctNeighbours bs = true) {i : Nat}
    (hi : i < bs.length) : bs[i]? ≠ bs[i + 1]? := by
  induction bs generalizing i with
  | nil => simp at hi
  | cons b bs ih =>
    cases bs with
    | nil => simp_all
    | cons c bs =>
      simp only [distinctNeighbours, Bool.and_eq_true, bne_iff_ne, ne_eq] at h
      cases i with
      | zero => simpa using h.1
      | succ i => simpa using ih h.2 (i := i) (by simpa using hi)

/-- R83 (b): a literal unit's last byte differs from the byte that follows it. -/
theorem canonical_lit_last {ds : List Byte} {us : List RowUnit} (h : canonical (.lit ds :: us) = true) :
    ds.getLast? ≠ (expand us).head? := by
  obtain ⟨hwf, -, hnext, hus⟩ := canonical_cons.1 h
  cases us with
  | nil =>
    have hne : ds ≠ [] := yield_ne_nil hwf
    simpa using hne
  | cons v us =>
    have hv := canonical_head_wf hus
    have hbefore := hnext v rfl
    rw [head_expand_cons us hv]
    cases v with
    | lit es =>
      simp only [RowUnit.canonicalBefore, Bool.and_eq_true, bne_iff_ne, ne_eq] at hbefore
      exact hbefore.2
    | rep k c =>
      have hk := (RowUnit.wf_rep.1 hv).1
      have hk0 : k ≠ 0 := by omega
      simpa [RowUnit.canonicalBefore, RowUnit.yield, List.head?_replicate, hk0] using hbefore

/-- Under a literal unit of a canonical row no byte equals the next byte of the row (R83 (b)). -/
theorem canonical_lit_getElem {ds : List Byte} {us : List RowUnit} (h : canonical (.lit ds :: us) = true)
    {i : Nat} (hi : i < ds.length) : (expand (.lit ds :: us))[i]? ≠ (expand (.lit ds :: us))[i + 1]? := by
  rw [expand_cons, RowUnit.yield, List.getElem?_append_left hi]
  by_cases hlast : i + 1 < ds.length
  · obtain ⟨-, hdistinct, -, -⟩ := canonical_cons.1 h
    rw [List.getElem?_append_left hlast]
    exact distinctNeighbours_getElem hdistinct hi
  · have hlen : ds.length = i + 1 := by omega
    have hl := canonical_lit_last h
    rw [List.getLast?_eq_getElem?, List.head?_eq_getElem?, hlen, Nat.add_sub_cancel] at hl
    rwa [List.getElem?_append_right (by omega), hlen, Nat.sub_self]

/-- Under a repeat unit stands its byte. -/
theorem expand_rep_getElem {k : Nat} {b : Byte} {us : List RowUnit} {i : Nat} (hi : i < k) :
    (expand (.rep k b :: us))[i]? = some b := by
  rw [expand_cons, RowUnit.yield, List.getElem?_append_left (by simpa using hi), List.getElem?_replicate_of_lt hi]

/-- R83 (a): the byte behind a repeat unit differs from its byte, unless the unit is full. -/
theorem canonical_rep_next {k : Nat} {b : Byte} {us : List RowUnit} (h : canonical (.rep k b :: us) = true)
    (hnext : (expand (.rep k b :: us))[k]? = some b) : k = 129 := by
  obtain ⟨-, -, hbefore, hus⟩ := canonical_cons.1 h
  rw [expand_cons, RowUnit.yield, List.getElem?_append_right (by simp), List.length_replicate, Nat.sub_self,
    ← List.head?_eq_getElem?] at hnext
  cases us with
  | nil => simp at hnext
  | cons v us =>
    rw [head_expand_cons us (canonical_head_wf hus)] at hnext
    simpa [RowUnit.canonicalBefore, hnext, Config.repMax] using hbefore v rfl

/-- R83 (c): a literal unit that is not full is the last one, or a repeat unit follows it. -/
theorem canonical_short_lit {ds : List Byte} {us : List RowUnit} (h : canonical (.lit ds :: us) = true)
    (hshort : ds.length < 128) : us = [] ∨ ∃ k c vs, us = .rep k c :: vs ∧ 2 ≤ k := by
  obtain ⟨-, -, hbefore, hus⟩ := canonical_cons.1 h
  match us with
  | [] => exact .inl rfl
  | .lit es :: us =>
    have hb := hbefore _ rfl
    simp only [RowUnit.canonicalBefore, Bool.and_eq_true, beq_iff_eq, Config.litMax] at hb
    omega
  | .rep k c :: us => exact .inr ⟨k, c, us, rfl, (RowUnit.wf_rep.1 (canonical_head_wf hus)).1⟩

section
variable {ds es : List Byte} {us vs : List RowUnit} {k l : Nat} {b c : Byte}

/-- A canonical row whose first unit is a literal never stands for the bytes of one whose first unit is a repeat. -/
theorem expand_lit_ne_rep (hu : canonical (.lit ds :: us) = true) (hv : canonical (.rep k b :: vs) = true) :
    expand (.lit ds :: us) ≠ expand (.rep k b :: vs) := by
  intro h
  have hk := (RowUnit.wf_rep.1 (canonical_head_wf hv)).1
  refine canonical_lit_getElem hu (i := 0) (one_le_yield (canonical_head_wf hu)) ?_
  rw [h, expand_rep_getElem (by omega), expand_rep_getElem (by omega)]

/-- Where two canonical rows stand for the same bytes and start with a literal, the first literal is not the shorter
one: a byte would be missing, or two equal bytes would stand under the other literal. -/
theorem canonical_lit_length_le (hu : canonical (.lit ds :: us) = true) (hv : canonical (.lit es :: vs) = true)
    (h : expand (.lit ds :: us) = expand (.lit es :: vs)) : es.length ≤ ds.length := by
  by_contra hlt
  have hes := (RowUnit.wf_lit.1 (canonical_head_wf hv)).2
  have hne := canonical_lit_getElem hv (i := ds.length) (by omega)
  rw [← h, expand_cons, RowUnit.yield, List.getElem?_append_right (by omega),
    List.getElem?_append_right (by omega), Nat.sub_self, Nat.add_sub_cancel_left] at hne
  rcases canonical_short_lit hu (by omega) with rfl | ⟨k, c, us, rfl, hk⟩
  · simp at hne
  · exact hne (by rw [expand_rep_getElem (by omega), expand_rep_getElem (by omega)])

/-- Where two canonical rows stand for the same bytes and start with a repeat, it is of the same byte, and the first
one is not the shorter one. -/
theorem canonical_rep_le (hu : canonical (.rep k b :: us) = true) (hv : canonical (.rep l c :: vs) = true)
    (h : expand (.rep k b :: us) = expand (.rep l c :: vs)) : b = c ∧ l ≤ k := by
  have hk := RowUnit.wf_rep.1 (canonical_head_wf hu)
  have hl := RowUnit.wf_rep.1 (canonical_head_wf hv)
  have hbc : b = c := by
    have h0 := expand_rep_getElem (b := b) (us := us) (i := 0) (k := k) (by omega)
    rw [h, expand_rep_getElem (by omega)] at h0
    exact (Option.some.inj h0).symm
  refine ⟨hbc, ?_⟩
  by_contra hlt
  have := canonical_rep_next hu (by rw [h, expand_rep_getElem (by omega), hbc])
  omega

end

/-- The first unit of a canonical row is determined by the bytes the row stands for. -/
theorem canonical_first_eq {u v : RowUnit} {us vs : List RowUnit} (hu : canonical (u :: us) = true)
    (hv : canonical (v :: vs) = true) (h : expand (u :: us) = expand (v :: vs)) : u = v := by
  cases u with
  | lit ds =>
    cases v with
    | lit es =>
      have hlen := Nat.le_antisymm (canonical_lit_length_le hv hu h.symm) (canonical_lit_length_le hu hv h)
      rw [expand_cons, expand_cons] at h
      exact congrArg RowUnit.lit (List.append_inj_left h hlen)
    | rep k b => exact absurd h (expand_lit_ne_rep hu hv)
  | rep k b =>
    cases v with
    | lit es => exact absurd h.symm (expand_lit_ne_rep hv hu)
    | rep l c =>
      obtain ⟨rfl, hle⟩ := canonical_rep_le hu hv h
      rw [Nat.le_antisymm (canonical_rep_le hv hu h.symm).2 hle]

/-- Two canonical rows that stand for the same bytes are the same row (R83). -/
theorem canonical_expand_inj {us vs : List RowUnit} (hu : canonical us = true) (hv : canonical vs = true)
    (h : expand us = expand vs) : us = vs := by
  induction us generalizing vs with
  | nil =>
    cases vs with
    | nil => rfl
    | cons v vs => exact absurd h.symm (canonical_expand_ne_nil hv)
  | cons u us ih =>
    cases vs with
    | nil => exact absurd h (canonical_expand_ne_nil hu)
    | cons v vs =>
      obtain rfl := canonical_first_eq hu hv h
      rw [expand_cons, expand_cons, List.append_cancel_left_eq] at h
      rw [ih (canonical_tail hu) (canonical_tail hv) h]

/-- The scan of `COMPRESS` over a whole row gives the row's canonical units, whichever way these are given. -/
theorem scanUnits_expand {us : List RowUnit} (h : canonical us = true) :
    scanUnits (expand us).length [] (expand us) = us :=
  canonical_expand_inj (canonical_scanUnits _ _ _ (Nat.le_refl _) ⟨by simp, rfl, by simp⟩) h
    (expand_scanUnits _ [] _ (Nat.le_refl _))

/-! ### Operations over `IN` -/

/-- An operation depends on its body only in the state its prologue leaves. -/
theorem operation_congr {fits : State → Bool} {body body' : State → Flow} {s : State}
    (h : body (prologue s) = body' (prologue s)) : operation fits body s = operation fits body' s := by
  simp only [operation, startChecked, h]

theorem exec_rowenc_runLength {s : State} (h : s.cmode = .runLength) : exec .rowenc s = exec .compress s :=
  operation_congr (rowBody_runLength compressBody h)

theorem exec_rowdec_runLength {s : State} (h : s.cmode = .runLength) : exec .rowdec s = exec .decompress s :=
  operation_congr (rowBody_runLength decompressBody h)

/-- `ROWENC` and `ROWDEC` in Raw mode carry the row (R155). -/
theorem exec_raw {i : Instr} {s : State} (hi : i = .rowenc ∨ i = .rowdec) (hm : s.cmode = .raw) :
    exec i s = operation rowFits rawBody s := by
  rcases hi with rfl | rfl
  · exact operation_congr (rowBody_raw compressBody hm)
  · exact operation_congr (rowBody_raw decompressBody hm)

/-- A body that ends, with or without `raise`, with more than `CAP_OUT` bytes gives the start no meaning (R61). -/
theorem operation_of_too_long {fits : State → Bool} {body : State → Flow} {s t : State} (h : Ready s)
    (hf : fits s = true) (hb : body (prologue s) = .go t ∨ body (prologue s) = .raised t)
    (hc : s.par.capOut < t.outlen) : operation fits body s = .refused .overCapacity := by
  rcases hb with hb | hb
  · rw [operation_of_go h hf hb, if_neg (by omega)]
  · rw [operation_of_raised h hf hb, if_neg (by omega)]

/-- A row whose yields are too long for the block, whole or cut off by a truncated unit (log 10). -/
theorem exec_decompress_of_too_long {s : State} {us : List RowUnit} {tail : List Byte} (h : Ready s)
    (hin : s.inlen ≤ s.par.capIn) (hw : ∀ u ∈ us, u.wf = true) (ht : tail = [] ∨ truncatedUnit tail = true)
    (hr : inRow s = some (encodeRow us ++ tail)) (hc : s.par.capOut < (expand us).length) :
    exec .decompress s = .refused .overCapacity := by
  rw [exec_decompress]
  rcases ht with rfl | ht
  · rw [List.append_nil] at hr
    exact operation_of_too_long h (rowFits_of_le hin)
      (.inl (decompressBody_units hw (prologue_ip s) ((inRow_prologue s).trans hr))) (by simpa using hc)
  · exact operation_of_too_long h (rowFits_of_le hin)
      (.inr (decompressBody_truncated hw ht (prologue_ip s) ((inRow_prologue s).trans hr))) (by simpa using hc)

/-- A row whose canonical units are too long for the block. -/
theorem exec_compress_of_too_long {s : State} {us : List RowUnit} (h : Ready s) (hin : s.inlen ≤ s.par.capIn)
    (hus : canonical us = true) (hr : inRow s = some (expand us)) (hc : s.par.capOut < (encodeRow us).length) :
    exec .compress s = .refused .overCapacity := by
  have hlen : (expand us).length = (prologue s).inlen := Memory.readN_length hr
  obtain ⟨hlb, hrc⟩ := prologue_rested s
  obtain ⟨t, ht, hscan⟩ := compressBody_scan (prologue_ip s) hlb hrc ((inRow_prologue s).trans hr)
  rw [← hlen, scanUnits_expand hus] at hscan
  obtain ⟨rc, -, rfl⟩ := hscan
  rw [exec_compress]
  exact operation_of_too_long h (rowFits_of_le hin) (.inl ht) (by simpa using hc)

/-- Settles O18: each body ends with the whole result, which `CAP_OUT` does not hold; for `COMPRESS` it is the given
units because a row has only one canonical form. -/
theorem resultBeyondCapacityIsRefused : Obligations.ResultBeyondCapacityIsRefused := by
  refine ⟨?_, ?_, ?_⟩
  · intro i s row hi h hin hm hr hc
    rw [exec_raw hi hm]
    exact operation_of_too_long h (rowFits_of_le hin) (.inl (rawBody_of_row ((inRow_prologue s).trans hr)))
      (by simpa using hc)
  · rintro i s us tail (rfl | ⟨rfl, hm⟩) h hin hw ht hr hc
    · exact exec_decompress_of_too_long h hin hw ht hr hc
    · rw [exec_rowdec_runLength hm]
      exact exec_decompress_of_too_long h hin hw ht hr hc
  · rintro i s us (rfl | ⟨rfl, hm⟩) h hin hus hr hc
    · exact exec_compress_of_too_long h hin hus hr hc
    · rw [exec_rowenc_runLength hm]
      exact exec_compress_of_too_long h hin hus hr hc

end Sys2Proof.Machine

/-! PROOFS, family 20_memory: the copy of a result, where a unit stops the model, and starts that do not fit (O15, O25,
O17). -/
namespace Sys2Proof.Machine

/-! ### The copy of a result -/

/-- The host reads the bytes of `OUT` that stand there. -/
theorem readOut_of_readN {s : State} {i n : Nat} {bs : List Byte} (h : Memory.readN s.outBuf i n = some bs) :
    readOut s i n = .ok bs := by
  induction n generalizing i bs with
  | zero => cases h; rfl
  | succ n ih =>
    obtain ⟨b, cs, rfl, hb, hcs⟩ := (Memory.readN_succ _ _ _ _).1 h
    rw [readOut, hb]
    dsimp only
    rw [ih hcs]

/-- A copy of a written result puts it in `IN` (R65, R209). -/
theorem hostMove_copyResult {s : State} {row : List Byte} (hb : s.busy = false) (hd : s.done = true)
    (hr : outRow s = some row) :
    hostMove .copyResult s = .next { s with inBuf := Memory.writeAll s.inBuf 0 row, inlen := s.outlen } := by
  simp [hostMove, copyResult, hb, hd, readOut_of_readN hr]

/-- Settles O15: the copy is one `writeAll` at index 0. That it is whole and that `IN` above it stays is the model's
choice (log 23), as is the list of moves (log 2). -/
theorem copiedResultIsTheNextRow : Obligations.CopiedResultIsTheNextRow := by
  intro s row ms hb hh hd hr
  have hlen : row.length = s.outlen := Memory.readN_length hr
  rw [step_move hb hh]
  refine ⟨_, hostMove_copyResult hb hd hr, ?_, rfl, fun a ha => ?_, rfl⟩
  · rw [inRow, ← hlen]
    exact Memory.readN_writeAll s.inBuf 0 row
  · exact Memory.read_writeAll_outside s.inBuf 0 a row (.inr (by omega))

/-! ### Where a unit stops the model -/

theorem unitStep_of_stop {body : State → Flow} {s : State} {f : Fault} (h : body s = .stop f) :
    unitStep body s = .fault f := by
  rw [unitStep, h]

/-- A unit whose yield does not fit `CAP_OUT` (log 11). -/
theorem unitStep_of_too_long {body : State → Flow} {s t : State} (h : body s = .go t)
    (hc : s.par.capOut < t.outlen) : unitStep body s = .refused .overCapacity := by
  rw [unitStep, h]
  exact heldOrRefused_of_lt hc

/-- A stretch of `IN` that is not written throughout stops `MemRead` inside the stretch (log 7). -/
theorem memRead_of_unwritten {s : State} {a n : Nat} (h : Memory.readN s.inBuf a n = none) :
    ∃ j, a ≤ j ∧ j < a + n ∧ Memory.read s.inBuf j = none ∧ memRead s a n = .error (.unwrittenIn j) := by
  cases hm : memRead s a n with
  | ok bs => rw [memRead_eq_ok, h] at hm; cases hm
  | error f =>
    obtain ⟨j, hlow, hhigh, hj, rfl⟩ := memRead_eq_error hm
    exact ⟨j, hlow, hhigh, hj, rfl⟩

theorem repBody_unwritten {m : Nat} {s : State} (hin : s.ip + 2 ≤ s.inlen)
    (h : Memory.read s.inBuf (s.ip + 1) = none) : repBody m s = .stop (.unwrittenIn (s.ip + 1)) := by
  rw [repBody, if_neg (by omega), readIn_eq_error.2 ⟨h, rfl⟩]

theorem litBody_unwritten {n : Nat} {s : State} (hin : s.ip + n + 2 ≤ s.inlen)
    (h : Memory.readN s.inBuf (s.ip + 1) (n + 1) = none) :
    ∃ j, s.ip < j ∧ j ≤ s.ip + n + 1 ∧ Memory.read s.inBuf j = none ∧ litBody n s = .stop (.unwrittenIn j) := by
  obtain ⟨j, hlow, hhigh, hj, hm⟩ := memRead_of_unwritten h
  exact ⟨j, by omega, by omega, hj, by rw [litBody, if_neg (by omega), litCount, hm]⟩

/-- Settles O25: what the two bodies answer at an unwritten payload and at a whole one. Both stops are the model's own
(log 7, log 11). -/
theorem whereUnitsStop : Obligations.WhereUnitsStop := by
  refine ⟨?_, ?_, ?_, ?_⟩
  · intro m s hin h
    exact unitStep_of_stop (repBody_unwritten hin h)
  · intro n s hin h
    obtain ⟨j, hlow, hhigh, hj, hstop⟩ := litBody_unwritten hin h
    exact ⟨j, hlow, hhigh, hj, unitStep_of_stop hstop⟩
  · intro m s b hin hb hc
    exact unitStep_of_too_long (repBody_go hin hb) (by simpa using hc)
  · intro n s ds hin hds hc
    have hlen := Memory.readN_length hds
    exact unitStep_of_too_long (litBody_go hin hds) (by simpa [hlen] using hc)

/-! ### Starts that do not fit -/

/-- An operation whose operands do not fit has no meaning (R61, U1). -/
theorem operation_of_unfit {fits : State → Bool} {body : State → Flow} {s : State} (h : Ready s)
    (hf : ¬ fits s = true) : operation fits body s = .refused .overCapacity :=
  startChecked_of_unfit h (Bool.eq_false_iff.2 hf)

/-- Settles O17: the operations over `IN` test `INLEN`, and `RASTERIZE` tests every bound of R23 and R61. -/
theorem unfitStartIsRefused : Obligations.UnfitStartIsRefused := by
  intro s h
  constructor
  · intro hlong i hi
    obtain ⟨body, he, -, -⟩ := exec_row_cases (i := i) (by simpa using hi)
    rw [he]
    exact operation_of_unfit h (by simpa [rowFits] using hlong)
  · intro hunfit
    refine operation_of_unfit h fun hfits => ?_
    obtain ⟨hw, hh, hx, hsc, hlow, hhigh, hheld⟩ := (rasterFits_iff s).1 hfits
    omega

end Sys2Proof.Machine

/-! PROOFS, family 30_encoding: tags, codes and instructions (O1, O2, O3, O4, O12). -/
namespace Sys2Proof.Machine

/-! ### A tag by its sign (R14, R71, R72) -/

theorem decodeTag_of_lt {t : Byte} (h : t.toNat < 128) : decodeTag t = .lit t.toNat := by
  rw [decodeTag, (signBit_false_iff t).2 h, if_neg Bool.false_ne_true]

theorem decodeTag_of_ge {t : Byte} (h : 128 ≤ t.toNat) : decodeTag t = .rep (256 - t.toNat) := by
  rw [decodeTag, if_pos ((signBit_iff t).2 h)]

theorem s8_of_lt {t : Byte} (h : t.toNat < 128) : s8 t = t.toNat := by
  rw [s8, (signBit_false_iff t).2 h, if_neg Bool.false_ne_true]

theorem s8_of_ge {t : Byte} (h : 128 ≤ t.toNat) : s8 t = (t.toNat : Int) - 256 := by
  rw [s8, if_pos ((signBit_iff t).2 h)]

/-- The tag `N` (R71) selects `LIT N`. -/
theorem decodeTag_u8_nat {n : Nat} (h : n ≤ 127) : decodeTag (u8 n) = .lit n := by
  have ht := toNat_u8_nat n (by omega)
  rw [decodeTag_of_lt (by omega), ht]

/-- The tag `u8(−M)` (R72) selects `REP M`. -/
theorem decodeTag_u8_neg {m : Nat} (h1 : 1 ≤ m) (h2 : m ≤ 128) : decodeTag (u8 (-(m : Int))) = .rep m := by
  have ht := toNat_u8_neg m h1 (by omega)
  rw [decodeTag_of_ge (by omega), ht]
  congr 1; omega

theorem instr_wf_lit {n : Nat} : (Instr.lit n).wf = true ↔ n ≤ 127 := by simp [Instr.wf]

theorem instr_wf_rep {m : Nat} : (Instr.rep m).wf = true ↔ 1 ≤ m ∧ m ≤ 128 := by simp [Instr.wf]

/-- Settles O1: a unit's tag has the sign that selects its kind, and an operation's code is its own row of R77. -/
theorem encodedInstructionDecodesBack : Obligations.EncodedInstructionDecodesBack := by
  intro i rest h
  cases i with
  | lit n => exact congrArg Except.ok (decodeTag_u8_nat (instr_wf_lit.1 h))
  | rep m =>
    obtain ⟨h1, h2⟩ := instr_wf_rep.1 h
    exact congrArg Except.ok (decodeTag_u8_neg h1 h2)
  | compress => rfl
  | decompress => rfl
  | rasterize => rfl
  | setmode => rfl
  | rowenc => rfl
  | rowdec => rfl

/-- Settles O2: the two halves of the 256 tags, split at 128 as the sign bit splits them. -/
theorem everyTagIsAUnit : Obligations.EveryTagIsAUnit := by
  intro t
  have hlt := t.isLt
  rcases Nat.lt_or_ge t.toNat 128 with h | h
  · have hback : u8 (t.toNat : Int) = t := BitVec.eq_of_toNat_eq (toNat_u8_nat _ hlt)
    rw [decodeTag_of_lt h, s8_of_lt h]
    exact ⟨instr_wf_lit.2 (by omega), congrArg (fun b => [b]) hback, fun _ => rfl, fun hneg => by omega⟩
  · have hback : u8 (-((256 - t.toNat : Nat) : Int)) = t :=
      BitVec.eq_of_toNat_eq (by rw [toNat_u8_neg _ (by omega) (by omega)]; omega)
    rw [decodeTag_of_ge h, s8_of_ge h]
    exact ⟨instr_wf_rep.2 (by omega), congrArg (fun b => [b]) hback, fun hpos => by omega,
      fun _ => congrArg Instr.rep (by omega)⟩

/-! ### Operation codes (R77, R80) -/

/-- R80: the code 0 and the codes of 7 and more are reserved. -/
theorem decodeOp_reserved {c : BitVec 4} (h : c.toNat = 0 ∨ 7 ≤ c.toNat) :
    decodeOp c = .error (.reservedCode c) := by
  revert c; decide

/-- Settles O3: the table of R77 row by row, and `decodeOp_reserved`. -/
theorem operationCodesDecode : Obligations.OperationCodesDecode :=
  ⟨rfl, rfl, rfl, rfl, rfl, rfl, fun _ => decodeOp_reserved⟩

/-- Settles O4: the tags are those that R71 and R72 give the instructions (`encodedInstructionDecodesBack`), and the
two units are the bytes that `decodeUnit_bytes` decodes. -/
theorem sampleWordsDecode : Obligations.SampleWordsDecode :=
  have tag := fun i => encodedInstructionDecodesBack i []
  ⟨tag (.lit 0) rfl, tag (.lit 5) rfl, tag (.lit 127) rfl, tag (.rep 1) rfl, tag (.rep 19) rfl, tag (.rep 128) rfl,
    tag .decompress rfl, decodeUnit_bytes (.lit [0xA1#8, 0xA2#8, 0xA3#8]) [] rfl,
    decodeUnit_bytes (.rep 3 0xA1#8) [] rfl⟩

/-- A start with a reserved code is refused and no state changes (R80, U2, log 9). -/
theorem hostMove_start_reserved {s : State} {c : BitVec 4} (hb : s.busy = false)
    (hc : c.toNat = 0 ∨ 7 ≤ c.toNat) : hostMove (.start c) s = .next s := by
  simp [hostMove, startOp, hb, decodeOp_reserved hc]

/-- Settles O12: the idle step takes the move, and the reserved code changes nothing. That this is a next state is the
model's choice (log 9), as is the list of moves (log 2). -/
theorem reservedCodeChangesNothing : Obligations.ReservedCodeChangesNothing := by
  intro s c ms hb hh hc
  rw [step_move hb hh]
  exact hostMove_start_reserved hb hc

end Sys2Proof.Machine

/-! PROOFS, family 30_encoding: rows of units and their bytes (O5, O6), and the one canonical row (O7). -/
namespace Sys2Proof.Machine

/-! ### Decoding a row unit by unit -/

theorem decodeUnits_nil (fuel : Nat) : decodeUnits fuel [] = some [] := by
  cases fuel <;> rfl

/-- A whole unit in front is decoded first (R74). -/
theorem decodeUnits_unit {u : RowUnit} (h : u.wf = true) (fuel : Nat) (rest : List Byte) :
    decodeUnits (fuel + 1) (u.bytes ++ rest) = (decodeUnits fuel rest).map (u :: ·) := by
  have hbytes := RowUnit.two_le_bytes h
  have hne : (u.bytes ++ rest).isEmpty = false :=
    List.isEmpty_eq_false_iff.2 (List.ne_nil_of_length_pos (by rw [List.length_append]; omega))
  simp only [decodeUnits, hne, Bool.false_eq_true, if_false, decodeUnit_bytes u rest h]
  cases decodeUnits fuel rest <;> rfl

/-- Whole units in front are decoded, each at the cost of one unit of fuel. -/
theorem decodeUnits_encodeRow_append {us : List RowUnit} (hw : ∀ u ∈ us, u.wf = true) (fuel : Nat)
    (tail : List Byte) :
    decodeUnits (us.length + fuel) (encodeRow us ++ tail) = (decodeUnits fuel tail).map (us ++ ·) := by
  induction us with
  | nil => simp
  | cons u us ih =>
    obtain ⟨hu, hus⟩ := List.forall_mem_cons.1 hw
    rw [encodeRow_cons, List.append_assoc, List.length_cons, Nat.add_right_comm, decodeUnits_unit hu, ih hus,
      Option.map_map]
    rfl

/-- A truncated unit is not decoded, however much fuel there is (R76). -/
theorem decodeUnits_truncated {tail : List Byte} (h : truncatedUnit tail = true) (fuel : Nat) :
    decodeUnits fuel tail = none := by
  have hne : tail.isEmpty = false := by
    cases tail with
    | nil => cases h
    | cons => rfl
  cases fuel with
  | zero => simp [decodeUnits, hne]
  | succ fuel => simp [decodeUnits, hne, decodeUnit_eq_none.2 (.inr h)]

/-- A row's length is fuel enough for the units in front of it. -/
theorem decodeRow_encodeRow_append {us : List RowUnit} (hw : ∀ u ∈ us, u.wf = true) (tail : List Byte) :
    ∃ fuel, decodeRow (encodeRow us ++ tail) = (decodeUnits fuel tail).map (us ++ ·) := by
  have hlen := length_le_encodeRow hw
  refine ⟨(encodeRow us ++ tail).length - us.length, ?_⟩
  rw [← decodeUnits_encodeRow_append hw, decodeRow, Nat.add_sub_cancel' (by rw [List.length_append]; omega)]

theorem decodeRow_encodeRow {us : List RowUnit} (hw : ∀ u ∈ us, u.wf = true) :
    decodeRow (encodeRow us) = some us := by
  obtain ⟨fuel, h⟩ := decodeRow_encodeRow_append hw []
  simpa [decodeUnits_nil] using h

theorem decodeRow_truncated {us : List RowUnit} {tail : List Byte} (hw : ∀ u ∈ us, u.wf = true)
    (ht : truncatedUnit tail = true) : decodeRow (encodeRow us ++ tail) = none := by
  obtain ⟨fuel, h⟩ := decodeRow_encodeRow_append hw tail
  simpa [decodeUnits_truncated ht] using h

/-- Settles O5: a row of bytes is one of whole units, which decodes to them, or one with a truncated unit at its end,
which decodes to nothing (`row_cases`). -/
theorem rowsDecodeAndEncodeAgree : Obligations.RowsDecodeAndEncodeAgree := by
  refine ⟨fun us hw => decodeRow_encodeRow hw, fun bs us h => ?_⟩
  obtain ⟨vs, hw, rfl | ⟨tail, ht, rfl⟩⟩ := row_cases bs
  · obtain rfl : vs = us := by simpa [decodeRow_encodeRow hw] using h
    exact ⟨rfl, hw⟩
  · simp [decodeRow_truncated hw ht] at h

/-- Settles O6: `row_cases` gives one of the two, and the decoder tells them apart. -/
theorem onlyTruncatedRowsAreIllFormed : Obligations.OnlyTruncatedRowsAreIllFormed := by
  intro bs
  constructor
  · obtain ⟨us, hw, h | ⟨tail, ht, h⟩⟩ := row_cases bs
    · exact .inl ⟨us, hw, h⟩
    · exact .inr ⟨us, tail, hw, ht, h⟩
  · rintro ⟨⟨us, hus, rfl⟩, vs, tail, hvs, ht, h⟩
    have hsome := decodeRow_encodeRow hus
    rw [h, decodeRow_truncated hvs ht] at hsome
    cases hsome

/-- Settles O7: the scan of `COMPRESS` finds a canonical row, and `canonical_expand_inj` says it is the only one. -/
theorem canonicalUnitsAreUnique : Obligations.CanonicalUnitsAreUnique := by
  intro row
  have hscan : expand (scanUnits row.length [] row) = row := expand_scanUnits _ [] _ (Nat.le_refl _)
  refine ⟨scanUnits row.length [] row,
    ⟨canonical_scanUnits _ _ _ (Nat.le_refl _) ⟨by simp, rfl, by simp⟩, hscan⟩, ?_⟩
  rintro us ⟨hus, rfl⟩
  exact (scanUnits_expand hus).symm

end Sys2Proof.Machine

/-! PROOFS, family 30_encoding: what the two codecs leave for every written row (O26), and how long it is (O27, O33). -/
namespace Sys2Proof.Machine

/-! ### The end of an operation over `IN` -/

/-- The epilogue after a body that has recorded no fault and left `LB` empty (R38). -/
theorem endedWell_epilogue {t : State} (hf : t.fault = .none) (hlb : t.lb = []) : EndedWell (epilogue t) :=
  ⟨epilogue_busy t, epilogue_done t, (epilogue_fault t).trans hf, (epilogue_lb t).trans hlb⟩

theorem endedWithFault_raise (f : FaultCode) (info : Nat) (t : State) : EndedWithFault f info (raise f info t) :=
  ⟨raise_busy f info t, raise_done f info t, raise_fault f info t, raise_finfo f info t⟩

/-- `COMPRESS` of the row that canonical units stand for ends with their bytes in `OUT` (R97 to R99). -/
theorem exec_compress_canonical {s : State} {us : List RowUnit} (h : Ready s) (hin : s.inlen ≤ s.par.capIn)
    (hus : canonical us = true) (hr : inRow s = some (expand us)) (hc : (encodeRow us).length ≤ s.par.capOut) :
    ∃ t : State, exec .compress s = .next t ∧ EndedWell t ∧ outRow t = some (encodeRow us) ∧
      t.ip = s.inlen ∧ t.finfo = s.finfo := by
  have hlen : (expand us).length = s.inlen := Memory.readN_length hr
  obtain ⟨hlb, hrc⟩ := prologue_rested s
  obtain ⟨t, ht, hscan⟩ := compressBody_scan (prologue_ip s) hlb hrc ((inRow_prologue s).trans hr)
  rw [prologue_inlen, ← hlen, scanUnits_expand hus] at hscan
  obtain ⟨rc, -, rfl⟩ := hscan
  exact ⟨_, (operation_of_go h (rowFits_of_le hin) ht).trans (if_pos (by simpa using hc)),
    endedWell_epilogue (by simpa using h.noFault) (by simp),
    by simpa [outRow] using outRow_emit_prologue (encodeRow us) s, by simp, by simp⟩

/-- `DECOMPRESS` of whole units ends with their yields in `OUT` (R117, R118). -/
theorem exec_decompress_units {s : State} {us : List RowUnit} (h : Ready s) (hin : s.inlen ≤ s.par.capIn)
    (hw : ∀ u ∈ us, u.wf = true) (hr : inRow s = some (encodeRow us)) (hc : (expand us).length ≤ s.par.capOut) :
    ∃ t : State, exec .decompress s = .next t ∧ EndedWell t ∧ outRow t = some (expand us) ∧
      t.ip = s.inlen ∧ t.finfo = s.finfo := by
  have hb := decompressBody_units hw (prologue_ip s) ((inRow_prologue s).trans hr)
  exact ⟨_, (operation_of_go h (rowFits_of_le hin) hb).trans (if_pos (by simpa using hc)),
    endedWell_epilogue (by simpa using h.noFault) (by simp),
    by simpa [outRow] using outRow_emit_prologue (expand us) s, by simp, by simp⟩

/-- `DECOMPRESS` of a row with a truncated unit at its end raises MalformedInput at its tag, the yields of the units
before it in `OUT` (R119). -/
theorem exec_decompress_truncated {s : State} {us : List RowUnit} {tail : List Byte} (h : Ready s)
    (hin : s.inlen ≤ s.par.capIn) (hw : ∀ u ∈ us, u.wf = true) (ht : truncatedUnit tail = true)
    (hr : inRow s = some (encodeRow us ++ tail)) (hc : (expand us).length ≤ s.par.capOut) :
    ∃ t : State, exec .decompress s = .next t ∧ EndedWithFault .malformedInput (encodeRow us).length t ∧
      outRow t = some (expand us) ∧ t.ip = (encodeRow us).length := by
  have hb := decompressBody_truncated hw ht (prologue_ip s) ((inRow_prologue s).trans hr)
  exact ⟨_, (operation_of_raised h (rowFits_of_le hin) hb).trans (if_pos (by simpa using hc)),
    endedWithFault_raise _ _ _, by simpa [outRow] using outRow_emit_prologue (expand us) s, by simp⟩

theorem outlen_of_outRow {t : State} {bs : List Byte} (h : outRow t = some bs) : t.outlen = bs.length :=
  (Memory.readN_length h).symm

/-- Settles O26: a row's canonical units (O7) are what `COMPRESS` leaves, or do not fit. -/
theorem compressEmitsTheCanonicalUnits : Obligations.CompressEmitsTheCanonicalUnits := by
  intro s row h hin hr
  obtain ⟨us, ⟨hus, rfl⟩, -⟩ := canonicalUnitsAreUnique row
  refine ⟨us, hus, rfl, ?_⟩
  split
  · next hc => exact exec_compress_canonical h hin hus hr hc
  · next hc => exact exec_compress_of_too_long h hin hus hr (by omega)

/-! ### Lengths (R86) -/

/-- A unit has at most twice as many bytes as it stands for: a tag and its payload, or two for at least two. -/
theorem unit_bytes_length_le {u : RowUnit} (h : u.wf = true) : u.bytes.length ≤ 2 * u.yield.length := by
  cases u with
  | lit ds =>
    have := (RowUnit.wf_lit.1 h).1
    simp only [RowUnit.bytes, RowUnit.yield, List.length_cons]; omega
  | rep k b =>
    have := (RowUnit.wf_rep.1 h).1
    simp only [RowUnit.bytes, RowUnit.yield, List.length_cons, List.length_nil, List.length_replicate]; omega

theorem encodeRow_length_le {us : List RowUnit} (hw : ∀ u ∈ us, u.wf = true) :
    (encodeRow us).length ≤ 2 * (expand us).length := by
  induction us with
  | nil => simp
  | cons u us ih =>
    obtain ⟨hu, hus⟩ := List.forall_mem_cons.1 hw
    have h1 := unit_bytes_length_le hu
    have h2 := ih hus
    rw [encodeRow_cons, expand_cons, List.length_append, List.length_append]; omega

/-- A unit stands for at most 129 bytes per two of its own: a repeat unit for up to 129, a literal unit for one less
than it has. -/
theorem unit_yield_length_le {u : RowUnit} (h : u.wf = true) : u.yield.length ≤ 129 * (u.bytes.length / 2) := by
  cases u with
  | lit ds =>
    have := (RowUnit.wf_lit.1 h).1
    simp only [RowUnit.bytes, RowUnit.yield, List.length_cons]; omega
  | rep k b =>
    have := (RowUnit.wf_rep.1 h).2
    simp only [RowUnit.bytes, RowUnit.yield, List.length_cons, List.length_nil, List.length_replicate]; omega

theorem expand_length_le {us : List RowUnit} (hw : ∀ u ∈ us, u.wf = true) :
    (expand us).length ≤ 129 * ((encodeRow us).length / 2) := by
  induction us with
  | nil => simp
  | cons u us ih =>
    obtain ⟨hu, hus⟩ := List.forall_mem_cons.1 hw
    have h1 := unit_yield_length_le hu
    have h2 := ih hus
    rw [encodeRow_cons, expand_cons, List.length_append, List.length_append]; omega

/-- Settles O27: the canonical units that `COMPRESS` leaves have at most twice the bytes of the row. -/
theorem compressAtMostDoubles : Obligations.CompressAtMostDoubles := by
  intro s row h hin hr hc
  obtain ⟨us, ⟨hus, rfl⟩, -⟩ := canonicalUnitsAreUnique row
  have hlen : (expand us).length = s.inlen := Memory.readN_length hr
  have hle := encodeRow_length_le (canonical_wf hus)
  obtain ⟨t, he, hend, hout, hip, -⟩ := exec_compress_canonical h hin hus hr (by omega)
  exact ⟨t, he, hend, hip, by rw [outlen_of_outRow hout]; omega⟩

/-- Settles O33: whole units end well, a truncated one ends with MalformedInput, and in both cases `OUT` holds the
yields of whole units of the row. -/
theorem decompressSizeBound : Obligations.DecompressSizeBound := by
  intro s row h hin hr hc
  have hlen : row.length = s.inlen := Memory.readN_length hr
  obtain ⟨us, hw, rfl | ⟨tail, ht, rfl⟩⟩ := row_cases row
  · have hle := expand_length_le hw
    rw [hlen] at hle
    obtain ⟨t, he, hend, hout, -⟩ := exec_decompress_units h hin hw hr (by omega)
    exact ⟨t, he, by rw [outlen_of_outRow hout]; exact hle, .inl hend⟩
  · have hle : (expand us).length ≤ 129 * (s.inlen / 2) := by
      have := expand_length_le hw
      rw [List.length_append] at hlen; omega
    obtain ⟨t, he, hend, hout, -⟩ := exec_decompress_truncated h hin hw ht hr (by omega)
    exact ⟨t, he, by rw [outlen_of_outRow hout]; exact hle, .inr ⟨_, hend⟩⟩

end Sys2Proof.Machine

/-! PROOFS, family 40_rle_compress: the round trip (O30), and the two shapes of row whose canonical units are known in
closed form, a run (O28) and a row without equal neighbours (O29). -/
namespace Sys2Proof.Machine

/-! ### The round trip -/

/-- Rows of well-formed units with the same bytes are the same row (R70). -/
theorem encodeRow_inj {us vs : List RowUnit} (hus : ∀ u ∈ us, u.wf = true) (hvs : ∀ v ∈ vs, v.wf = true)
    (h : encodeRow us = encodeRow vs) : us = vs := by
  have hdecode := decodeRow_encodeRow hus
  rw [h, decodeRow_encodeRow hvs] at hdecode
  exact (Option.some.inj hdecode).symm

/-- Of the well-formed rows that stand for the bytes of a canonical one, only itself is canonical, and only itself has
its bytes. -/
theorem encodeRow_eq_iff_canonical {us vs : List RowUnit} (hus : canonical us = true)
    (hvs : ∀ v ∈ vs, v.wf = true) (h : expand vs = expand us) : encodeRow vs = encodeRow us ↔ canonical vs = true := by
  constructor
  · intro hbytes
    rwa [encodeRow_inj hvs (canonical_wf hus) hbytes]
  · intro hcanonical
    rw [canonical_expand_inj hcanonical hus h]

/-- Settles O30: `COMPRESS` leaves the row's canonical units, whose yields are the row, and the canonical units are
the only ones with those bytes. -/
theorem decompressUndoesCompress : Obligations.DecompressUndoesCompress := by
  intro s row h hin hr
  obtain ⟨us, ⟨hus, rfl⟩, -⟩ := canonicalUnitsAreUnique row
  have hw := canonical_wf hus
  refine ⟨encodeRow us, encodeRow_length_le hw, ?_, ?_, ?_⟩
  · split
    · next hc =>
      obtain ⟨t, he, hend, hout, -⟩ := exec_compress_canonical h hin hus hr hc
      exact ⟨t, he, hend, hout⟩
    · next hc => exact exec_compress_of_too_long h hin hus hr (by omega)
  · intro u hu huin hur hc
    obtain ⟨v, he, hend, hout, -⟩ := exec_decompress_units hu huin hw hur hc
    exact ⟨v, he, hend, hout⟩
  · intro vs hvs hexpand
    exact encodeRow_eq_iff_canonical hus hvs hexpand

/-! ### What COMPRESS leaves where the canonical units are known -/

/-- `COMPRESS` of the row that canonical units stand for ends well with their bytes where there is room for twice the
row (R86 (a)). -/
theorem exec_compress_of_room {s : State} {us : List RowUnit} (h : Ready s) (hin : s.inlen ≤ s.par.capIn)
    (hus : canonical us = true) (hr : inRow s = some (expand us)) (hc : 2 * (expand us).length ≤ s.par.capOut) :
    ∃ t : State, exec .compress s = .next t ∧ EndedWell t ∧ outRow t = some (encodeRow us) := by
  have hle := encodeRow_length_le (canonical_wf hus)
  obtain ⟨t, he, hend, hout, -⟩ := exec_compress_canonical h hin hus hr (hle.trans hc)
  exact ⟨t, he, hend, hout⟩

/-! ### A run of equal bytes (R96) -/

/-- What is left of a run of equal bytes behind its full units: nothing, a single byte, or a shorter repeat. -/
def runRest (r : Nat) (b : Byte) : List RowUnit :=
  if r = 0 then [] else if r = 1 then [.lit [b]] else [.rep r b]

/-- The units of a run of `k` equal bytes: `k div 129` full repeat units, then the rest. -/
def runUnits (k : Nat) (b : Byte) : List RowUnit :=
  List.replicate (k / 129) (.rep 129 b) ++ runRest (k % 129) b

/-- A full repeat unit may stand in front of any canonical row: R83 (a) asks nothing of it. -/
theorem canonical_fullReps_append (n : Nat) (b : Byte) {us : List RowUnit} (h : canonical us = true) :
    canonical (List.replicate n (.rep 129 b) ++ us) = true := by
  induction n with
  | zero => exact h
  | succ n ih =>
    rw [List.replicate_succ, List.cons_append, canonical_cons]
    exact ⟨RowUnit.wf_rep.2 (by omega), rfl, by simp [RowUnit.canonicalBefore, Config.repMax], ih⟩

theorem canonical_runRest {r : Nat} (b : Byte) (h : r < 129) : canonical (runRest r b) = true := by
  unfold runRest
  split_ifs with h0 h1
  · rfl
  · rfl
  · exact canonical_cons.2 ⟨RowUnit.wf_rep.2 (by omega), rfl, by simp, rfl⟩

theorem canonical_runUnits (k : Nat) (b : Byte) : canonical (runUnits k b) = true :=
  canonical_fullReps_append _ b (canonical_runRest b (Nat.mod_lt k (by decide)))

theorem expand_replicate (n : Nat) (u : RowUnit) :
    expand (List.replicate n u) = (List.replicate n u.yield).flatten := by
  rw [expand, List.flatMap_replicate]

theorem encodeRow_replicate (n : Nat) (u : RowUnit) :
    encodeRow (List.replicate n u) = (List.replicate n u.bytes).flatten := by
  rw [encodeRow, List.flatMap_replicate]

theorem expand_runRest (r : Nat) (b : Byte) : expand (runRest r b) = List.replicate r b := by
  unfold runRest
  split_ifs with h0 h1
  · subst h0; rfl
  · subst h1; rfl
  · simp [RowUnit.yield]

theorem expand_runUnits (k : Nat) (b : Byte) : expand (runUnits k b) = List.replicate k b := by
  rw [runUnits, expand_append, expand_replicate, expand_runRest, RowUnit.yield, List.flatten_replicate_replicate,
    List.replicate_append_replicate, Nat.div_add_mod']

/-- The tag of a full repeat unit is `u8(−128)` (R72). -/
theorem fullRep_bytes (b : Byte) : (RowUnit.rep 129 b).bytes = [0x80#8, b] := rfl

theorem encodeRow_runRest (r : Nat) (b : Byte) :
    encodeRow (runRest r b) =
      if r = 0 then [] else if r = 1 then [0x00#8, b] else [u8 (-((r : Nat) - 1 : Int)), b] := by
  unfold runRest
  split_ifs
  · rfl
  · rfl
  · simp [RowUnit.bytes]

/-- Settles O28: the full units and the rest are canonical and stand for the run, so they are what `COMPRESS`
leaves. -/
theorem compressCutsRunsAt129 : Obligations.CompressCutsRunsAt129 := by
  intro s k b h hin _ hr hc
  rw [← expand_runUnits k b] at hr
  obtain ⟨t, he, hend, hout⟩ := exec_compress_of_room h hin (canonical_runUnits k b) hr
    (by rwa [expand_runUnits, List.length_replicate])
  rw [runUnits, encodeRow_append, encodeRow_replicate, fullRep_bytes, encodeRow_runRest] at hout
  exact ⟨t, he, hend, hout⟩

/-! ### A row without equal neighbours (R95) -/

theorem distinctNeighbours_tail {b : Byte} {bs : List Byte} (h : distinctNeighbours (b :: bs) = true) :
    distinctNeighbours bs = true := by
  cases bs with
  | nil => rfl
  | cons c bs =>
    simp only [distinctNeighbours, Bool.and_eq_true] at h
    exact h.2

theorem distinctNeighbours_append_right {as bs : List Byte} (h : distinctNeighbours (as ++ bs) = true) :
    distinctNeighbours bs = true := by
  induction as with
  | nil => exact h
  | cons a as ih => exact ih (distinctNeighbours_tail h)

/-- A repeat unit stands for two equal neighbours, so a row that has none is all literal units. -/
theorem literals_of_distinctNeighbours {us : List RowUnit} (hw : ∀ u ∈ us, u.wf = true)
    (h : distinctNeighbours (expand us) = true) : ∃ chunks : List (List Byte), us = chunks.map RowUnit.lit := by
  induction us with
  | nil => exact ⟨[], rfl⟩
  | cons u us ih =>
    obtain ⟨hu, hus⟩ := List.forall_mem_cons.1 hw
    cases u with
    | lit ds =>
      rw [expand_cons] at h
      obtain ⟨chunks, rfl⟩ := ih hus (distinctNeighbours_append_right h)
      exact ⟨ds :: chunks, rfl⟩
    | rep k b =>
      have hk := (RowUnit.wf_rep.1 hu).1
      have hpos : 0 < (expand (.rep k b :: us)).length := by simp [RowUnit.yield]; omega
      refine absurd ?_ (distinctNeighbours_getElem h hpos)
      rw [expand_rep_getElem (by omega), expand_rep_getElem (by omega)]

theorem expand_map_lit (chunks : List (List Byte)) : expand (chunks.map .lit) = chunks.flatten := by
  rw [expand, List.flatMap_map]
  exact List.flatMap_id

/-- R83 (c): a literal unit in front of another one is full. -/
theorem canonical_lit_lit_length {ds es : List Byte} {us : List RowUnit}
    (h : canonical (.lit ds :: .lit es :: us) = true) : ds.length = 128 := by
  have hle := (RowUnit.wf_lit.1 (canonical_head_wf h)).2
  by_contra hne
  obtain hnil | ⟨k, c, vs, hrep, -⟩ := canonical_short_lit h (by omega)
  · cases hnil
  · cases hrep

section
variable {chunks : List (List Byte)} (h : canonical (chunks.map .lit) = true)
include h

/-- Every unit of a canonical row of literal units but the last one is full (R83 (c)). -/
theorem canonical_literals_full : ∀ c ∈ chunks.dropLast, c.length = 128 := by
  induction chunks with
  | nil => simp
  | cons c chunks ih =>
    cases chunks with
    | nil => simp
    | cons d chunks =>
      rw [List.dropLast_cons_cons, List.forall_mem_cons]
      exact ⟨canonical_lit_lit_length h, ih (canonical_tail h)⟩

/-- A canonical row of literal units has one unit per 128 bytes, rounded up. -/
theorem canonical_literals_count : chunks.length = (chunks.flatten.length + 127) / 128 := by
  induction chunks with
  | nil => rfl
  | cons c chunks ih =>
    have hrest := ih (canonical_tail h)
    rw [List.flatten_cons, List.length_append, List.length_cons, hrest]
    cases chunks with
    | nil =>
      have hc := RowUnit.wf_lit.1 (canonical_head_wf h)
      rw [List.flatten_nil, List.length_nil]; omega
    | cons d chunks =>
      have hc := canonical_lit_lit_length h
      omega

theorem canonical_literals_length : ∀ c ∈ chunks, 1 ≤ c.length ∧ c.length ≤ 128 :=
  fun _ hc => RowUnit.wf_lit.1 (canonical_wf h _ (List.mem_map_of_mem hc))

end

/-- Settles O29: the row's canonical units are all literal, and R83 (c) lets only the last one be short. -/
theorem compressSplitsLiteralsAt128 : Obligations.CompressSplitsLiteralsAt128 := by
  intro s row h hin hr hd hc
  obtain ⟨us, ⟨hus, rfl⟩, -⟩ := canonicalUnitsAreUnique row
  obtain ⟨chunks, rfl⟩ := literals_of_distinctNeighbours (canonical_wf hus) hd
  obtain ⟨t, he, hend, hout⟩ := exec_compress_of_room h hin hus hr hc
  have hflat := expand_map_lit chunks
  refine ⟨t, chunks, he, hend, hflat.symm, ?_, canonical_literals_full hus, canonical_literals_length hus, hout⟩
  rw [hflat]
  exact canonical_literals_count hus

end Sys2Proof.Machine

/-! PROOFS, family 41_rle_decompress: one unit as a step of its own (O21, O22, O23, O24). -/
namespace Sys2Proof.Machine

/-! ### How a unit ends -/

/-- A unit that goes on is held where its yield fits `CAP_OUT`. -/
theorem unitStep_of_go {body : State → Flow} {s t : State} (h : body s = .go t) (hc : t.outlen ≤ s.par.capOut) :
    unitStep body s = .next t := by
  rw [unitStep, h]
  exact heldOrRefused_eq_next.2 ⟨hc, rfl⟩

theorem unitStep_of_raised {body : State → Flow} {s t : State} (h : body s = .raised t) :
    unitStep body s = .next t := by
  rw [unitStep, h]

/-- A unit that raises nothing records no fault. -/
theorem unitStep_fault {body : State → Flow} {s t : State} (hk : FlowKeeps s (body s))
    (hn : ∀ u, body s ≠ .raised u) (h : unitStep body s = .next t) : t.fault = s.fault := by
  cases hbody : body s with
  | go u =>
    rw [unitStep, hbody] at h
    obtain ⟨-, rfl⟩ := heldOrRefused_eq_next.1 h
    rw [hbody] at hk
    exact BodyKeeps.fault hk
  | raised u => exact absurd hbody (hn u)
  | stop f => rw [unitStep, hbody] at h; cases h

/-- What a whole unit leaves: its yield `v` at the old `OUTLEN`, the cursor at `i`, and everything else as it was. -/
theorem emit_unit_frame (v : List Byte) (i : Nat) (s : State) :
    Memory.readN (setIp i (emit v s)).outBuf s.outlen v.length = some v ∧
      (∀ a, a < s.outlen ∨ s.outlen + v.length ≤ a →
        Memory.read (setIp i (emit v s)).outBuf a = Memory.read s.outBuf a) ∧
      SameHostSide s (setIp i (emit v s)) ∧
      SameBlockSide { s with outlen := (setIp i (emit v s)).outlen, ip := i } (setIp i (emit v s)) := by
  have k : BodyKeeps s (setIp i (emit v s)) := (emit_keeps v s).trans (setIp_keeps i _)
  exact ⟨Memory.readN_writeAll s.outBuf s.outlen v, k.outside, k.hostSide, by constructor <;> rfl⟩

/-! ### Whole units -/

/-- Settles O21: the payload is emitted and the cursor set behind it. That `OUT` above the new `OUTLEN` stays is the
model's choice (log 22). -/
theorem litCopiesItsPayload : Obligations.LitCopiesItsPayload := by
  intro n s ds hin hds hc
  have hlen : ds.length = n + 1 := Memory.readN_length hds
  have hframe := emit_unit_frame ds (s.ip + n + 2) s
  rw [hlen] at hframe
  exact ⟨_, unitStep_of_go (litBody_go hin hds) (by simpa [hlen] using hc), by simp [hlen], rfl, hframe⟩

/-- Settles O23: the copies are emitted and the cursor set behind the unit. That `OUT` above the new `OUTLEN` stays is
the model's choice (log 22). -/
theorem repCopiesItsByte : Obligations.RepCopiesItsByte := by
  intro m s b hin hb hc
  have hframe := emit_unit_frame (List.replicate (m + 1) b) (s.ip + 2) s
  rw [List.length_replicate] at hframe
  exact ⟨_, unitStep_of_go (repBody_go hin hb) (by simpa using hc), by simp, rfl, hframe⟩

/-! ### Truncated units -/

theorem litBody_not_raised {n : Nat} {s : State} (h : s.ip + n + 2 ≤ s.inlen) (u : State) :
    litBody n s ≠ .raised u := by
  rw [litBody, if_neg (by omega)]
  split <;> nofun

theorem repBody_not_raised {m : Nat} {s : State} (h : s.ip + 2 ≤ s.inlen) (u : State) :
    repBody m s ≠ .raised u := by
  rw [repBody, if_neg (by omega)]
  split <;> nofun

/-- Settles O22: a literal unit raises exactly where its test of the length does (R114). -/
theorem truncatedLitRaises : Obligations.TruncatedLitRaises :=
  ⟨fun _ _ h => unitStep_of_raised (litBody_raised h),
    fun n s _ h hn => unitStep_fault (litBody_keeps n s) (litBody_not_raised h) hn⟩

/-- Settles O24: a repeat unit raises exactly where its test of the length does (R115). -/
theorem truncatedRepRaises : Obligations.TruncatedRepRaises :=
  ⟨fun _ _ h => unitStep_of_raised (repBody_raised h),
    fun m s _ h hn => unitStep_fault (repBody_keeps m s) (repBody_not_raised h) hn⟩

end Sys2Proof.Machine

/-! PROOFS, family 41_rle_decompress: the atomic operation is the run of its units (O10, O35). -/
namespace Sys2Proof.Machine

/-! ### A busy step -/

/-- A busy step inside the row is one pass of the loop of R116. -/
theorem step_of_lt {s : State} (hb : s.busy = true) (hi : s.ip < s.inlen) : step s = unitStep decompressPass s := by
  rw [step_busy hb, interpretNext, if_pos hi]
  cases hr : readIn s s.ip with
  | ok b => exact exec_decodeTag (readIn_eq_ok.1 hr)
  | error f => rw [unitStep, decompressPass, hr]

/-- A busy step at the end of the row is the epilogue (R111, R38). -/
theorem step_of_ge {s : State} (hb : s.busy = true) (hi : s.inlen ≤ s.ip) : step s = .next (epilogue s) := by
  rw [step_busy hb, interpretNext, if_neg (by omega)]

/-- Settles O10: the epilogue writes `STATUS` only. That the end of the row is a step of its own is the model's choice
(log 1). -/
theorem interpretationEndsAtRowEnd : Obligations.InterpretationEndsAtRowEnd := fun _ hb hi => step_of_ge hb hi

/-! ### The loop, pass by pass -/

theorem litBody_go_ip {n : Nat} {s t : State} (h : litBody n s = .go t) : t.ip = s.ip + n + 2 := by
  unfold litBody raiseFlow at h
  split at h
  · cases h
  · split at h <;> cases h
    rfl

theorem repBody_go_ip {m : Nat} {s t : State} (h : repBody m s = .go t) : t.ip = s.ip + 2 := by
  unfold repBody raiseFlow at h
  split at h
  · cases h
  · split at h <;> cases h
    rfl

/-- Every pass that goes on moves the cursor: a unit has a tag and a payload (R112, R113). -/
theorem decompressPass_advances {s t : State} (h : decompressPass s = .go t) : s.ip < t.ip := by
  unfold decompressPass at h
  split at h
  · cases h
  · split at h
    · have := repBody_go_ip h; omega
    · have := litBody_go_ip h; omega

theorem decompressPass_go_keeps {s t : State} (h : decompressPass s = .go t) : BodyKeeps s t := by
  have k := decompressPass_keeps s
  rwa [h] at k

/-- A pass that raises has written nothing (R114, R115). -/
theorem decompressPass_raised_eq {s t : State} (h : decompressPass s = .raised t) :
    t = raise .malformedInput s.ip s := by
  have hend := decompressPass_unitEnd s
  rwa [h] at hend

theorem decompressLoop_of_ge (n : Nat) {s : State} (h : s.inlen ≤ s.ip) : decompressLoop n s = .go s := by
  cases n with
  | zero => rfl
  | succ n => rw [decompressLoop, if_neg (by omega)]

theorem decompressLoop_succ {n : Nat} {s : State} (h : s.ip < s.inlen) :
    decompressLoop (n + 1) s = (decompressPass s).andThen (decompressLoop n) := by
  rw [decompressLoop, if_pos h]

/-! ### Runs -/

section
variable {M : Host.Core} {s t u : M.State} (k : Nat)

theorem run_succ_of_next (h : M.step s = .next u) : M.run (k + 1) s = M.run k u := by
  rw [Host.Core.run, h]

/-- A run that goes on takes a first step that goes on. -/
theorem run_succ_next (h : M.run (k + 1) s = .next t) : ∃ u, M.step s = .next u ∧ M.run k u = .next t := by
  cases hs : M.step s with
  | next u => exact ⟨u, rfl, run_succ_of_next k hs ▸ h⟩
  | fault f => rw [Host.Core.run, hs] at h; cases h
  | refused r => rw [Host.Core.run, hs] at h; cases h

end

/-- An idle block without moves of the host stays where it is (R36). -/
theorem run_idle {s : State} (hb : s.busy = false) (hh : s.host = []) (k : Nat) :
    Host.Core.run Sys2Proof.core k s = .next s := by
  induction k with
  | zero => rfl
  | succ k ih => exact (run_succ_of_next (M := Sys2Proof.core) k (idleBlockWaits s hb hh)).trans ih

/-- Inside an interpretation that no move of the host follows, the result so far within `CAP_OUT`. -/
structure Interpreting (s : State) : Prop where
  busy : s.busy = true
  noMoves : s.host = []
  held : s.outlen ≤ s.par.capOut

theorem interpreting_prologue {s : State} (h : s.host = []) : Interpreting (prologue s) :=
  ⟨prologue_busy s, h, Nat.zero_le _⟩

theorem Interpreting.of_bodyKeeps {s t : State} (h : Interpreting s) (k : BodyKeeps s t)
    (hc : t.outlen ≤ s.par.capOut) : Interpreting t :=
  ⟨k.busy.trans h.busy, k.hostSide.host.trans h.noMoves, k.hostSide.par ▸ hc⟩

/-- Where a run from inside an interpretation comes to an idle block, the loop of R116 with fuel for the rest of the row
ends the operation in the same state. -/
theorem finish_of_run {s u t : State} {k n : Nat} (hu : Interpreting u) (hpar : u.par = s.par)
    (hn : u.inlen ≤ u.ip + n) (hrun : Host.Core.run Sys2Proof.core k u = .next t) (ht : t.busy = false) :
    finish s (decompressLoop n u) = .next t := by
  induction k generalizing u n with
  | zero => cases hrun; rw [hu.busy] at ht; cases ht
  | succ k ih =>
    have held : u.outlen ≤ s.par.capOut := hpar ▸ hu.held
    obtain ⟨v, hstep, hrun⟩ := run_succ_next k hrun
    rcases step_busy_cases hu.busy hstep with ⟨hi, rfl⟩ | ⟨hi, _, -, ⟨w, hw, hc, rfl⟩ | hw⟩
    · rw [run_idle (epilogue_busy u) hu.noMoves] at hrun
      cases hrun
      rw [decompressLoop_of_ge n hi]
      exact heldOrRefused_eq_next.2 ⟨held, rfl⟩
    · have keeps := decompressPass_go_keeps hw
      have hadv := decompressPass_advances hw
      have hlen := keeps.hostSide.inlen
      obtain ⟨n, rfl⟩ : ∃ m, n = m + 1 := ⟨n - 1, by omega⟩
      rw [decompressLoop_succ hi, hw]
      exact ih (hu.of_bodyKeeps keeps hc) (keeps.hostSide.par.trans hpar) (by omega) hrun
    · obtain rfl := decompressPass_raised_eq hw
      rw [run_idle (raise_busy _ _ u) hu.noMoves] at hrun
      cases hrun
      obtain ⟨n, rfl⟩ : ∃ m, n = m + 1 := ⟨n - 1, by omega⟩
      rw [decompressLoop_succ hi, hw]
      exact heldOrRefused_eq_next.2 ⟨held, rfl⟩

/-! ### How many steps a run takes -/

/-- A run goes over whole units one step each, appending their yields, where these fit `CAP_OUT`. -/
theorem run_units (us : List RowUnit) (k : Nat) {s : State} (hb : s.busy = true) (hw : ∀ u ∈ us, u.wf = true)
    (hin : s.ip + (encodeRow us).length ≤ s.inlen)
    (hr : Memory.readN s.inBuf s.ip (encodeRow us).length = some (encodeRow us))
    (hc : s.outlen + (expand us).length ≤ s.par.capOut) :
    Host.Core.run Sys2Proof.core (us.length + k) s =
      Host.Core.run Sys2Proof.core k (setIp (s.ip + (encodeRow us).length) (emit (expand us) s)) := by
  induction us generalizing s with
  | nil => simp [setIp_self]
  | cons u us ih =>
    obtain ⟨hu, hus⟩ := List.forall_mem_cons.1 hw
    have htwo := RowUnit.two_le_bytes hu
    rw [encodeRow_cons] at hin hr ⊢
    rw [expand_cons] at hc ⊢
    rw [List.length_append] at hin hc
    have hpass := decompressPass_unit hu (by omega) (readN_append_left hr)
    have hstep : step s = .next (setIp (s.ip + u.bytes.length) (emit u.yield s)) :=
      (step_of_lt hb (by omega)).trans (unitStep_of_go hpass (by simp; omega))
    rw [List.length_cons, Nat.add_right_comm]
    refine (run_succ_of_next (M := Sys2Proof.core) _ hstep).trans ?_
    rw [ih (by simpa using hb) hus (by simp; omega) (by simpa using readN_append_right hr) (by simp; omega)]
    simp only [setIp_ip, emit_setIp, setIp_setIp, emit_append, List.length_append, Nat.add_assoc]

/-- A written row takes one step per whole unit and one more, the epilogue or the `raise` of a truncated unit. -/
theorem run_row {s : State} {us : List RowUnit} {tail : List Byte} (hb : s.busy = true) (h0 : s.ip = 0)
    (hw : ∀ u ∈ us, u.wf = true) (ht : tail = [] ∨ truncatedUnit tail = true)
    (hr : inRow s = some (encodeRow us ++ tail)) (hc : s.outlen + (expand us).length ≤ s.par.capOut) :
    ∃ t : State, Host.Core.run Sys2Proof.core (us.length + 1) s = .next t ∧ t.busy = false := by
  have hlen : (encodeRow us ++ tail).length = s.inlen := Memory.readN_length hr
  have hrow : Memory.readN s.inBuf s.ip (encodeRow us ++ tail).length = some (encodeRow us ++ tail) := by
    rw [h0, hlen]; exact hr
  rw [List.length_append] at hlen
  rw [run_units us 1 hb hw (by omega) (readN_append_left hrow) hc]
  generalize hu : setIp (s.ip + (encodeRow us).length) (emit (expand us) s) = u
  have hub : u.busy = true := by simpa [← hu] using hb
  rcases ht with rfl | ht
  · exact ⟨epilogue u, run_succ_of_next 0 (step_of_ge hub (by simp [← hu]; simp at hlen; omega)), rfl⟩
  · have hpos : 0 < tail.length := List.length_pos_iff.2 fun h => by rw [h] at ht; cases ht
    have hpass := decompressPass_truncated (s := u) ht (by simp [← hu]; omega)
      (by simpa [← hu] using readN_append_right hrow)
    have hstep : step u = .next _ :=
      (step_of_lt hub (by simp [← hu]; omega)).trans (unitStep_of_raised hpass)
    exact ⟨_, run_succ_of_next 0 hstep, raise_busy _ _ u⟩

/-- Every row of bytes begins with whole units; nothing follows them, or a truncated unit (R76). -/
theorem exists_units_append (row : List Byte) : ∃ (us : List RowUnit) (tail : List Byte),
    (∀ u ∈ us, u.wf = true) ∧ (tail = [] ∨ truncatedUnit tail = true) ∧ row = encodeRow us ++ tail := by
  obtain ⟨us, hw, h | ⟨tail, ht, h⟩⟩ := row_cases row
  · exact ⟨us, [], hw, .inl rfl, by rw [h, List.append_nil]⟩
  · exact ⟨us, tail, hw, .inr ht, h⟩

/-- Settles O35: run and loop make the same passes, and a row has at most one whole unit per two of its bytes. That the
operation is one step and its inside is stepped unit by unit is the model's choice (log 1). -/
theorem decompressIsTheRunOfItsUnits : Obligations.DecompressIsTheRunOfItsUnits := by
  constructor
  · intro s t k h hh hin hrun ht
    rw [exec_decompress, operation, startChecked_of_ready h (rowFits_of_le hin)]
    exact finish_of_run (interpreting_prologue hh) rfl (by simp) hrun ht
  · intro s _ _ hr hc
    obtain ⟨row, hr⟩ := Option.isSome_iff_exists.1 hr
    obtain ⟨us, tail, hw, ht, rfl⟩ := exists_units_append row
    have hlen : (encodeRow us ++ tail).length = s.inlen := Memory.readN_length hr
    rw [List.length_append] at hlen
    have hbytes := expand_length_le hw
    have hunits := length_le_encodeRow hw
    obtain ⟨t, hrun, htb⟩ := run_row (prologue_busy s) (prologue_ip s) hw ht ((inRow_prologue s).trans hr)
      (by simp; omega)
    exact ⟨us.length + 1, t, by omega, hrun, htb⟩

end Sys2Proof.Machine

/-! PROOFS, family 41_rle_decompress: what DECOMPRESS leaves (O31, O32, O34). -/
namespace Sys2Proof.Machine

/-- Settles O31: whole units leave their yields, or these do not fit. -/
theorem decompressYieldsTheUnits : Obligations.DecompressYieldsTheUnits := by
  intro s us h hin hw hr
  split
  · next hc => exact exec_decompress_units h hin hw hr hc
  · next hc =>
    exact exec_decompress_of_too_long (tail := []) h hin hw (.inl rfl) (by rwa [List.append_nil]) (by omega)

/-- Settles O32: the end at a truncated unit, and the frame of the operation. That `OUT` above `OUTLEN` stays is the
model's choice (log 22). -/
theorem decompressStopsAtTheTruncatedUnit : Obligations.DecompressStopsAtTheTruncatedUnit := by
  intro s us tail h hin hw ht hr hc
  obtain ⟨t, he, hend, hout, hip⟩ := exec_decompress_truncated h hin hw ht hr hc
  have k := operation_keeps decompressBody_keeps (exec_decompress s ▸ he)
  exact ⟨t, he, hend, hout, hip, k.outside⟩

/-- The rows of R121 as units: three different ones, all of which stand for `41 41`. -/
theorem rows_of_two_equal_bytes {row : List Byte}
    (h : row ∈ [[0x00#8, 0x41#8, 0x00#8, 0x41#8], [0x01#8, 0x41#8, 0x41#8], [0xFF#8, 0x41#8]]) :
    ∃ us : List RowUnit, (∀ u ∈ us, u.wf = true) ∧ row = encodeRow us ∧ expand us = [0x41#8, 0x41#8] := by
  simp only [List.mem_cons, List.not_mem_nil, or_false] at h
  rcases h with rfl | rfl | rfl
  · exact ⟨[.lit [0x41#8], .lit [0x41#8]], by decide⟩
  · exact ⟨[.lit [0x41#8, 0x41#8]], by decide⟩
  · exact ⟨[.rep 2 0x41#8], by decide⟩

/-- Settles O34: the three rows are units that stand for `41 41`, and of those only `FF 41` is canonical. -/
theorem decompressIsNotInjective : Obligations.DecompressIsNotInjective := by
  constructor
  · intro s row h hin hc hrow hr
    obtain ⟨us, hw, rfl, hexpand⟩ := rows_of_two_equal_bytes hrow
    obtain ⟨t, he, hend, hout, -⟩ := exec_decompress_units h hin hw hr (by rw [hexpand]; exact hc)
    exact ⟨t, he, hend, hexpand ▸ hout⟩
  · intro s h hin hc hr
    obtain ⟨t, he, hend, hout, -⟩ := exec_compress_canonical (us := [.rep 2 0x41#8]) h hin (by decide) hr hc
    exact ⟨t, he, hend, hout⟩

end Sys2Proof.Machine

/-! PROOFS, family 42_rasterize: what RASTERIZE leaves where every sampled pixel is written (O36, O37), and where it
stops the model (O38). -/
namespace Sys2Proof.Machine

/-! ### The bit of one position -/

theorem rasterBit_prologue (s : State) (p : Nat) : rasterBit (prologue s) p = rasterBit s p :=
  rasterBit_congr (by constructor <;> simp) p

/-- A position outside the image gives 0 (R133). -/
theorem rasterBit_of_not_sampled {s : State} {p : Nat} (h : ¬ Sampled s p) : rasterBit s p = .ok false := by
  rcases rasterBit_eq s p with ⟨-, hb⟩ | ⟨hs, -, -⟩ | ⟨-, hs, -, -⟩
  · exact hb
  · exact absurd hs h
  · exact absurd hs h

/-- A sampled pixel gives its thresholded bit (R134). -/
theorem rasterBit_of_pixel {s : State} {p : Nat} {px : Pixel} (h : Sampled s p) (hpx : pixelAt s p = some px) :
    rasterBit s p = .ok (blackBit s s.x ((p : Int) - s.yoff).toNat px) := by
  rcases rasterBit_eq s p with ⟨hs, -⟩ | ⟨-, hn, -⟩ | ⟨px', -, hpx', hb⟩
  · exact absurd h hs
  · rw [hpx] at hn; cases hn
  · rw [hpx] at hpx'; cases hpx'; exact hb

/-- A sampled pixel that nothing has written stops the model (U6, log 7). -/
theorem rasterBit_of_unwritten {s : State} {p : Nat} (h : Sampled s p) (hn : pixelAt s p = none) :
    rasterBit s p = .error (.unwrittenPixel s.x ((p : Int) - s.yoff).toNat) := by
  rcases rasterBit_eq s p with ⟨hs, -⟩ | ⟨-, -, hb⟩ | ⟨px, -, hpx, -⟩
  · exact absurd h hs
  · exact hb
  · rw [hn] at hpx; cases hpx

theorem exists_rasterBit_ok {s : State} {p : Nat} (h : ¬ (Sampled s p ∧ pixelAt s p = none)) :
    ∃ b, rasterBit s p = .ok b := by
  rcases rasterBit_eq s p with ⟨-, hb⟩ | ⟨hs, hn, -⟩ | ⟨px, -, -, hb⟩
  · exact ⟨_, hb⟩
  · exact absurd ⟨hs, hn⟩ h
  · exact ⟨_, hb⟩

theorem blackBit_gray {s : State} (hf : s.fmt = .gray) (x y : Nat) (g : Byte) :
    blackBit s x y (.gray g) = decide (g.toNat ≤ 230) := by
  unfold blackBit
  rw [hf]; rfl

theorem blackBit_rgb {s : State} (hf : s.fmt = .rgb) (x y : Nat) (r g b : Byte) :
    blackBit s x y (.rgb r g b) = decide (r.toNat + g.toNat + b.toNat ≤ 690) := by
  unfold blackBit
  rw [hf]; rfl

/-! ### A stripe of readable positions -/

/-- `RASTERIZE` with every position readable ends with `SC` bytes that hold the bit of each position where R136 puts
it. -/
theorem exec_rasterize_of_ok {s : State} (h : Ready s) (hfit : RasterOperandsFit s)
    (hok : ∀ p < 8 * s.sc, ∃ b, rasterBit s p = .ok b) :
    ∃ (t : State) (row : List Byte), exec .rasterize s = .next t ∧ EndedWell t ∧ row.length = s.sc ∧ t.ip = 0 ∧
      outRow t = some row ∧ ∀ p < 8 * s.sc, ∀ b, rasterBit s p = .ok b → rowBit row p = some b := by
  obtain ⟨row, hlen, hloop, hbits⟩ := rasterLoop_of_ok s.sc 0 (prologue s) fun p _ hp =>
    by rw [rasterBit_prologue]; exact hok p (by omega)
  have hbody : rasterizeBody (prologue s) = .go (emit row (prologue s)) := by
    rw [rasterizeBody, prologue_sc, hloop]
  have hexec := (operation_of_go h ((rasterFits_iff s).2 hfit) hbody).trans (if_pos (by simpa [hlen] using hfit.held))
  refine ⟨_, row, hexec, endedWell_epilogue (by simpa using h.noFault) (by simp), hlen, by simp,
    by simpa [outRow] using outRow_emit_prologue row s, fun p hp b hb => ?_⟩
  obtain ⟨c, hc, hrow⟩ := hbits p (by omega)
  rw [Nat.zero_mul, Nat.zero_add, rasterBit_prologue, hb] at hc
  cases hc
  exact hrow

/-- Settles O36: each of the three kinds of position gives its bit, and the row holds it. Of a pixel stored in the other
format than `FMT` the statement says nothing (log 13). -/
theorem rasterizeSamplesEveryPosition : Obligations.RasterizeSamplesEveryPosition := by
  intro s h hfit hwritten
  have hok : ∀ p < 8 * s.sc, ∃ b, rasterBit s p = .ok b := fun p hp =>
    exists_rasterBit_ok fun ⟨hs, hn⟩ => by simpa [hn] using hwritten p hp hs
  obtain ⟨t, row, he, hend, hlen, hip, hout, hrow⟩ := exec_rasterize_of_ok h hfit hok
  refine ⟨t, row, he, hend, (outlen_of_outRow hout).trans hlen, hip, hout, fun p hp => ⟨?_, ?_, ?_⟩⟩
  · exact fun hs => hrow p hp _ (rasterBit_of_not_sampled hs)
  · intro g hs hf hpx
    rw [← blackBit_gray hf]
    exact hrow p hp _ (rasterBit_of_pixel hs hpx)
  · intro r g b hs hf hpx
    rw [← blackBit_rgb hf]
    exact hrow p hp _ (rasterBit_of_pixel hs hpx)

/-! ### A white stripe -/

theorem rowBit_of_lt {row : List Byte} {i j : Nat} (hi : i < row.length) (hj : j < 8) :
    rowBit row (8 * i + (7 - j)) = some (row[i].getLsbD j) := by
  rw [rowBit, show (8 * i + (7 - j)) / 8 = i by omega, show 7 - (8 * i + (7 - j)) % 8 = j by omega,
    List.getElem?_eq_getElem hi]

/-- A row whose every bit is 0 is white bytes. -/
theorem eq_replicate_of_rowBit_false {row : List Byte} (h : ∀ p < 8 * row.length, rowBit row p = some false) :
    row = List.replicate row.length 0x00#8 := by
  refine List.ext_getElem (by simp) fun i hi _ => ?_
  rw [List.getElem_replicate]
  refine BitVec.eq_of_getLsbD_eq fun j hj => ?_
  have hbit := h (8 * i + (7 - j)) (by omega)
  rw [rowBit_of_lt hi hj] at hbit
  simpa using hbit

/-- The corner cases of R139: no position of the stripe falls on the image. -/
theorem not_sampled_of_outside {s : State}
    (h : s.w ≤ s.x ∨ s.h = 0 ∨ (8 * s.sc : Int) ≤ s.yoff ∨ s.yoff ≤ -(s.h : Int)) {p : Nat} (hp : p < 8 * s.sc) :
    ¬ Sampled s p := by
  rintro ⟨hx, hlow, hhigh⟩
  omega

/-- Settles O37: no position is sampled, so every bit is 0. -/
theorem rasterizeOutsideTheImageIsWhite : Obligations.RasterizeOutsideTheImageIsWhite := by
  intro s h hfit hout
  have hwhite : ∀ p < 8 * s.sc, rasterBit s p = .ok false := fun p hp =>
    rasterBit_of_not_sampled (not_sampled_of_outside hout hp)
  obtain ⟨t, row, he, hend, hlen, -, hrow, hbits⟩ := exec_rasterize_of_ok h hfit fun p hp => ⟨_, hwhite p hp⟩
  refine ⟨t, he, hend, ?_⟩
  rw [hrow, ← hlen, ← eq_replicate_of_rowBit_false fun p hp => ?_]
  rw [hlen] at hp
  exact hbits p hp _ (hwhite p hp)

/-! ### The first unwritten pixel -/

/-- A stretch of positions stops at the first one that stops. -/
theorem rasterBits_of_first_error {s : State} {f : Fault} {q n p : Nat} (hpq : p ≤ q) (hq : q < p + n)
    (hf : rasterBit s q = .error f) (hok : ∀ r < q, ∃ b, rasterBit s r = .ok b) :
    rasterBits s p n = .error f := by
  induction n generalizing p with
  | zero => omega
  | succ n ih =>
    rw [rasterBits]
    rcases hpq.eq_or_lt with rfl | hlt
    · rw [hf]
    · obtain ⟨b, hb⟩ := hok p hlt
      rw [hb, ih hlt (by omega)]

/-- The loop of R137 goes over its positions in order, so it stops at the first one that stops. -/
theorem rasterLoop_of_first_error {s : State} {f : Fault} {q n i : Nat} (hiq : i * 8 ≤ q) (hq : q < (i + n) * 8)
    (hf : rasterBit s q = .error f) (hok : ∀ r < q, ∃ b, rasterBit s r = .ok b) :
    rasterLoop n i s = .stop f := by
  induction n generalizing i s with
  | zero => omega
  | succ n ih =>
    rw [rasterLoop, rasterByte]
    by_cases hlt : q < i * 8 + 8
    · rw [rasterBits_of_first_error hiq hlt hf hok]
    · obtain ⟨bs, hbs, -, -⟩ := rasterBits_of_ok (s := s) (p := i * 8) (n := 8) fun k hk => hok _ (by omega)
      rw [hbs]
      exact ih (by omega) (by omega) hf hok

/-- Settles O38: the loop stops at the least sampled position without a pixel. That it stops there is the model's own
choice (log 7). -/
theorem rasterizeStopsAtUnwrittenPixel : Obligations.RasterizeStopsAtUnwrittenPixel := by
  intro s p h hfit hp hs hn
  classical
  have hex : ∃ q, Sampled s q ∧ pixelAt s q = none := ⟨p, hs, hn⟩
  obtain ⟨q, ⟨hqs, hqn⟩, hleast⟩ := Nat.findX hex
  have hqp : q ≤ p := not_lt.1 fun hlt => hleast p hlt ⟨hs, hn⟩
  have hbody : rasterizeBody (prologue s) = .stop (.unwrittenPixel s.x ((q : Int) - s.yoff).toNat) := by
    refine rasterLoop_of_first_error (q := q) (by omega) (by rw [prologue_sc]; omega) ?_ fun r hr => ?_
    · rw [rasterBit_prologue]; exact rasterBit_of_unwritten hqs hqn
    · rw [rasterBit_prologue]; exact exists_rasterBit_ok (hleast r hr)
  exact ⟨q, hqp, hqs, hqn, operation_of_stop h ((rasterFits_iff s).2 hfit) hbody⟩

end Sys2Proof.Machine

/-! PROOFS, family 43_mode_and_row_ops: `SETMODE` by its mode byte (O39, O40), and `ROWENC` and `ROWDEC` by the mode in
force: none (O41), Raw (O42), RunLength (O43), and the round trip under either of the two (O44). -/
namespace Sys2Proof.Machine

/-! ### The prologues as one record update (R37) -/

theorem prologueMode_eq (s : State) :
    prologueMode s = { s with ip := 0, rc := 0, lb := [], busy := true, done := false } := by
  simp only [prologueMode, clearLb, setRc, setIp, statusStart]

theorem prologue_eq (s : State) :
    prologue s = { s with outlen := 0, ip := 0, rc := 0, lb := [], busy := true, done := false } := by
  simp only [prologue, prologueMode_eq]

/-- The prologue and the epilogue of `SETMODE` around a selected mode. -/
theorem epilogue_prologueMode (m : CMode) (s : State) :
    epilogue { prologueMode s with cmode := m } =
      { s with cmode := m, ip := 0, rc := 0, lb := [], busy := false, done := true } := by
  simp only [epilogue, statusEnd, prologueMode_eq]

/-! ### SETMODE (R150, R151) -/

section
variable {s : State}

theorem setmodeBody_of_raw (h : s.marg = 0x00#8) : setmodeBody s = .go { s with cmode := .raw } := by
  simpa [h] using setmodeBody_cases s

theorem setmodeBody_of_runLength (h : s.marg = 0x02#8) : setmodeBody s = .go { s with cmode := .runLength } := by
  simpa [h] using setmodeBody_cases s

theorem setmodeBody_of_illegal (h0 : s.marg ≠ 0x00#8) (h2 : s.marg ≠ 0x02#8) :
    setmodeBody s = .raised (raise .modeInvalid s.marg.toNat s) := by
  simpa [h0, h2] using setmodeBody_cases s

end

/-- Settles O39: the body selects the mode between the prologue and the epilogue, which write the rest. -/
theorem setmodeSelectsTheMode : Obligations.SetmodeSelectsTheMode := by
  intro s h
  rw [exec_setmode_of_ready h]
  refine ⟨fun h0 => ?_, fun h2 => ?_, rfl, rfl, rfl, rfl⟩
  · rw [setmodeBody_of_raw (s := prologueMode s) h0, finishMode, epilogue_prologueMode]
  · rw [setmodeBody_of_runLength (s := prologueMode s) h2, finishMode, epilogue_prologueMode]

/-- Settles O40: the body raises in the state the prologue leaves, in which `CMODE`, `OUT` and `OUTLEN` are as they
were. -/
theorem setmodeRejectsOtherValues : Obligations.SetmodeRejectsOtherValues := by
  intro s h h0 h2
  rw [exec_setmode_of_ready h, setmodeBody_of_illegal (s := prologueMode s) h0 h2, finishMode, prologueMode_marg]
  simp only [raise, prologueMode_eq]

/-! ### ROWENC and ROWDEC in each mode -/

/-- With no mode selected a row operation is its prologue and the `raise`, whatever its codec (R156). -/
theorem operation_rowBody_unset {s : State} (codec : State → Flow) (h : Ready s) (hin : s.inlen ≤ s.par.capIn)
    (hm : s.cmode = .unset) :
    operation rowFits (rowBody codec) s = .next (raise .modeUnset 0 (prologue s)) := by
  have hraise := rowBody_unset codec ((prologue_cmode s).trans hm)
  rw [operation_of_raised h (rowFits_of_le hin) hraise, if_pos (by simp)]

/-- Settles O41: the mode is tested before the codec or the copy is reached, so `IN` plays no part. -/
theorem rowOperationsNeedAMode : Obligations.RowOperationsNeedAMode := by
  intro i s hi h hin hm
  have hexec : exec i s = .next (raise .modeUnset 0 (prologue s)) := by
    rcases hi with rfl | rfl
    · exact operation_rowBody_unset compressBody h hin hm
    · exact operation_rowBody_unset decompressBody h hin hm
  rw [hexec]
  simp only [raise, prologue_eq]

/-- Settles O42: in Raw mode the body of both operations is one copy of the whole row. -/
theorem rawModeIsTheIdentity : Obligations.RawModeIsTheIdentity := by
  intro i s row hi h hin hc hm hr
  have hlen : row.length = s.inlen := Memory.readN_length hr
  have hcopy := rawBody_of_row ((inRow_prologue s).trans hr)
  rw [exec_raw hi hm]
  exact ⟨_, (operation_of_go h (rowFits_of_le hin) hcopy).trans (if_pos (by simpa [hlen] using hc)),
    endedWell_epilogue (by simpa using h.noFault) (by simp),
    by simpa [outRow] using outRow_emit_prologue row s, by simp [hlen], by simp, by simp⟩

/-- Settles O43: the bodies agree once the mode is RunLength. -/
theorem runLengthModeIsTheCodec : Obligations.RunLengthModeIsTheCodec := fun _ hm =>
  ⟨exec_rowenc_runLength hm, exec_rowdec_runLength hm⟩

/-! ### The round trip (R157) -/

/-- How an operation with the result `result` answers: it ends well with it, or `CAP_OUT` does not hold it (R61). -/
def LeavesOrRefused (i : Instr) (s : State) (result : List Byte) : Prop :=
  if result.length ≤ s.par.capOut then ∃ t : State, exec i s = .next t ∧ EndedWell t ∧ outRow t = some result
  else exec i s = .refused .overCapacity

/-- A result that fits `CAP_OUT` is left in `OUT`. -/
theorem LeavesOrRefused.leaves {i : Instr} {s : State} {result : List Byte} (h : LeavesOrRefused i s result)
    (hc : result.length ≤ s.par.capOut) :
    ∃ t : State, exec i s = .next t ∧ EndedWell t ∧ outRow t = some result := by
  rwa [LeavesOrRefused, if_pos hc] at h

/-- `ROWENC` leaves `CMODE` as it was beside its result (R30). -/
theorem LeavesOrRefused.rowenc_cmode {s : State} {packed : List Byte} (h : LeavesOrRefused .rowenc s packed) :
    if packed.length ≤ s.par.capOut then
      ∃ t : State, exec .rowenc s = .next t ∧ EndedWell t ∧ t.cmode = s.cmode ∧ outRow t = some packed
    else exec .rowenc s = .refused .overCapacity := by
  split
  · next hc =>
    obtain ⟨t, he, hend, hout⟩ := h.leaves hc
    exact ⟨t, he, hend, exec_operation_cmode (i := .rowenc) rfl nofun he, hout⟩
  · next hc => rwa [LeavesOrRefused, if_neg hc] at h

/-- In Raw mode both operations leave the row they were given, or it does not fit (R155, R61). -/
theorem leavesOrRefused_raw {i : Instr} {s : State} {row : List Byte} (hi : i = .rowenc ∨ i = .rowdec) (h : Ready s)
    (hin : s.inlen ≤ s.par.capIn) (hm : s.cmode = .raw) (hr : inRow s = some row) : LeavesOrRefused i s row := by
  have hlen : row.length = s.inlen := Memory.readN_length hr
  obtain ⟨hbeyond, -⟩ := resultBeyondCapacityIsRefused
  unfold LeavesOrRefused
  split
  · next hc =>
    obtain ⟨t, he, hend, hout, -⟩ := rawModeIsTheIdentity i s row hi h hin (hlen ▸ hc) hm hr
    exact ⟨t, he, hend, hout⟩
  · next hc => exact hbeyond i s row hi h hin hm hr (by omega)

/-- Settles O44: in Raw mode the packed row is the row itself, in RunLength mode it is the compressed row of O30. -/
theorem rowdecUndoesRowenc : Obligations.RowdecUndoesRowenc := by
  intro s row h hin hr hmode
  cases hm : s.cmode with
  | unset => exact absurd hm hmode
  | raw =>
    refine ⟨row, by omega, hm ▸ (leavesOrRefused_raw (.inl rfl) h hin hm hr).rowenc_cmode, ?_⟩
    intro u hu hum huin hur hc
    exact (leavesOrRefused_raw (.inr rfl) hu huin hum hur).leaves hc
  | runLength =>
    obtain ⟨packed, hlen, henc, hdec, -⟩ := decompressUndoesCompress s row h hin hr
    rw [← exec_rowenc_runLength hm] at henc
    refine ⟨packed, hlen, hm ▸ LeavesOrRefused.rowenc_cmode henc, ?_⟩
    intro u hu hum huin hur hc
    rw [exec_rowdec_runLength hum]
    exact hdec u hu huin hur hc

end Sys2Proof.Machine

/-! PROOFS, family 60_exceptions: a recorded fault refuses every start and stays until reset (O16). -/
namespace Sys2Proof.Machine

/-- A start beside a recorded fault changes nothing, whatever it would test or run (R180, log 9). -/
theorem startChecked_of_fault {fits : State → Bool} {run : State → Host.Outcome State Fault Refusal} {s : State}
    (hb : s.busy = false) (hf : s.fault ≠ .none) : startChecked fits run s = .next s := by
  simp [startChecked, hb, hf]

/-- The same of every operation: each has the tests of a start in front of its prologue (R35). -/
theorem exec_operation_of_fault {i : Instr} {s : State} (hi : layerOf i = .operation) (hb : s.busy = false)
    (hf : s.fault ≠ .none) : exec i s = .next s := by
  rcases exec_operation_cases hi with rfl | ⟨fits, body, he, -, -⟩
  · rw [exec_setmode, startChecked_of_fault hb hf]
  · rw [he, operation, startChecked_of_fault hb hf]

/-- A recorded fault stays under every move of the host but reset: no other one writes the block's side, and the
starts change nothing. -/
theorem hostMove_keeps_fault {m : HostMove} {s t : State} (hb : s.busy = false) (hf : s.fault ≠ .none)
    (hm : m ≠ .reset) (hn : hostMove m s = .next t) : t.fault = s.fault ∧ t.finfo = s.finfo := by
  rcases hostMove_cases hb hn with ⟨hw, -, rfl⟩ | ⟨_, -, -, -, rfl⟩ | ⟨rfl, -⟩ | ⟨c, -, rfl | ⟨i, hi, hx⟩⟩
  · have k := hostWrite_blockSide hw s
    exact ⟨k.fault, k.finfo⟩
  · exact ⟨rfl, rfl⟩
  · exact absurd rfl hm
  · exact ⟨rfl, rfl⟩
  · rw [exec_operation_of_fault (layerOf_decodeOp hi) hb hf] at hx
    cases hx
    exact ⟨rfl, rfl⟩

theorem hostMove_reset {s : State} (hb : s.busy = false) : hostMove .reset s = .next (resetBlock s) := by
  simp [hostMove, hb]

/-- Settles O16: the tests of a start come before anything is written, and of the host's moves only reset reaches the
fault registers. That a refused start is a next state is the model's choice (log 9), as is the list of moves
(log 2). -/
theorem faultIsSticky : Obligations.FaultIsSticky := by
  refine ⟨fun i s hi hb hf => exec_operation_of_fault hi hb hf, fun s t hb hf hhead hn => ?_, fun s ms hb hh => ?_⟩
  · rcases step_idle_cases hb hn with ⟨-, rfl⟩ | ⟨m, ms, hh, hm⟩
    · exact ⟨rfl, rfl⟩
    · have hne : m ≠ .reset := by simpa [hh] using hhead
      exact hostMove_keeps_fault (s := { s with host := ms }) hb hf hne hm
  · exact ⟨_, (step_move hb hh).trans (hostMove_reset hb), resetBlock_fault _⟩

end Sys2Proof.Machine

/-! PROOFS, family 70_reset_and_hazards: how a started operation ends (O20), and that nothing starts while one runs
(O19). -/
namespace Sys2Proof.Machine

/-! ### While an operation runs -/

/-- A start while the block is busy has no meaning, whatever it would test or run (R207, log 12). -/
theorem startChecked_of_busy {fits : State → Bool} {run : State → Host.Outcome State Fault Refusal} {s : State}
    (hb : s.busy = true) : startChecked fits run s = .refused .startWhileBusy := by
  simp [startChecked, hb]

theorem exec_operation_of_busy {i : Instr} {s : State} (hi : layerOf i = .operation) (hb : s.busy = true) :
    exec i s = .refused .startWhileBusy := by
  rcases exec_operation_cases hi with rfl | ⟨fits, body, he, -, -⟩
  · rw [exec_setmode, startChecked_of_busy hb]
  · rw [he, operation, startChecked_of_busy hb]

theorem hostMove_of_busy (m : HostMove) {s : State} (hb : s.busy = true) : ∃ r : Refusal, hostMove m s = .refused r := by
  cases m with
  | start c => exact ⟨.startWhileBusy, by simp [hostMove, startOp, hb]⟩
  | _ => exact ⟨.hostMoveWhileBusy, by simp [hostMove, hb]⟩

/-- Settles O19: every operation and every move of the host test `BUSY` first. That the host is assumed not to make
such a move is the model's choice (log 12). -/
theorem noOperationStartsWhileBusy : Obligations.NoOperationStartsWhileBusy := fun _ _ hi hb =>
  ⟨exec_operation_of_busy hi hb, fun m => hostMove_of_busy m hb⟩

/-! ### The two ways to end (R213) -/

/-- Done, or with a fault recorded. -/
def Ended (t : State) : Prop :=
  EndedWell t ∨ ∃ (f : FaultCode) (info : Nat), f ≠ .none ∧ EndedWithFault f info t

theorem ended_raise {f : FaultCode} (info : Nat) (t : State) (hf : f ≠ .none) : Ended (raise f info t) :=
  .inr ⟨f, info, hf, endedWithFault_raise f info t⟩

/-- An operation that writes `OUT` ends with its epilogue or with the `raise` of its body. -/
theorem operation_ended {fits : State → Bool} {body : State → Flow} (hk : ∀ u, FlowKeeps u (body u))
    (hr : ∀ u, Rested u → FlowAll Rested (body u)) {s t : State} (h : Ready s)
    (hn : operation fits body s = .next t) : Ended t := by
  have keeps := hk (prologue s)
  have rested := hr _ (prologue_rested s)
  rcases operation_next hn with ⟨hf, -⟩ | ⟨-, -, -, ⟨u, hu, rfl⟩ | hu⟩
  · exact absurd h.noFault hf
  · rw [hu] at keeps rested
    have k : BodyKeeps (prologue s) u := keeps
    exact .inl (endedWell_epilogue (by simpa [h.noFault] using k.fault) rested.1)
  · rw [hu] at keeps
    obtain ⟨u, f, info, -, rfl, hf, -⟩ := keeps
    exact ended_raise info u hf

theorem setmode_ended {s t : State} (h : Ready s) (hn : exec .setmode s = .next t) : Ended t := by
  rcases setmode_next hn with ⟨hf, -⟩ | ⟨-, ⟨-, rfl⟩ | ⟨-, rfl⟩ | ⟨-, -, rfl⟩⟩
  · exact absurd h.noFault hf
  · exact .inl (endedWell_epilogue (by simpa using h.noFault) (by simp))
  · exact .inl (endedWell_epilogue (by simpa using h.noFault) (by simp))
  · exact ended_raise _ _ nofun

theorem exec_operation_ended {i : Instr} {s t : State} (hi : layerOf i = .operation) (h : Ready s)
    (hn : exec i s = .next t) : Ended t := by
  rcases exec_operation_cases hi with rfl | ⟨fits, body, he, hk, hr⟩
  · exact setmode_ended h hn
  · exact operation_ended hk hr h (he s ▸ hn)

/-! ### When the model stops instead -/

/-- The selection of a mode always has a next state. -/
theorem exec_setmode_next {s : State} (h : Ready s) : ∃ t, exec .setmode s = .next t := by
  rw [exec_setmode_of_ready h]
  rcases setmodeBody_cases (prologueMode s) with ⟨-, hb⟩ | ⟨-, hb⟩ | ⟨-, -, hb⟩ <;>
    exact ⟨_, by rw [hb, finishMode]⟩

/-- A row operation goes on, or is refused for the length of its row or of its result, or stops at a byte of the row;
a result too long is one that a block with room for it leaves. -/
theorem rowOperation_cases {body : State → Flow} (hstop : ∀ u, StopsInRow u (body u))
    (hpar : ∀ p u, body (setPar p u) = (body u).withPar p) {s : State} (h : Ready s) :
    (∃ t, operation rowFits body s = .next t) ∨
    (operation rowFits body s = .refused .overCapacity ∧ (s.par.capIn < s.inlen ∨
      ∃ (c : Nat) (t : State), operation rowFits body (setPar { s.par with capOut := c } s) = .next t ∧
        s.par.capOut < t.outlen)) ∨
    ∃ j, j < s.inlen ∧ Memory.read s.inBuf j = none ∧ operation rowFits body s = .fault (.unwrittenIn j) := by
  by_cases hin : s.inlen ≤ s.par.capIn
  · have hfits := rowFits_of_le hin
    have tooLong : ∀ t, body (prologue s) = .go t ∨ body (prologue s) = .raised t → s.par.capOut < t.outlen →
        ∃ (c : Nat) (u : State), operation rowFits body (setPar { s.par with capOut := c } s) = .next u ∧
          s.par.capOut < u.outlen := fun t hb hc => by
      obtain ⟨u, hu, hlen⟩ := operation_beyond hpar h hfits hb
      exact ⟨_, u, hu, hlen ▸ hc⟩
    rcases operation_cases (body := body) h hfits with
      ⟨t, hb, ⟨-, he⟩ | ⟨hc, he⟩⟩ | ⟨t, hb, ⟨-, he⟩ | ⟨hc, he⟩⟩ | ⟨f, hb, he⟩
    · exact .inl ⟨_, he⟩
    · exact .inr (.inl ⟨he, .inr (tooLong t (.inl hb) hc)⟩)
    · exact .inl ⟨t, he⟩
    · exact .inr (.inl ⟨he, .inr (tooLong t (.inr hb) hc)⟩)
    · obtain ⟨j, hj, hread, rfl⟩ := hstop _ f hb
      simp only [prologue_inlen, prologue_inBuf] at hj hread
      exact .inr (.inr ⟨j, hj, hread, he⟩)
  · exact .inr (.inl ⟨operation_of_unfit h (by simpa [rowFits] using hin), .inl (by omega)⟩)

/-- The bodies of the row operations stop only in the row and do not depend on the parameters. -/
theorem exec_row_stops {i : Instr} (hi : i = .compress ∨ i = .decompress ∨ i = .rowenc ∨ i = .rowdec) :
    ∃ body : State → Flow, (∀ s, exec i s = operation rowFits body s) ∧ (∀ u, StopsInRow u (body u)) ∧
      ∀ p u, body (setPar p u) = (body u).withPar p := by
  rcases hi with rfl | rfl | rfl | rfl
  · exact ⟨_, exec_compress, compressBody_stop, compressBody_setPar⟩
  · exact ⟨_, exec_decompress, decompressBody_stop, decompressBody_setPar⟩
  · exact ⟨_, exec_rowenc, rowBody_stop compressBody_stop, fun p => rowBody_setPar p (compressBody_setPar p)⟩
  · exact ⟨_, exec_rowdec, rowBody_stop decompressBody_stop, fun p => rowBody_setPar p (decompressBody_setPar p)⟩

/-- `RASTERIZE` goes on where its operands fit, its result being `SC` bytes long (R130), or stops at a pixel that a
position samples. -/
theorem exec_rasterize_cases {s : State} (h : Ready s) :
    (∃ t, exec .rasterize s = .next t) ∨
    (exec .rasterize s = .refused .overCapacity ∧ ¬ RasterOperandsFit s) ∨
    ∃ x y, x < s.w ∧ y < s.h ∧ Image.read s.img (x, y) = none ∧
      exec .rasterize s = .fault (.unwrittenPixel x y) := by
  rw [exec_rasterize]
  by_cases hfit : RasterOperandsFit s
  · rcases operation_cases (body := rasterizeBody) h ((rasterFits_iff s).2 hfit) with
      ⟨t, hb, ⟨-, he⟩ | ⟨hc, -⟩⟩ | ⟨t, hb, -⟩ | ⟨f, hb, he⟩
    · exact .inl ⟨_, he⟩
    · have hlen := rasterLoop_outlen hb
      have hheld := hfit.held
      simp only [prologue_outlen, prologue_sc] at hlen
      omega
    · exact absurd hb (rasterizeBody_not_raised _ t)
    · obtain ⟨p, hs, hn, rfl⟩ := rasterizeBody_stop hb
      rw [sampled_prologue] at hs
      rw [pixelAt_prologue] at hn
      rw [prologue_x, prologue_yoff] at he
      obtain ⟨hx, hlow, hhigh⟩ := hs
      exact .inr (.inr ⟨s.x, ((p : Int) - s.yoff).toNat, hx, by omega, hn, he⟩)
  · exact .inr (.inl ⟨operation_of_unfit h (mt (rasterFits_iff s).1 hfit), hfit⟩)

/-- The six operations of R77: two of their own kind, and the four over a row. -/
theorem operation_kinds {i : Instr} (hi : layerOf i = .operation) :
    i = .setmode ∨ i = .rasterize ∨ i = .compress ∨ i = .decompress ∨ i = .rowenc ∨ i = .rowdec := by
  cases i with
  | lit => cases hi
  | rep => cases hi
  | _ => simp

/-- Settles O20: what each kind of operation can answer, and that a next state is always one of the two ends. The stop at
an unwritten cell is the model's own (log 7). -/
theorem operationEndsDoneOrFaulted : Obligations.OperationEndsDoneOrFaulted := by
  intro i s hi h
  have ended : ∀ t, exec i s = .next t → ∃ t, exec i s = .next t ∧ Ended t := fun t hn =>
    ⟨t, hn, exec_operation_ended hi h hn⟩
  rcases operation_kinds hi with rfl | rfl | hrow
  · obtain ⟨t, hn⟩ := exec_setmode_next h
    exact .inl (ended t hn)
  · rcases exec_rasterize_cases h with ⟨t, hn⟩ | ⟨hrefused, hunfit⟩ | hstop
    · exact .inl (ended t hn)
    · exact .inr (.inl ⟨hrefused, .inr (.inl ⟨rfl, hunfit⟩)⟩)
    · exact .inr (.inr (.inr hstop))
  · obtain ⟨body, he, hstop, hpar⟩ := exec_row_stops hrow
    have hmode : i ≠ .setmode := by rintro rfl; simp at hrow
    have hraster : i ≠ .rasterize := by rintro rfl; simp at hrow
    have hcases := rowOperation_cases hstop hpar h
    simp only [← he] at hcases
    rcases hcases with ⟨t, hn⟩ | ⟨hrefused, hlong | hbeyond⟩ | hunwritten
    · exact .inl (ended t hn)
    · exact .inr (.inl ⟨hrefused, .inl ⟨hmode, hraster, hlong⟩⟩)
    · exact .inr (.inl ⟨hrefused, .inr (.inr hbeyond)⟩)
    · exact .inr (.inr (.inl hunwritten))

end Sys2Proof.Machine

/-! PROOFS, family 70_reset_and_hazards: a later reset (O53). -/
namespace Sys2Proof.Machine

/-- Settles O53: the idle step takes the reset and writes the block's registers, nothing else. The list of moves (log 2)
and the parameters in the state (log 3) are the model's choices. -/
theorem resetKeepsTheHostSide : Obligations.ResetKeepsTheHostSide := by
  intro s ms hb hh
  rw [step_move hb hh, hostMove_reset (s := { s with host := ms }) hb, resetBlock]

end Sys2Proof.Machine

/-! PROOFS, family 70_reset_and_hazards: where a row that is not written throughout stops the model (O48). -/
namespace Sys2Proof.Machine

/-! ### A body that reads the whole row -/

/-- The body stops at a byte of the row that nothing has written. -/
def StopsUnwritten (s : State) (r : Flow) : Prop :=
  ∃ j, j < s.inlen ∧ Memory.read s.inBuf j = none ∧ r = .stop (.unwrittenIn j)

@[simp] theorem flush_ip (s : State) : (flush s).ip = s.ip := by unfold flush; split <;> rfl

theorem repeatBranch_ip (b : Byte) (s : State) : (repeatBranch b s).ip = s.ip + s.rc + 1 := rfl

theorem literalBranch_ip (b : Byte) (s : State) : (literalBranch b s).ip = s.ip + 1 := by
  unfold literalBranch splitLiteral; split <;> simp

/-- A pass of `COMPRESS` that goes on has read every byte it moves the cursor over (R91 to R93). -/
theorem compressPass_go_reads {s t : State} (h : compressPass s = .go t) :
    s.ip < t.ip ∧ ∀ j, s.ip ≤ j → j < t.ip → (Memory.read s.inBuf j).isSome = true := by
  unfold compressPass at h
  split at h
  · cases h
  · next b hb =>
    split at h
    · cases h
    · next rc hcount =>
      obtain ⟨-, -, hrun, -⟩ := countRun_eq_ok hcount
      have hip : t.ip = s.ip + rc + 1 := by
        split at h <;> cases h
        · rw [repeatBranch_ip, setRc_ip, setRc_rc]
        · rw [literalBranch_ip, setRc_ip]; omega
      refine ⟨by omega, fun j hlow hhigh => ?_⟩
      obtain ⟨k, rfl⟩ := Nat.exists_eq_add_of_le hlow
      rcases Nat.eq_zero_or_pos k with rfl | hk
      · rw [Nat.add_zero, readIn_eq_ok.1 hb]; rfl
      · rw [(hrun k hk (by omega)).2]; rfl

/-- The loop of `COMPRESS`, with passes enough, goes on only where the rest of the row is written. -/
theorem compressLoop_go_reads {n : Nat} {s t : State} (h : compressLoop n s = .go t) (hn : s.inlen ≤ s.ip + n)
    {j : Nat} (hlow : s.ip ≤ j) (hj : j < s.inlen) : (Memory.read s.inBuf j).isSome = true := by
  induction n generalizing s with
  | zero => omega
  | succ n ih =>
    rw [compressLoop, if_pos (by omega), Flow.andThen_eq_go] at h
    obtain ⟨u, hu, hrest⟩ := h
    obtain ⟨hadv, hread⟩ := compressPass_go_reads hu
    have k : BodyKeeps s u := by simpa [hu, FlowKeeps] using compressPass_keeps s
    have hlen := k.hostSide.inlen
    by_cases hju : j < u.ip
    · exact hread j hlow hju
    · rw [← k.hostSide.inBuf]
      exact ih hrest (by omega) (by omega) (by omega)

/-- A row that is not written throughout has an unwritten byte. -/
theorem exists_unwritten {s : State} (h : inRow s = none) : ∃ j, j < s.inlen ∧ Memory.read s.inBuf j = none := by
  obtain ⟨j, -, hj, hread, -⟩ := memRead_of_unwritten h
  exact ⟨j, by omega, hread⟩

theorem compressBody_of_unwritten {s : State} (h0 : s.ip = 0) (hrc : s.rc ≤ 128) (hr : inRow s = none) :
    StopsUnwritten s (compressBody s) := by
  rcases compressBody_cases s hrc with ⟨t, ht, -⟩ | ⟨f, hf⟩
  · obtain ⟨j, hj, hread⟩ := exists_unwritten hr
    obtain ⟨u, hu, -⟩ := Flow.andThen_eq_go.1 ht
    have hwritten := compressLoop_go_reads hu (by omega) (by omega) hj
    simp [hread] at hwritten
  · obtain ⟨j, hj, hread, rfl⟩ := compressBody_stop s f hf
    exact ⟨j, hj, hread, hf⟩

theorem rawBody_of_unwritten {s : State} (hr : inRow s = none) : StopsUnwritten s (rawBody s) := by
  obtain ⟨j, -, hj, hread, hm⟩ := memRead_of_unwritten hr
  exact ⟨j, by omega, hread, by rw [rawBody, hm]⟩

/-- The stop of a body is the stop of its operation. -/
theorem operation_of_stopsUnwritten {body : State → Flow} {s : State} (h : Ready s) (hin : s.inlen ≤ s.par.capIn)
    (hb : StopsUnwritten (prologue s) (body (prologue s))) :
    ∃ j, j < s.inlen ∧ Memory.read s.inBuf j = none ∧ operation rowFits body s = .fault (.unwrittenIn j) := by
  obtain ⟨j, hj, hread, hstop⟩ := hb
  simp only [prologue_inlen, prologue_inBuf] at hj hread
  exact ⟨j, hj, hread, operation_of_stop h (rowFits_of_le hin) hstop⟩

theorem exec_compress_of_unwritten {s : State} (h : Ready s) (hin : s.inlen ≤ s.par.capIn) (hr : inRow s = none) :
    ∃ j, j < s.inlen ∧ Memory.read s.inBuf j = none ∧ exec .compress s = .fault (.unwrittenIn j) :=
  operation_of_stopsUnwritten h hin
    (compressBody_of_unwritten (prologue_ip s) (prologue_rested s).2 ((inRow_prologue s).trans hr))

theorem exec_raw_of_unwritten {i : Instr} {s : State} (hi : i = .rowenc ∨ i = .rowdec) (h : Ready s)
    (hin : s.inlen ≤ s.par.capIn) (hm : s.cmode = .raw) (hr : inRow s = none) :
    ∃ j, j < s.inlen ∧ Memory.read s.inBuf j = none ∧ exec i s = .fault (.unwrittenIn j) := by
  rw [exec_raw hi hm]
  exact operation_of_stopsUnwritten h hin (rawBody_of_unwritten ((inRow_prologue s).trans hr))

/-! ### The interpretation of a compressed row -/

/-- `MemRead` stops at the first byte of a stretch that nothing has written. -/
theorem memRead_of_first_unwritten {s : State} {a n j : Nat} (hlow : a ≤ j) (hhigh : j < a + n)
    (hj : Memory.read s.inBuf j = none)
    (hbefore : ∀ k, a ≤ k → k < j → (Memory.read s.inBuf k).isSome = true) :
    memRead s a n = .error (.unwrittenIn j) := by
  induction n generalizing a with
  | zero => omega
  | succ n ih =>
    rw [memRead]
    rcases hlow.eq_or_lt with rfl | hlt
    · rw [readIn_eq_error.2 ⟨hj, rfl⟩]
    · obtain ⟨b, hb⟩ := Option.isSome_iff_exists.1 (hbefore a (le_refl a) hlt)
      rw [readIn_eq_ok.2 hb, ih hlt (by omega) fun k hk => hbefore k (by omega)]

/-- The number of payload bytes behind a tag (R71, R72). -/
def payloadLength (t : Byte) : Nat := if 0 ≤ s8 t then t.toNat + 1 else 1

theorem decompressPass_of_missing_tag {s : State} (h : Memory.read s.inBuf s.ip = none) :
    decompressPass s = .stop (.unwrittenIn s.ip) := by
  rw [decompressPass, readIn_eq_error.2 ⟨h, rfl⟩]

/-- A unit inside the row stops at its first missing payload byte. -/
theorem decompressPass_of_missing_payload {s : State} {t : Byte} {j : Nat} (ht : Memory.read s.inBuf s.ip = some t)
    (hin : s.ip + 1 + payloadLength t ≤ s.inlen) (hlow : s.ip < j) (hhigh : j < s.ip + 1 + payloadLength t)
    (hj : Memory.read s.inBuf j = none)
    (hbefore : ∀ k, s.ip < k → k < j → (Memory.read s.inBuf k).isSome = true) :
    decompressPass s = .stop (.unwrittenIn j) := by
  rw [decompressPass, readIn_eq_ok.2 ht]
  dsimp only
  by_cases hsign : t.toNat < 128
  · have hpay : payloadLength t = t.toNat + 1 := if_pos (by rw [s8_of_lt hsign]; omega)
    rw [(signBit_false_iff t).2 hsign, if_neg Bool.false_ne_true, litBody, if_neg (by omega), litCount,
      memRead_of_first_unwritten hlow (by omega) hj hbefore]
  · have hpay : payloadLength t = 1 := if_neg (by rw [s8_of_ge (by omega)]; omega)
    obtain rfl : j = s.ip + 1 := by omega
    rw [if_pos ((signBit_iff t).2 (by omega)), repBody_unwritten (by omega) hj]

/-- The state in which the interpretation of `us` has come to the byte behind them. -/
def behindUnits (us : List RowUnit) (s : State) : State :=
  setIp (encodeRow us).length (emit (expand us) (prologue s))

section
variable (us : List RowUnit) (s : State)

@[simp] theorem behindUnits_ip : (behindUnits us s).ip = (encodeRow us).length := rfl
@[simp] theorem behindUnits_inBuf : (behindUnits us s).inBuf = s.inBuf := by simp [behindUnits]
@[simp] theorem behindUnits_inlen : (behindUnits us s).inlen = s.inlen := by simp [behindUnits]

end

/-- A pass behind whole units that stops is where `DECOMPRESS` stops. -/
theorem exec_decompress_of_stop {s : State} {us : List RowUnit} {f : Fault} (h : Ready s)
    (hin : s.inlen ≤ s.par.capIn) (hw : ∀ u ∈ us, u.wf = true)
    (hr : Memory.readN s.inBuf 0 (encodeRow us).length = some (encodeRow us))
    (hlt : (encodeRow us).length < s.inlen) (hstop : decompressPass (behindUnits us s) = .stop f) :
    exec .decompress s = .fault f := by
  have hshort := length_le_encodeRow hw
  obtain ⟨n, hn⟩ : ∃ n, s.inlen = us.length + (n + 1) := ⟨s.inlen - us.length - 1, by omega⟩
  have hbody : decompressBody (prologue s) = .stop f := by
    rw [decompressBody, prologue_inlen, hn,
      decompressLoop_units us (n + 1) (prologue s) hw (by simpa using hlt.le) (by simpa using hr), prologue_ip,
      Nat.zero_add, decompressLoop_succ (by simpa using hlt)]
    exact Flow.andThen_eq_stop.2 (.inl hstop)
  exact operation_of_stop h (rowFits_of_le hin) hbody

/-- Settles O48: `COMPRESS` and the copy in Raw mode read the whole row, so they cannot go on; the interpretation of a
compressed row goes over the whole units and stops in the pass behind them. The stops are the model's own (log 7). -/
theorem unwrittenRowStopsTheModel : Obligations.UnwrittenRowStopsTheModel := by
  constructor
  · intro i s h hin hr hi
    rcases hi with rfl | ⟨rfl, hm⟩ | ⟨rfl, hm⟩
    · exact exec_compress_of_unwritten h hin hr
    · cases hmode : s.cmode with
      | unset => exact absurd hmode hm
      | raw => exact exec_raw_of_unwritten (.inl rfl) h hin hmode hr
      | runLength => rw [exec_rowenc_runLength hmode]; exact exec_compress_of_unwritten h hin hr
    · exact exec_raw_of_unwritten (.inr rfl) h hin hm hr
  · intro i s us hi h hin hw hr
    have hexec : exec i s = exec .decompress s := by
      rcases hi with rfl | ⟨rfl, hm⟩
      · rfl
      · exact exec_rowdec_runLength hm
    rw [hexec]
    refine ⟨fun hlt hread => ?_, fun t j ht hfits hlow hhigh hj hbefore => ?_⟩
    · exact exec_decompress_of_stop h hin hw hr hlt
        (decompressPass_of_missing_tag (s := behindUnits us s) (by simpa using hread))
    · have hpass := decompressPass_of_missing_payload (s := behindUnits us s) (t := t) (j := j)
      simp only [behindUnits_ip, behindUnits_inBuf, behindUnits_inlen] at hpass
      exact exec_decompress_of_stop h hin hw hr (by omega) (hpass ht hfits hlow hhigh hj hbefore)

end Sys2Proof.Machine
